-- ==== Sys2Proof/Word.lean ====
section
/-! DEFINITION. The words of the CFB streaming engine: bytes, 32-bit bus and command words, and the
16-byte value `Bytes16` of `00_scope.md` R15 (the width of KEY, IV, CV and of one cipher block, R8, R9). -/

namespace Sys2Proof

/-- One byte, unsigned (R15). -/
abbrev Byte := BitVec 8

/-- One 32-bit bus or command word (R61, R90). -/
abbrev Word := BitVec 32

/-- `Bytes16` of R15: 16 bytes indexed 0..15, byte 0 first in stream order. -/
abbrev Bytes16 := Vector Byte 16

/-- `rep(16, 0x00)` of R15. -/
def zero16 : Bytes16 := Vector.replicate 16 0

end Sys2Proof
end

