-- ==== Sys2Proof/Syntax.lean ====
section
/-! DEFINITION. The command set: one constructor per row of `30_encoding.md` R94 (spec/opcode_table.json). -/

namespace Sys2Proof

/-- A padding type: field P of a command, and CFG.PAD (R28, R91). -/
inductive Padding
  | noPadding
  | pkcs
  deriving DecidableEq, Repr

/-- The commands (R93). `len` is the LEN operand, a mathematical integer (R92); `p` is the P operand. -/
inductive Instr
  /-- KEYSCHED: expand KEY into round keys (R190). -/
  | keysched
  /-- ENC_INIT: start an encryption stream (R142). -/
  | encInit
  /-- DEC_INIT: start a decryption stream (R143). -/
  | decInit
  /-- ENC_UPDATE: encrypt LEN bytes of DIN (R156). -/
  | encUpdate (len : Nat)
  /-- DEC_UPDATE: decrypt LEN bytes of DIN (R157). -/
  | decUpdate (len : Nat)
  /-- ENC_FINAL: end an encryption stream (R177). -/
  | encFinal
  /-- DEC_FINAL: end a decryption stream (R178). -/
  | decFinal
  /-- PAD_APPLY: pad a block of DIN, LEN = usedLength (R122). -/
  | padApply (p : Padding) (len : Nat)
  /-- PAD_CHECK: validate and strip the padding of a block of DIN (R125). -/
  | padCheck (p : Padding)
  /-- ZEROIZE: erase all key, IV and data material (R193). -/
  | zeroize
  deriving DecidableEq, Repr

/-- Why a word is illegal: the four cases of R95. The engine reports each as E_ILLCMD (R96). -/
inductive DecodeReject
  /-- OP in 0x0, 0xB to 0xF. -/
  | illegalOp
  /-- RSV0 or RSV1 not zero. -/
  | reservedBits
  /-- P = 1 in a command other than PAD_APPLY and PAD_CHECK. -/
  | padOperand
  /-- LEN not zero in a command that takes none. -/
  | lenOperand
  deriving DecidableEq, Repr

end Sys2Proof
end

