-- ==== Sys2Proof/WellFormed.lean ====
section
/-! DEFINITION. Which terms of `Instr` a command word can carry. -/

namespace Sys2Proof

/-- LEN is a 16-bit field, 0..65535 (R92); nothing else restricts an operand. -/
def wellFormed : Instr → Bool
  | .keysched => true
  | .encInit => true
  | .decInit => true
  | .encUpdate len => decide (len < 65536)
  | .decUpdate len => decide (len < 65536)
  | .encFinal => true
  | .decFinal => true
  | .padApply _ len => decide (len < 65536)
  | .padCheck _ => true
  | .zeroize => true

end Sys2Proof
end

