-- ==== Sys2Proof/Decode.lean ====
section
/-! DEFINITION. Decoding and encoding of the one format CMD32 (`30_encoding.md` R90 to R96). -/

namespace Sys2Proof

/-- CFG.PAD and field P: 0 = NoPadding, 1 = PKCS (R28, R91). -/
def paddingOfBit : Bool → Padding
  | false => .noPadding
  | true => .pkcs

/-- The bit that stands for a padding type (R28, R91). -/
def paddingBit : Padding → Bool
  | .noPadding => false
  | .pkcs => true

/-- OP, bits [3:0] (R91). -/
def fieldOp (w : Word) : BitVec 4 := w.extractLsb' 0 4

/-- RSV0, bits [7:4] (R91). -/
def fieldRsv0 (w : Word) : BitVec 4 := w.extractLsb' 4 4

/-- P, bit [8] (R91). -/
def fieldP (w : Word) : Bool := w.getLsbD 8

/-- RSV1, bits [15:9] (R91). -/
def fieldRsv1 (w : Word) : BitVec 7 := w.extractLsb' 9 7

/-- LEN = zext(w[31:16]) (R92). -/
def fieldLen (w : Word) : Nat := (w.extractLsb' 16 16).toNat

/-- A command that uses no operand: P and LEN must be 0 (R93). -/
def decodeBare (i : Instr) (w : Word) : Except DecodeReject Instr :=
  if fieldP w = true then .error .padOperand
  else if fieldLen w ≠ 0 then .error .lenOperand
  else .ok i

/-- A command that uses LEN alone: P must be 0 (R93). -/
def decodeLen (mk : Nat → Instr) (w : Word) : Except DecodeReject Instr :=
  if fieldP w = true then .error .padOperand else .ok (mk (fieldLen w))

/-- PAD_CHECK uses P alone: LEN must be 0 (R93). -/
def decodePad (mk : Padding → Instr) (w : Word) : Except DecodeReject Instr :=
  if fieldLen w ≠ 0 then .error .lenOperand else .ok (mk (paddingOfBit (fieldP w)))

/-- Decoding (R93, R95, R96), total on every word; a word that is no command is rejected by its reason. -/
def decode (w : Word) : Except DecodeReject Instr :=
  if fieldRsv0 w ≠ 0 ∨ fieldRsv1 w ≠ 0 then .error .reservedBits
  else match (fieldOp w).toNat with
    | 1 => decodeBare .keysched w
    | 2 => decodeBare .encInit w
    | 3 => decodeBare .decInit w
    | 4 => decodeLen .encUpdate w
    | 5 => decodeLen .decUpdate w
    | 6 => decodeBare .encFinal w
    | 7 => decodeBare .decFinal w
    | 8 => .ok (.padApply (paddingOfBit (fieldP w)) (fieldLen w))
    | 9 => decodePad .padCheck w
    | 10 => decodeBare .zeroize w
    | _ => .error .illegalOp

/-- The CMD32 word with the given OP, P and LEN, its reserved fields 0 (R91). -/
def cmdWord (op : BitVec 4) (p : Bool) (len : Nat) : Word :=
  BitVec.ofNat 16 len ++ (0#7 ++ (BitVec.ofBool p ++ (0#4 ++ op)))

/-- The command word of an instruction (R91, R93). -/
def encode : Instr → Word
  | .keysched => cmdWord 1 false 0
  | .encInit => cmdWord 2 false 0
  | .decInit => cmdWord 3 false 0
  | .encUpdate len => cmdWord 4 false len
  | .decUpdate len => cmdWord 5 false len
  | .encFinal => cmdWord 6 false 0
  | .decFinal => cmdWord 7 false 0
  | .padApply p len => cmdWord 8 (paddingBit p) len
  | .padCheck p => cmdWord 9 (paddingBit p) 0
  | .zeroize => cmdWord 10 false 0

/-- The command word whose bits spec/opcode_table.json numbers as `w`: one 32-bit word, written to CMD as a
32-bit value with bit 0 least significant and no byte lanes (R65, R90). -/
def tableWord (nbits w : Nat) : Word := BitVec.ofNat 32 (w % 2 ^ nbits)

/-- The instruction the decoder reads from the table's bits. -/
def decodeTableWord (nbits w : Nat) : Option Instr := (decode (tableWord nbits w)).toOption

end Sys2Proof
end

