-- ==== Sys2Proof/Config.lean ====
section
/-! DEFINITION. What an implementation of the engine fixes, and the free values: the parameters of
`00_scope.md` section 4 and the values the spec leaves open (`93_implementation_defined.md` U1, U2, U9, U10). -/

namespace Sys2Proof

/-- The type `RoundKeys` of R12: opaque expanded key material. The spec leaves the type open; any byte string
is admitted here (DESIGN CHOICE, `notes/assumptions/2.md`). -/
structure RoundKeys where
  material : List Byte
  deriving DecidableEq, Repr, Inhabited

/-- The parameters PARAM reports (R10, R13, R23). They are fixed for one engine; no step changes them. `dinBlocks`
is `DIN_SIZE / 16 - 1`, so that exactly the sizes R10 admits (16, 32, ..., 4080) can be written down. -/
structure Params where
  dinBlocks : Fin 255
  holdback : Bool
  deriving DecidableEq, Repr

/-- DIN_SIZE in bytes (R10): a multiple of 16 in 16..4080. -/
def Params.dinSize (p : Params) : Nat := 16 * (p.dinBlocks.val + 1)

/-- DOUT_SIZE in bytes (R10). -/
def Params.doutSize (p : Params) : Nat := p.dinSize + 16

/-- This hardware's defaults: DIN_SIZE = 256 (R10), PKCS_DEC_HOLDBACK = false (R13). -/
def defaultParams : Params := { dinBlocks := 15, holdback := false }

/-- The block cipher `BlockEncrypt` (R11, U1): total and deterministic, no other property is known. -/
opaque Config.blockEncrypt : RoundKeys → Bytes16 → Bytes16

/-- The key schedule `KeySchedule` (R12, U2): which keys fail, and with what result the others expand, is open. -/
opaque Config.keySchedule : Bytes16 → Option RoundKeys

/-- `CMD_LATENCY - 1` of the command whose acceptance made the given draw (R14, U10): CMD_LATENCY is at least 1,
and may differ from command to command. Nothing bounds it (DESIGN CHOICE, `notes/assumptions/5.md`). -/
opaque Config.extraLatency : Nat → Nat

/-- The 32-bit value of a draw the spec leaves free: what a read of an address other than ID, PARAM, CTRL and
STATUS returns while BUSY = 1 (R75, U9), and rdata in the answer of a write (R61 states none; DESIGN CHOICE,
`notes/assumptions/4.md`). -/
opaque Config.freeWord : Nat → Word

end Sys2Proof
end

