-- ==== Sys2Proof/Machine/State.lean ====
section
/-! DEFINITION. The engine's state (`10_state.md`) as plain data, with the bus side the spec gives it
(`20_memory.md` R60, R61), and its value after reset (`70_reset_and_hazards.md` R230). -/

namespace Sys2Proof.Machine

/-- Why a step of the machine stops. The engine itself has no trap (R200): every error of a command and of a bus
transaction is a next state. -/
inductive Fault
  /-- The keystream E(CV) is asked for while RK is invalid. R112 requires RK valid there and R41 invariant 2
  guarantees it, so only a state that breaks R41 raises it (DEDUCED, `notes/assumptions/8.md`). Raised
  by ENC_UPDATE, DEC_UPDATE, ENC_FINAL and DEC_FINAL. Safe: the model stops where the spec gives no keystream. -/
  | keystreamWithoutRoundKeys
  deriving DecidableEq, Repr

/-- Why a step has no meaning. -/
inductive Refusal
  /-- Raised by a dispatch arm whose instruction has no meaning yet; no arm does. Safe. -/
  | notModelled (mnemonic : String)
  deriving DecidableEq, Repr

/-- STATUS.PHASE (R25, R26). The code 3 never occurs, so the type has no value for it. -/
inductive Phase
  | idle
  | enc
  | dec
  deriving DecidableEq, Repr

/-- The direction of a stream (R93: bit OP[0] of the stream commands). -/
inductive Direction
  | enc
  | dec
  deriving DecidableEq, Repr

/-- STATUS.ERR (R201). Codes 0x09 to 0xFF are never produced. -/
inductive ErrCode
  | ok
  | fatal
  | unsup
  | pad
  | len
  | seq
  | nokey
  | arg
  | illcmd
  deriving DecidableEq, Repr

/-- The size of a bus transaction in bytes: 1, 2 or 4 (R61). -/
inductive Size
  | one
  | two
  | four
  deriving DecidableEq, Repr

/-- A bus transaction (R61). -/
structure Txn where
  write : Bool
  addr : BitVec 14
  size : Size
  wdata : Word
  deriving DecidableEq, Repr

/-- A bus response (R61). -/
inductive Resp
  | okay
  | slverr
  deriving DecidableEq, Repr

/-- The answer to a bus transaction (R61). -/
structure BusAnswer where
  rdata : Word
  resp : Resp
  deriving DecidableEq, Repr

/-- What the outside world does to the engine in one clock cycle (R60): nothing, one bus transaction, or rst_n
held low. -/
inductive HostEvent
  | idle
  | txn (t : Txn)
  | reset
  deriving DecidableEq, Repr

/-- The control registers of the register map (R63; `10_state.md` section 2). -/
inductive CtrlReg
  | id
  | param
  | ctrl
  | status
  | cmd
  | cfg
  | outLen
  | padLen
  | bufLen
  deriving DecidableEq, Repr

/-- The 16-byte context registers on the bus (R33 to R36). -/
inductive ByteReg
  | key
  | iv
  | cv
  | buf
  deriving DecidableEq, Repr

/-- The address classes of R63; `i` is the byte's index in its register or window. -/
inductive AddrClass
  | control (r : CtrlReg)
  | byteReg (r : ByteReg) (i : Nat)
  | din (i : Nat)
  | dout (i : Nat)
  | unmapped
  deriving DecidableEq, Repr

/-- The bytes of the two data windows, by bus address (R37, R38), as a list in one canonical form: addresses
strictly rising, no entry 0x00. An unlisted address reads 0x00, the windows' reset contents (R230;
DEDUCED, `notes/assumptions/10.md`). -/
abbrev Memory := List Host.Cell

/-- Everything the spec gives the engine (R20), and, last, the model's own fields for the host's side and the
free draws. ID (R22) is a constant and BUSY, RKV, BUF_LEN and irq are views of stored state (R25, R32, R31,
R210), so none of them is stored again. -/
structure State where
  /-- PARAM (R23): constant. -/
  params : Params
  /-- CTRL.IE (R24). -/
  ie : Bool
  /-- STATUS.DONE (R25). -/
  done : Bool
  /-- STATUS.PHASE (R26). -/
  phase : Phase
  /-- STATUS.ERR (R201). -/
  err : ErrCode
  /-- CFG.MODE (R28): holds any value written. -/
  mode : BitVec 3
  /-- CFG.PAD (R28). -/
  pad : Padding
  /-- OUT_LEN[15:0] (R29). -/
  outLen : BitVec 16
  /-- PAD_LEN[4:0] (R30). -/
  padLen : BitVec 5
  /-- KEY (R33). -/
  key : Bytes16
  /-- IV (R34). -/
  iv : Bytes16
  /-- CV (R35). -/
  cv : Bytes16
  /-- BUF (R36): the valid bytes; its length is BUF_LEN (R31). -/
  buf : List Byte
  /-- RK (R32): none is `invalid`. -/
  rk : Option RoundKeys
  /-- LATCH (R39): BUSY = 1 exactly while it holds a command. -/
  latch : Option Word
  /-- The windows DIN and DOUT (R37, R38). -/
  mem : Memory
  /-- MODEL's own: clock cycles still to pass before the running command's engine step (R14; DESIGN CHOICE,
  `notes/assumptions/5.md`). -/
  wait : Nat
  /-- MODEL's own: how many free values have been drawn (DESIGN CHOICE, `notes/assumptions/4.md`). -/
  draws : Nat
  /-- MODEL's own: what the outside world will do, first event first (R60; DESIGN CHOICE,
  `notes/assumptions/6.md`). -/
  host : List HostEvent
  /-- The bus port's answer to the last transaction (R61); none before the first (DESIGN CHOICE,
  `notes/assumptions/12.md`). -/
  answer : Option BusAnswer
  deriving DecidableEq, Repr

/-- The reset state of an engine with the given parameters: the table of R230, every field. -/
def State.resetOf (p : Params) : State where
  params := p
  ie := false
  done := false
  phase := .idle
  err := .ok
  mode := 0
  pad := .noPadding
  outLen := 0
  padLen := 0
  key := zero16
  iv := zero16
  cv := zero16
  buf := []
  rk := none
  latch := none
  mem := []
  wait := 0
  draws := 0
  host := []
  answer := none

/-- The machine right after reset (R230), with this hardware's default parameters (R10, R13). -/
def State.reset : State := State.resetOf defaultParams

end Sys2Proof.Machine
end

