-- ==== Sys2Proof/Machine/Ops.lean ====
section
/-! DEFINITION. The named operations over bytes, memory and registers that every command and transaction is built
from: byte primitives (`40_primitives.md`), the windows' memory, and the completion of a command (`00_scope.md`
R16), which is all the engine has in the place of taking an exception (R200, R213). -/

namespace Sys2Proof.Machine

/-! ### Bytes -/

/-- The 16-byte value whose byte i is byte i of `l`; a shorter `l` is followed by 0x00 (R173's filling). -/
def block (l : List Byte) : Bytes16 := Vector.ofFn fun i => l.getD i.val 0

/-- `blockXor` (R110): byte lanes 0..15, each on its own. -/
def blockXor (a b : Bytes16) : Bytes16 := Vector.ofFn fun i => a[i] ^^^ b[i]

/-- `a ^ b` on byte sequences of equal length (R15). -/
def xorBytes : List Byte → List Byte → List Byte
  | a :: as, b :: bs => (a ^^^ b) :: xorBytes as bs
  | [], _ => []
  | _ :: _, [] => []

/-! ### The data windows -/

/-- DIN's base address (R37). -/
def dinBase : Nat := 0x1000

/-- DOUT's base address (R38). -/
def doutBase : Nat := 0x2000

/-- What an address that is not listed reads: the windows' reset contents (R230). -/
def unlistedByte : Byte := 0

/-- The byte at a bus address of the windows. -/
def readMem : Memory → Nat → Byte
  | [], _ => unlistedByte
  | (c, x) :: m, a => if a = c then x else readMem m a

/-- Stores one byte and keeps the canonical form. -/
def writeMem : Memory → Nat → Byte → Memory
  | [], a, b => if b = unlistedByte then [] else [(a, b)]
  | (c, x) :: m, a, b =>
    if a < c then (if b = unlistedByte then (c, x) :: m else (a, b) :: (c, x) :: m)
    else if a = c then (if b = unlistedByte then m else (a, b) :: m)
    else (c, x) :: writeMem m a b

/-- Stores a byte sequence at `base`, `base + 1`, ... -/
def writeMems : Memory → Nat → List Byte → Memory
  | m, _, [] => m
  | m, base, b :: bs => writeMems (writeMem m base b) (base + 1) bs

/-- `rep(n, 0x00)` stored at `base` (R193): the bytes of the range are listed no more. -/
def zeroMems (m : Memory) (base n : Nat) : Memory :=
  m.filter fun c => !(decide (base ≤ c.1) && decide (c.1 < base + n))

/-- The canonical form: addresses strictly rising, no entry equal to what an unlisted address reads. -/
def memWf : Memory → Bool
  | [] => true
  | [(_, x)] => x != unlistedByte
  | (a, x) :: (b, y) :: m => x != unlistedByte && decide (a < b) && memWf ((b, y) :: m)

/-- Whether a bus address lies in DIN or DOUT (R63). -/
def inWindows (p : Params) (a : Nat) : Bool :=
  (decide (dinBase ≤ a) && decide (a < dinBase + p.dinSize)) ||
    (decide (doutBase ≤ a) && decide (a < doutBase + p.doutSize))

/-! ### Completion of a command -/

/-- The result registers and flags every completion writes (R16): ERR, OUT_LEN, PAD_LEN, BUSY = 0 (LATCH empties,
R39) and DONE = 1. -/
def completeWith (err : ErrCode) (outLen padLen : Nat) (s : State) : State :=
  { s with
    err := err
    outLen := BitVec.ofNat 16 outLen
    padLen := BitVec.ofNat 5 padLen
    latch := none
    done := true }

/-- DOUT[0..len(out)) <- out (R16, R38). -/
def writeDout (out : List Byte) (s : State) : State :=
  { s with mem := writeMems s.mem doutBase out }

/-- `finish(err, out, padlen)` of R16. -/
def finish (err : ErrCode) (out : List Byte) (padLen : Nat) (s : State) : State :=
  match err with
  | .ok => completeWith .ok out.length padLen (writeDout out s)
  | e => completeWith e 0 0 s

/-- `fail(code)` of R16. -/
def fail (code : ErrCode) (s : State) : State := finish code [] 0 s

/-- A word that decodes to no command (R96): E_ILLCMD, and no other state changes. -/
def rejectCommand (_ : DecodeReject) (s : State) : State := fail .illcmd s

/-! ### The cipher context -/

/-- BUF, BUF_LEN and CV as a block operation leaves them (R113, R153). -/
def setStream (cv : Bytes16) (buf : List Byte) (s : State) : State := { s with cv := cv, buf := buf }

/-- STATUS.PHASE <- p (R26). -/
def setPhase (p : Phase) (s : State) : State := { s with phase := p }

/-- RK <- r (R32). -/
def setRk (r : Option RoundKeys) (s : State) : State := { s with rk := r }

/-- The mandatory clear of every Final (R170). -/
def clearStream (s : State) : State := setPhase .idle (setStream zero16 [] s)

/-- The phase a stream of direction `d` runs in (R26). -/
def streamPhase : Direction → Phase
  | .enc => .enc
  | .dec => .dec

/-! ### Acceptance, and the free values -/

/-- Acceptance of a command word (R74): LATCH <- w, BUSY <- 1, DONE <- 0. The engine step comes after a free number
of further cycles (R14). -/
def acceptCommand (w : Word) (s : State) : State :=
  { s with
    latch := some w
    done := false
    wait := Config.extraLatency s.draws
    draws := s.draws + 1 }

/-- LATCH holds `w` and its engine step is due now. -/
def latchNow (w : Word) (s : State) : State := { s with latch := some w, wait := 0 }

/-- The next free 32-bit value (R75, U9). -/
def drawWord (s : State) : Word := Config.freeWord s.draws

/-- The draw counter moves on. -/
def nextDraw (s : State) : State := { s with draws := s.draws + 1 }

/-- The bus port answers (R61). -/
def answerWith (a : BusAnswer) (s : State) : State := { s with answer := some a }

/-- One cycle with rst_n = 0 (R230, R231): every piece of the engine's state takes its reset value. What the outside
world will do next, and the number of draws made, are not the engine's. -/
def resetEngine (s : State) : State :=
  { State.resetOf s.params with draws := s.draws, host := s.host }

end Sys2Proof.Machine
end

