-- ==== Sys2Proof/Machine/Flags.lean ====
section
/-! DEFINITION. STATUS and the other views of stored state: the status bits (R25, R42), the error codes (R201), the
mode verdict (R115) and the completion interrupt (R210). -/

namespace Sys2Proof.Machine

/-- STATUS.BUSY (R39): 1 exactly while LATCH holds a command. -/
def busy (s : State) : Bool := s.latch.isSome

/-- STATUS.RKV (R32): 1 exactly when RK is valid. -/
def rkv (s : State) : Bool := s.rk.isSome

/-- BUF_LEN (R31). -/
def bufLen (s : State) : Nat := s.buf.length

/-- The irq output (R210): level, combinational from state. -/
def irq (s : State) : Bool := s.ie && s.done

/-- The numeric error codes (R201). -/
def errCode : ErrCode → BitVec 8
  | .ok => 0x00
  | .fatal => 0x01
  | .unsup => 0x02
  | .pad => 0x03
  | .len => 0x04
  | .seq => 0x05
  | .nokey => 0x06
  | .arg => 0x07
  | .illcmd => 0x08

/-- STATUS.PHASE's code (R25). -/
def phaseCode : Phase → BitVec 2
  | .idle => 0
  | .enc => 1
  | .dec => 2

/-- STATUS as read (R25): BUSY [0], DONE [1], PHASE [3:2], RKV [4], ERR [15:8], the rest 0. -/
def statusWord (s : State) : Word :=
  0#16 ++ (errCode s.err ++ (0#3 ++ (BitVec.ofBool (rkv s) ++ (phaseCode s.phase ++
    (BitVec.ofBool s.done ++ BitVec.ofBool (busy s))))))

/-- `modeCheck(MODE)` (R115): 0 is CFB; 1 to 3 are reserved; 4 to 7 are unrecognized. -/
def modeCheck (mode : BitVec 3) : ErrCode :=
  if mode.toNat = 0 then .ok else if mode.toNat ≤ 3 then .unsup else .fatal

end Sys2Proof.Machine
end

