-- ==== Sys2Proof/Machine/Operands.lean ====
section
/-! DEFINITION. The operand forms of the commands (R92): what a command reads from the state beside its fields LEN
and P, and the register words the host sees (`10_state.md` section 2). -/

namespace Sys2Proof.Machine

/-- DIN[i] (R37). -/
def dinByte (s : State) (i : Nat) : Byte := readMem s.mem (dinBase + i)

/-- DIN[0..n) (R37). -/
def dinBytes (s : State) (n : Nat) : List Byte := (List.range n).map (dinByte s)

/-- DIN[0..16) as a block (R122, R125). -/
def dinBlock (s : State) : Bytes16 := Vector.ofFn fun i => dinByte s i.val

/-- DOUT[i] (R38). -/
def doutByte (s : State) (i : Nat) : Byte := readMem s.mem (doutBase + i)

/-- BUF[i] as the host reads it: 0x00 at and beyond BUF_LEN (R36). -/
def bufByte (s : State) (i : Nat) : Byte := s.buf.getD i 0

/-- The term `h` of R153: PKCS_DEC_HOLDBACK and dir = DEC and CFG.PAD = 1. -/
def holdsBack (dir : Direction) (s : State) : Bool :=
  s.params.holdback && decide (dir = .dec) && decide (s.pad = .pkcs)

/-- ID (R22): the ASCII bytes "CSE1". -/
def idWord : Word := 0x43534531

/-- PARAM as read (R23). -/
def paramWord (p : Params) : Word :=
  0#15 ++ (BitVec.ofBool p.holdback ++ BitVec.ofNat 16 p.dinSize)

/-- CTRL as read (R24). -/
def ctrlWord (s : State) : Word := 0#31 ++ BitVec.ofBool s.ie

/-- CFG as read (R28): MODE [2:0], PAD [4]. -/
def cfgWord (s : State) : Word :=
  0#27 ++ (BitVec.ofBool (paddingBit s.pad) ++ (0#1 ++ s.mode))

/-- What a control register reads (R67): its value; CMD, write-only, reads 0. -/
def controlValue (s : State) : CtrlReg → Word
  | .id => idWord
  | .param => paramWord s.params
  | .ctrl => ctrlWord s
  | .status => statusWord s
  | .cmd => 0
  | .cfg => cfgWord s
  | .outLen => s.outLen.setWidth 32
  | .padLen => s.padLen.setWidth 32
  | .bufLen => BitVec.ofNat 32 (bufLen s % 32)

/-- What byte i of a context register reads (R67): KEY, write-only, reads 0. -/
def contextByte (s : State) (r : ByteReg) (i : Nat) : Byte :=
  match r with
  | .key => 0
  | .iv => s.iv.toList.getD i 0
  | .cv => s.cv.toList.getD i 0
  | .buf => bufByte s i

end Sys2Proof.Machine
end

