-- ==== Sys2Proof/Machine/Bus.lean ====
section
/-! DEFINITION. The bus port (`20_memory.md`): address classes, legality, reads, writes, and what one clock cycle of
the outside world does to the engine. -/

namespace Sys2Proof.Machine

/-- The control register at an address (R63; `10_state.md` section 2). -/
def controlAt (a : Nat) : Option CtrlReg :=
  match a with
  | 0x000 => some .id
  | 0x004 => some .param
  | 0x008 => some .ctrl
  | 0x00C => some .status
  | 0x010 => some .cmd
  | 0x014 => some .cfg
  | 0x018 => some .outLen
  | 0x01C => some .padLen
  | 0x020 => some .bufLen
  | _ => none

/-- The context register at an address of 0x040..0x07F (R33 to R36). -/
def byteRegAt (a : Nat) : ByteReg :=
  if a < 0x50 then .key else if a < 0x60 then .iv else if a < 0x70 then .cv else .buf

/-- The class of an address (R63). -/
def classify (p : Params) (a : Nat) : AddrClass :=
  match controlAt a with
  | some r => .control r
  | none =>
    if 0x40 ≤ a ∧ a ≤ 0x7F then .byteReg (byteRegAt a) (a % 16)
    else if dinBase ≤ a ∧ a < dinBase + p.dinSize then .din (a - dinBase)
    else if doutBase ≤ a ∧ a < doutBase + p.doutSize then .dout (a - doutBase)
    else .unmapped

/-- Whether a class admits a transaction of this size at this address (R63, R66). -/
def sizeOk (c : AddrClass) (size : Size) (a : Nat) : Bool :=
  match c, size with
  | .unmapped, _ => false
  | _, .two => false
  | .control _, .one => false
  | _, .one => true
  | _, .four => decide (a % 4 = 0)

/-- Whether a transaction is answered OKAY (R66): legal, and no write while BUSY = 1 (R75). -/
def accepted (s : State) (t : Txn) : Bool :=
  sizeOk (classify s.params t.addr.toNat) t.size t.addr.toNat && !(t.write && busy s)

/-- Whether an address is readable while BUSY = 1 with its current value (R75). -/
def readableWhileBusy : AddrClass → Bool
  | .control .id => true
  | .control .param => true
  | .control .ctrl => true
  | .control .status => true
  | _ => false

/-- The byte an address reads (R67). -/
def readByte (s : State) (a : Nat) : Byte :=
  match classify s.params a with
  | .byteReg r i => contextByte s r i
  | .din _ => readMem s.mem a
  | .dout _ => readMem s.mem a
  | .control _ => 0
  | .unmapped => 0

/-- The value a legal read returns (R67): a control register's word; one byte in bits [7:0]; or four bytes in
big-endian lanes (R65). -/
def readValue (s : State) (size : Size) (a : Nat) : Word :=
  match classify s.params a, size with
  | .control r, _ => controlValue s r
  | _, .four => readByte s a ++ (readByte s (a + 1) ++ (readByte s (a + 2) ++ readByte s (a + 3)))
  | _, _ => 0#24 ++ readByte s a

/-- Stores one byte (R68): KEY and IV only in IDLE, a KEY write setting RK to invalid (R33); DIN in any phase; a
write to CV, BUF or DOUT is ignored. -/
def storeByte (a : Nat) (b : Byte) (s : State) : State :=
  match classify s.params a with
  | .byteReg .key i => if s.phase = .idle then { s with key := s.key.setIfInBounds i b, rk := none } else s
  | .byteReg .iv i => if s.phase = .idle then { s with iv := s.iv.setIfInBounds i b } else s
  | .byteReg .cv _ => s
  | .byteReg .buf _ => s
  | .din _ => { s with mem := writeMem s.mem a b }
  | .dout _ => s
  | .control _ => s
  | .unmapped => s

/-- Writes a control register (R68): ID, PARAM, OUT_LEN, PAD_LEN and BUF_LEN ignore it; STATUS clears DONE on bit 1
(R25); CFG is locked unless PHASE = IDLE (R28, R243); CMD accepts the command (R74). -/
def writeControl (r : CtrlReg) (v : Word) (s : State) : State :=
  match r with
  | .ctrl => { s with ie := v.getLsbD 0 }
  | .status => if v.getLsbD 1 then { s with done := false } else s
  | .cmd => acceptCommand v s
  | .cfg =>
    if s.phase = .idle then
      { s with mode := v.extractLsb' 0 3, pad := paddingOfBit (v.getLsbD 4) }
    else s
  | .id => s
  | .param => s
  | .outLen => s
  | .padLen => s
  | .bufLen => s

/-- The effect of a legal write (R68): one byte from bits [7:0], or four bytes from big-endian lanes (R65). -/
def writeValue (size : Size) (a : Nat) (v : Word) (s : State) : State :=
  match classify s.params a, size with
  | .control r, _ => writeControl r v s
  | _, .four =>
    storeByte (a + 3) (v.extractLsb' 0 8) (storeByte (a + 2) (v.extractLsb' 8 8)
      (storeByte (a + 1) (v.extractLsb' 16 8) (storeByte a (v.extractLsb' 24 8) s)))
  | _, _ => storeByte a (v.extractLsb' 0 8) s

/-- A read transaction (R66, R67, R75): SLVERR with rdata = 0 (R61), the value read, or, while BUSY = 1, any value. -/
def busRead (t : Txn) (s : State) : State :=
  if accepted s t = false then answerWith { rdata := 0, resp := .slverr } s
  else if busy s = true ∧ readableWhileBusy (classify s.params t.addr.toNat) = false then
    answerWith { rdata := drawWord s, resp := .okay } (nextDraw s)
  else answerWith { rdata := readValue s t.size t.addr.toNat, resp := .okay } s

/-- A write transaction (R66, R68, R75). The spec states no rdata for a write's answer: a free value. -/
def busWrite (t : Txn) (s : State) : State :=
  if accepted s t = false then answerWith { rdata := drawWord s, resp := .slverr } (nextDraw s)
  else answerWith { rdata := drawWord s, resp := .okay }
    (writeValue t.size t.addr.toNat t.wdata (nextDraw s))

/-- One bus transaction, one atomic step (R61). -/
def busTxn (t : Txn) (s : State) : State := if t.write then busWrite t s else busRead t s

/-- One clock cycle in which the engine's own step is not due: the next event of the outside world (R60). -/
def hostCycle (s : State) : State :=
  match s.host with
  | [] => s
  | .idle :: es => { s with host := es }
  | .txn t :: es => busTxn t { s with host := es }
  | .reset :: es => resetEngine { s with host := es }

/-- rst_n is low in this cycle (R60). -/
def resetPending (s : State) : Bool :=
  match s.host with
  | .reset :: _ => true
  | _ => false

/-- rst_n is high in this cycle: leading reset cycles are dropped. -/
def releaseReset (s : State) : State := { s with host := s.host.dropWhile fun e => decide (e = .reset) }

/-- The running command comes one clock cycle nearer to its engine step (R14). -/
def countDown (s : State) : State := { s with wait := s.wait - 1 }

end Sys2Proof.Machine
end

