-- ==== Sys2Proof/Machine/Cfb.lean ====
section
/-! DEFINITION. The CFB block step and the stream functions (`40_primitives.md` R112 to R114, `43_cfb_update.md`
R153). They take the keystream function E of the current round keys as an argument, so that nothing in them can
depend on the cipher. -/

namespace Sys2Proof.Machine

/-- What the block step leaves in CV (R113): the most recent ciphertext block. -/
def feedback (dir : Direction) (inBlk outBlk : Bytes16) : Bytes16 :=
  match dir with
  | .enc => outBlk
  | .dec => inBlk

/-- The output of the block step on `blk` (R113): E(CV) ^ blk. -/
def stepOut (e : Bytes16 → Bytes16) (cv blk : Bytes16) : Bytes16 := blockXor (e cv) blk

/-- The partial step (R114): the first n keystream bytes XORed with the n buffered bytes; CV is not written. -/
def partialStep (e : Bytes16 → Bytes16) (cv : Bytes16) (buf : List Byte) : List Byte :=
  xorBytes ((e cv).toList.take buf.length) buf

/-- What an Update makes of the stream: its output, and CV and BUF after it. -/
structure Streamed where
  out : List Byte
  cv : Bytes16
  buf : List Byte
  deriving DecidableEq, Repr

/-- The condition of R153's loop on the number of input bytes left: with hold-back the last full block stays. -/
def takesBlock (h : Bool) (left : Nat) : Bool := if h then decide (16 < left) else decide (16 ≤ left)

/-- Steps 4 and 5 of R153: whole blocks are taken from the front of the input, in stream order (R154); what is left
goes to BUF. `fuel` is any number not below the number of blocks. -/
def takeBlocks (e : Bytes16 → Bytes16) (dir : Direction) (h : Bool) :
    (fuel : Nat) → (cv : Bytes16) → (input : List Byte) → Streamed
  | 0, cv, input => { out := [], cv := cv, buf := input }
  | fuel + 1, cv, input =>
    if takesBlock h input.length then
      let blk := block (input.take 16)
      let o := stepOut e cv blk
      let r := takeBlocks e dir h fuel (feedback dir blk o) (input.drop 16)
      { r with out := o.toList ++ r.out }
    else { out := [], cv := cv, buf := input }

/-- R153's test: the whole input fits in BUF, and no block is stepped. -/
def onlyBuffers (h : Bool) (total : Nat) : Bool :=
  decide (total < 16) || (h && decide (total = 16))

/-- The body of R153 when a block is stepped: the filled buffer first (step 3), then the rest of the input. -/
def stepBlocks (e : Bytes16 → Bytes16) (dir : Direction) (h : Bool) (cv : Bytes16) (buf input : List Byte) :
    Streamed :=
  let i := 16 - buf.length
  let blk := block (buf ++ input.take i)
  let o := stepOut e cv blk
  let r := takeBlocks e dir h input.length (feedback dir blk o) (input.drop i)
  { r with out := o.toList ++ r.out }

end Sys2Proof.Machine
end

