-- ==== Sys2Proof/Machine/PadEngine.lean ====
section
/-! DEFINITION. The two pure functions of the padding engine (`41_padding.md` R120, R121); blockLength is 16 (R8). -/

namespace Sys2Proof.Machine

/-- `applyPadding` (R120): the pad length and the padded block, or none for padfail. padLength is computed over the
integers (R15). -/
def applyPadding (blk : Bytes16) (used : Nat) : Padding → Option (Nat × Bytes16)
  | .noPadding => if used = 0 then some (0, blk) else none
  | .pkcs =>
    let padLength : Int := 16 - (used : Int)
    if 0 < padLength ∧ padLength ≤ 16 then
      some (padLength.toNat,
        block (blk.toList.take used ++ List.replicate padLength.toNat (BitVec.ofNat 8 padLength.toNat)))
    else none

/-- `checkAndStripPadding` (R121): the pad length, or none for padfail. The stripped result is the block without
its last pad-length bytes. -/
def checkAndStripPadding (blk : Bytes16) : Padding → Option Nat
  | .noPadding => some 0
  | .pkcs =>
    let p := blk[15].toNat
    if 0 < p ∧ p ≤ 16 then
      if (blk.toList.drop (16 - p)).all (fun b => decide (b.toNat = p)) then some p else none
    else none

end Sys2Proof.Machine
end

