-- ==== Sys2Proof/Machine/Final.lean ====
section
/-! DEFINITION. ENC_FINAL and DEC_FINAL (`44_cfb_final.md`). Every result below is followed by the clear of R170,
which is written around all of them once, in `finalCommand`. -/

namespace Sys2Proof.Machine

/-- The checks of R171 after decoding, in their order: PHASE, MODE. -/
def finalCheck (dir : Direction) (s : State) : ErrCode :=
  if s.phase ≠ streamPhase dir then .seq else modeCheck s.mode

/-- Final under NoPadding (R172), either direction, with bytes buffered. -/
def finalPlain (e : Bytes16 → Bytes16) (s : State) : State :=
  finish .ok (partialStep e s.cv s.buf) 0 s

/-- ENC_FINAL under PKCS (R173), the padded block being `padded`. -/
def finalEncPkcs (e : Bytes16 → Bytes16) (padLen : Nat) (padded : Bytes16) (s : State) : State :=
  finish .ok (blockXor (e s.cv) padded).toList padLen s

/-- DEC_FINAL under PKCS with 16 bytes buffered (R174): the candidate plaintext is validated and stripped; on failure
it is not written. -/
def finalDecPkcs (e : Bytes16 → Bytes16) (s : State) : State :=
  let pt := blockXor (e s.cv) (block s.buf)
  match checkAndStripPadding pt .pkcs with
  | none => fail .pad s
  | some p => finish .ok (pt.toList.take (16 - p)) p s

/-- A result that needs the keystream (R112). -/
def withKeystream (f : (Bytes16 → Bytes16) → State → State) (s : State) : Host.Outcome State Fault Refusal :=
  match s.rk with
  | some k => .next (f (Config.blockEncrypt k) s)
  | none => .fault .keystreamWithoutRoundKeys

/-- The result of a Final whose checks pass, before the clear (R172, R173, R174). -/
def finalBody (dir : Direction) (s : State) : Host.Outcome State Fault Refusal :=
  match s.pad with
  | .noPadding => if s.buf = [] then .next (finish .ok [] 0 s) else withKeystream finalPlain s
  | .pkcs =>
    match dir with
    | .enc =>
      match applyPadding (block s.buf) s.buf.length .pkcs with
      | none => .next (fail .pad s)
      | some (pl, padded) => withKeystream (fun e => finalEncPkcs e pl padded) s
    | .dec => if s.buf.length ≠ 16 then .next (fail .len s) else withKeystream finalDecPkcs s

/-- The mandatory clear after a result (R170). -/
def thenClear : Host.Outcome State Fault Refusal → Host.Outcome State Fault Refusal
  | .next s => .next (clearStream s)
  | .fault f => .fault f
  | .refused r => .refused r

/-- A Final: R171's checks, the result from the state before the clear, then the clear, whatever the result. -/
def finalCommand (dir : Direction) (s : State) : Host.Outcome State Fault Refusal :=
  thenClear (match finalCheck dir s with
    | .ok => finalBody dir s
    | code => .next (fail code s))

/-- ENC_FINAL (R177). -/
def execEncFinal (s : State) : Host.Outcome State Fault Refusal := finalCommand .enc s

/-- DEC_FINAL (R178). -/
def execDecFinal (s : State) : Host.Outcome State Fault Refusal := finalCommand .dec s

end Sys2Proof.Machine
end

