-- ==== Sys2Proof/Machine/Init.lean ====
section
/-! DEFINITION. ENC_INIT and DEC_INIT (`42_cfb_init.md`). -/

namespace Sys2Proof.Machine

/-- `init(dir)` (R141): BUF is emptied, CV loaded from IV unless MODE = 1 (ECB, the no-chaining mode), PHASE set. -/
def initStream (dir : Direction) (s : State) : State :=
  setPhase (streamPhase dir) (setStream (if s.mode.toNat ≠ 1 then s.iv else s.cv) [] s)

/-- The checks of R140 in their order, then R141's body. -/
def initCommand (dir : Direction) (s : State) : State :=
  if rkv s = false then fail .nokey s
  else if 4 ≤ s.mode.toNat then fail .fatal s
  else finish .ok [] 0 (initStream dir s)

/-- ENC_INIT (R142). -/
def execEncInit (s : State) : Host.Outcome State Fault Refusal := .next (initCommand .enc s)

/-- DEC_INIT (R143). -/
def execDecInit (s : State) : Host.Outcome State Fault Refusal := .next (initCommand .dec s)

end Sys2Proof.Machine
end

