-- ==== Sys2Proof/Machine/KeyMaint.lean ====
section
/-! DEFINITION. KEYSCHED and ZEROIZE (`45_key_maint.md`). -/

namespace Sys2Proof.Machine

/-- KEYSCHED's body once PHASE = IDLE (R190): RK takes the key schedule's result; its failure is E_FATAL (R191). -/
def expandKey (s : State) : State :=
  match Config.keySchedule s.key with
  | none => fail .fatal (setRk none s)
  | some k => finish .ok [] 0 (setRk (some k) s)

/-- KEYSCHED (R190). -/
def execKeysched (s : State) : Host.Outcome State Fault Refusal :=
  .next (if s.phase = .idle then expandKey s else fail .seq s)

/-- ZEROIZE's writes before its finish (R193). CFG and CTRL keep their values. -/
def eraseAll (s : State) : State :=
  { clearStream (setRk none s) with
    key := zero16
    iv := zero16
    mem := zeroMems (zeroMems s.mem dinBase s.params.dinSize) doutBase s.params.doutSize }

/-- ZEROIZE (R193). -/
def execZeroize (s : State) : Host.Outcome State Fault Refusal :=
  .next (finish .ok [] 0 (eraseAll s))

end Sys2Proof.Machine
end

