-- ==== Sys2Proof/Machine/PadCommands.lean ====
section
/-! DEFINITION. PAD_APPLY and PAD_CHECK (`41_padding.md` R122 to R126). They read DIN alone, run in every phase and
need no key. -/

namespace Sys2Proof.Machine

/-- PAD_APPLY (R122). Under NoPadding no byte is emitted (R123). -/
def padApplyResult (p : Padding) (len : Nat) (s : State) : State :=
  match p with
  | .noPadding => if len = 0 then finish .ok [] 0 s else fail .pad s
  | .pkcs =>
    match applyPadding (dinBlock s) len .pkcs with
    | none => fail .pad s
    | some (pl, blk) => finish .ok blk.toList pl s

/-- PAD_APPLY (R122). -/
def execPadApply (p : Padding) (len : Nat) (s : State) : Host.Outcome State Fault Refusal :=
  .next (padApplyResult p len s)

/-- PAD_CHECK (R125). -/
def padCheckResult (p : Padding) (s : State) : State :=
  match checkAndStripPadding (dinBlock s) p with
  | none => fail .pad s
  | some n => finish .ok ((dinBlock s).toList.take (16 - n)) n s

/-- PAD_CHECK (R125). -/
def execPadCheck (p : Padding) (s : State) : Host.Outcome State Fault Refusal :=
  .next (padCheckResult p s)

end Sys2Proof.Machine
end

