-- ==== Sys2Proof/Machine/Update.lean ====
section
/-! DEFINITION. ENC_UPDATE and DEC_UPDATE (`43_cfb_update.md`). -/

namespace Sys2Proof.Machine

/-- The checks of R152 after decoding, in their order: LEN, PHASE, MODE. -/
def updateCheck (dir : Direction) (len : Nat) (s : State) : ErrCode :=
  if s.params.dinSize < len then .arg
  else if s.phase ≠ streamPhase dir then .seq
  else modeCheck s.mode

/-- `update(dir, n)` of R153 under the keystream function E, when a block is stepped. -/
def updateBlocks (e : Bytes16 → Bytes16) (dir : Direction) (len : Nat) (s : State) : State :=
  let r := stepBlocks e dir (holdsBack dir s) s.cv s.buf (dinBytes s len)
  finish .ok r.out 0 (setStream r.cv r.buf s)

/-- `update(dir, n)` of R153. The keystream is needed only when a block is stepped. -/
def updateBody (dir : Direction) (len : Nat) (s : State) : Host.Outcome State Fault Refusal :=
  if onlyBuffers (holdsBack dir s) (s.buf.length + len) then
    .next (finish .ok [] 0 (setStream s.cv (s.buf ++ dinBytes s len) s))
  else
    match s.rk with
    | some k => .next (updateBlocks (Config.blockEncrypt k) dir len s)
    | none => .fault .keystreamWithoutRoundKeys

/-- An Update: R152's checks, a failing one changing only the result registers (R151, R152), then R153. -/
def updateCommand (dir : Direction) (len : Nat) (s : State) : Host.Outcome State Fault Refusal :=
  match updateCheck dir len s with
  | .ok => updateBody dir len s
  | code => .next (fail code s)

/-- ENC_UPDATE (R156). -/
def execEncUpdate (len : Nat) (s : State) : Host.Outcome State Fault Refusal := updateCommand .enc len s

/-- DEC_UPDATE (R157). -/
def execDecUpdate (len : Nat) (s : State) : Host.Outcome State Fault Refusal := updateCommand .dec len s

end Sys2Proof.Machine
end

