-- ==== Sys2Proof/Machine/Dispatch.lean ====
section
/-! DEFINITION. One arm per command: the rule of the matching row (`30_encoding.md` R96). -/

namespace Sys2Proof.Machine

def exec (i : Instr) (s : State) : Host.Outcome State Fault Refusal :=
  match i with
  | .keysched => Sys2Proof.Machine.execKeysched s
  | .encInit => Sys2Proof.Machine.execEncInit s
  | .decInit => Sys2Proof.Machine.execDecInit s
  | .encUpdate len => Sys2Proof.Machine.execEncUpdate len s
  | .decUpdate len => Sys2Proof.Machine.execDecUpdate len s
  | .encFinal => Sys2Proof.Machine.execEncFinal s
  | .decFinal => Sys2Proof.Machine.execDecFinal s
  | .padApply p len => Sys2Proof.Machine.execPadApply p len s
  | .padCheck p => Sys2Proof.Machine.execPadCheck p s
  | .zeroize => Sys2Proof.Machine.execZeroize s

end Sys2Proof.Machine
end

