-- ==== Sys2Proof/Machine/Step.lean ====
section
/-! DEFINITION. One step of the machine: the engine's atomic step when a command is due, else one clock cycle of the
outside world (`20_memory.md` R61, R74). -/

namespace Sys2Proof.Machine

/-- The engine's atomic step on the latched word (R74, R96). -/
def engineStep (w : Word) (s : State) : Host.Outcome State Fault Refusal :=
  match decode w with
  | .ok i => exec i s
  | .error r => .next (rejectCommand r s)

/-- One step. While rst_n is low nothing else happens (R230, R231); a latched command whose latency has passed runs;
else the outside world has its cycle (R14, R71). -/
def step (s : State) : Host.Outcome State Fault Refusal :=
  if resetPending s = true then .next (hostCycle s)
  else match s.latch, s.wait with
    | some w, 0 => engineStep w s
    | some _, _ + 1 => .next (hostCycle (countDown s))
    | none, _ => .next (hostCycle s)

/-- The command word of the table's bits in LATCH, its engine step due and rst_n high. -/
def State.withFetchWord (s : State) (nbits w : Nat) : State :=
  latchNow (tableWord nbits w) (releaseReset s)

end Sys2Proof.Machine
end

