-- ==== Sys2Proof/Safety.lean ====
section
/-! DEFINITION. The terms claims are stated in: the invariants of `10_state.md` section 6, and what a command leaves
unchanged. -/

namespace Sys2Proof.Machine

/-! ### Invariants -/

/-- R41 invariant 1: an idle engine holds no stream material. -/
def IdleIsClean (s : State) : Prop := s.phase = .idle → s.buf = [] ∧ s.cv = zero16

/-- R41 invariant 2: a running stream has round keys. -/
def StreamHasKeys (s : State) : Prop := s.phase ≠ .idle → s.rk.isSome = true

/-- R41 invariant 3 (R31): BUF_LEN is 0..15; it is 16 only with hold-back, in phase DEC under PKCS. -/
def BufferBounded (s : State) : Prop :=
  s.buf.length ≤ 15 ∨
    (s.buf.length = 16 ∧ s.params.holdback = true ∧ s.phase = .dec ∧ s.pad = .pkcs)

/-- The windows' memory is in its canonical form and lists no address outside DIN and DOUT. -/
def MemoryCanonical (s : State) : Prop :=
  memWf s.mem = true ∧ ∀ c ∈ s.mem, inWindows s.params c.1 = true

/-- R29, R30: what OUT_LEN and PAD_LEN can hold. -/
def LengthsBounded (s : State) : Prop :=
  s.outLen.toNat ≤ s.params.dinSize + 16 ∧ s.padLen.toNat ≤ 16

/-- R74: DONE is 0 while a command runs. -/
def RunningNotDone (s : State) : Prop := busy s = true → s.done = false

/-- What holds after reset and after every step. -/
structure EngineInv (s : State) : Prop where
  idleIsClean : IdleIsClean s
  streamHasKeys : StreamHasKeys s
  bufferBounded : BufferBounded s
  memoryCanonical : MemoryCanonical s
  lengthsBounded : LengthsBounded s
  runningNotDone : RunningNotDone s

/-! ### Frames -/

/-- The result registers and flags of a completed command (R16). -/
def ResultIs (err : ErrCode) (outLen padLen : Nat) (t : State) : Prop :=
  t.err = err ∧ t.outLen.toNat = outLen ∧ t.padLen.toNat = padLen ∧ busy t = false ∧ t.done = true

/-- PARAM, CTRL, CFG and IV are unchanged. -/
def SameConfig (s t : State) : Prop :=
  t.params = s.params ∧ t.ie = s.ie ∧ t.mode = s.mode ∧ t.pad = s.pad ∧ t.iv = s.iv

/-- KEY and RK are unchanged. -/
def SameKeys (s t : State) : Prop := t.key = s.key ∧ t.rk = s.rk

/-- PHASE, CV and BUF are unchanged. -/
def SameStream (s t : State) : Prop := t.phase = s.phase ∧ t.cv = s.cv ∧ t.buf = s.buf

/-- PHASE = IDLE, CV and BUF cleared (R170). -/
def Cleared (t : State) : Prop := t.phase = .idle ∧ t.cv = zero16 ∧ t.buf = []

/-- The model's own fields and the bus port's answer are unchanged. -/
def SamePort (s t : State) : Prop :=
  t.wait = s.wait ∧ t.draws = s.draws ∧ t.host = s.host ∧ t.answer = s.answer

/-- Every byte of the windows reads as before. -/
def SameMemory (s t : State) : Prop := ∀ a, readMem t.mem a = readMem s.mem a

/-- Every byte outside DOUT[0..n) reads as before. -/
def SameMemoryBut (n : Nat) (s t : State) : Prop :=
  ∀ a, (a < doutBase ∨ doutBase + n ≤ a) → readMem t.mem a = readMem s.mem a

/-- STATUS.ERR, DONE, OUT_LEN, PAD_LEN, and LATCH with BUSY, are unchanged. -/
def SameResult (s t : State) : Prop :=
  t.err = s.err ∧ t.done = s.done ∧ t.outLen = s.outLen ∧ t.padLen = s.padLen ∧ t.latch = s.latch

/-- A command that failed with `code` and changed nothing else (R16, R204). -/
def FailedWith (code : ErrCode) (s t : State) : Prop :=
  ResultIs code 0 0 t ∧ SameConfig s t ∧ SameKeys s t ∧ SameStream s t ∧ SamePort s t ∧ SameMemory s t

/-- A Final that failed with `code`: the clear of R170, and nothing else changed (R175). -/
def FailedAndCleared (code : ErrCode) (s t : State) : Prop :=
  ResultIs code 0 0 t ∧ SameConfig s t ∧ SameKeys s t ∧ Cleared t ∧ SamePort s t ∧ SameMemory s t

/-- The engine's whole state, all but the model's own fields and the bus port's answer, is unchanged (R61, R205). -/
def SameEngine (s t : State) : Prop :=
  SameConfig s t ∧ SameKeys s t ∧ SameStream s t ∧ SameResult s t ∧ SameMemory s t

/-- rst_n is high and LATCH holds `w` with its latency passed: the next step is the engine's (R74). -/
def Due (w : Word) (s : State) : Prop := resetPending s = false ∧ s.latch = some w ∧ s.wait = 0

/-- ENC_INIT or DEC_INIT. -/
def initInstr : Direction → Instr
  | .enc => .encInit
  | .dec => .decInit

/-- ENC_UPDATE or DEC_UPDATE. -/
def updateInstr : Direction → Nat → Instr
  | .enc, n => .encUpdate n
  | .dec, n => .decUpdate n

/-- ENC_FINAL or DEC_FINAL. -/
def finalInstr : Direction → Instr
  | .enc => .encFinal
  | .dec => .decFinal

/-- A block that ends in valid PKCS padding of `p` bytes (R121): p in 1..16 and each of the last p bytes is p. -/
def PaddedWith (blk : Bytes16) (p : Nat) : Prop :=
  0 < p ∧ p ≤ 16 ∧ ∀ i : Fin 16, 16 - p ≤ i.val → (blk[i]).toNat = p

end Sys2Proof.Machine
end

