-- ==== Sys2Proof/Certificates/Slice0/Obligations.lean ====
section
/-! DEFINITION. The statements for the provers, from the numbered rules of spec/. Each docstring names its rules. A
stream "runs" when PHASE is its direction; `EngineInv` (Safety.lean) is stated on its own below. The cipher and the key
schedule are the opaque constants of Config.lean, so every statement holds for every cipher. -/

open Sys2Proof Sys2Proof.Machine

/-! ### Encoding -/

/-- R91 to R93: decoding the encoding of a well-formed instruction gives it back. -/
def Obligations.DecodeEncodeRoundTrip : Prop :=
  ∀ i : Instr, wellFormed i = true → decode (encode i) = .ok i

/-- R91 to R93: a word that decodes is the encoding of what it decodes to, which is well-formed. -/
def Obligations.DecodedWordIsItsEncoding : Prop :=
  ∀ (w : Word) (i : Instr), decode w = .ok i → encode i = w ∧ wellFormed i = true

/-- R94, with R92's operands: a word selects a command exactly when it matches the command's row. -/
def Obligations.DecodeIsMaskAndMatch : Prop :=
  ∀ (w : Word) (p : Padding) (n : Nat),
    let len := n = (w >>> 16).toNat
    let pad := p = if w.getLsbD 8 = true then .pkcs else .noPadding
    (decode w = .ok .keysched ↔ w &&& 0xFFFFFFFF = 0x00000001) ∧
    (decode w = .ok .encInit ↔ w &&& 0xFFFFFFFF = 0x00000002) ∧
    (decode w = .ok .decInit ↔ w &&& 0xFFFFFFFF = 0x00000003) ∧
    (decode w = .ok (.encUpdate n) ↔ (w &&& 0x0000FFFF = 0x00000004 ∧ len)) ∧
    (decode w = .ok (.decUpdate n) ↔ (w &&& 0x0000FFFF = 0x00000005 ∧ len)) ∧
    (decode w = .ok .encFinal ↔ w &&& 0xFFFFFFFF = 0x00000006) ∧
    (decode w = .ok .decFinal ↔ w &&& 0xFFFFFFFF = 0x00000007) ∧
    (decode w = .ok (.padApply p n) ↔ (w &&& 0x0000FEFF = 0x00000008 ∧ pad ∧ len)) ∧
    (decode w = .ok (.padCheck p) ↔ (w &&& 0xFFFFFEFF = 0x00000009 ∧ pad)) ∧
    (decode w = .ok .zeroize ↔ w &&& 0xFFFFFFFF = 0x0000000A)

/-- R95: a word is rejected exactly when it matches no row of R94, which is exactly when one of the four listed
defects holds. -/
def Obligations.IllegalWordsAreRejected : Prop :=
  ∀ w : Word,
    let op := w.toNat % 16
    let rsv0 := w.toNat / 16 % 16
    let p := w.toNat / 256 % 2
    let rsv1 := w.toNat / 512 % 128
    let len := w.toNat / 65536
    let rows : List (Word × Word) :=
      [(0x00000001, 0xFFFFFFFF), (0x00000002, 0xFFFFFFFF), (0x00000003, 0xFFFFFFFF), (0x00000004, 0x0000FFFF),
       (0x00000005, 0x0000FFFF), (0x00000006, 0xFFFFFFFF), (0x00000007, 0xFFFFFFFF), (0x00000008, 0x0000FEFF),
       (0x00000009, 0xFFFFFEFF), (0x0000000A, 0xFFFFFFFF)]
    ((∃ r, decode w = .error r) ↔ ∀ row ∈ rows, w &&& row.2 ≠ row.1) ∧
    ((∃ r, decode w = .error r) ↔
      ((op = 0 ∨ 11 ≤ op) ∨ (rsv0 ≠ 0 ∨ rsv1 ≠ 0) ∨ (p = 1 ∧ op ≠ 8 ∧ op ≠ 9) ∨
        (len ≠ 0 ∧ op ≠ 4 ∧ op ≠ 5 ∧ op ≠ 8)))

/-- R99: the worked encodings, in both directions, and the two illegal words. -/
def Obligations.WorkedEncodings : Prop :=
  decode 0x00100004 = .ok (.encUpdate 16) ∧ encode (.encUpdate 16) = 0x00100004 ∧
  decode 0x00050005 = .ok (.decUpdate 5) ∧ encode (.decUpdate 5) = 0x00050005 ∧
  decode 0x00050108 = .ok (.padApply .pkcs 5) ∧ encode (.padApply .pkcs 5) = 0x00050108 ∧
  decode 0x00000109 = .ok (.padCheck .pkcs) ∧ encode (.padCheck .pkcs) = 0x00000109 ∧
  decode 0x00000006 = .ok .encFinal ∧ encode .encFinal = 0x00000006 ∧
  (∃ r, decode 0x00000106 = .error r) ∧ (∃ r, decode 0x00100006 = .error r)

/-! ### The step -/

/-- R96: the engine's step runs the command its word decodes to, with the state as it stands; an illegal word changes
only ERR, OUT_LEN, PAD_LEN, BUSY and DONE. -/
def Obligations.StepRunsTheDecodedCommand : Prop :=
  ∀ (s : State) (w : Word), Due w s →
    (∀ i, decode w = .ok i → step s = exec i s) ∧
    (∀ r, decode w = .error r → ∃ t, step s = .next t ∧ FailedWith .illcmd s t)

/-- R61, R71, R74: while no engine step is due, a step is one cycle of the outside world: nothing, an idle cycle, or
one bus transaction, in arrival order. A running command comes one cycle nearer. The count of cycles is the model's
choice (notes/assumptions/5.md). -/
def Obligations.StepTakesOneHostEvent : Prop :=
  ∀ (s : State) (es : List HostEvent), resetPending s = false → (busy s = true → s.wait ≠ 0) →
    let wait := if busy s = true then s.wait - 1 else s.wait
    (s.host = [] → step s = .next { s with wait := wait }) ∧
    (s.host = .idle :: es → step s = .next { s with wait := wait, host := es }) ∧
    (∀ t, s.host = .txn t :: es → step s = .next (busTxn t { s with wait := wait, host := es }))

/-- R72, R75: no cycle between acceptance and completion changes anything the running command reads or reports. -/
def Obligations.RunningCommandInputsAreFixed : Prop :=
  ∀ (s : State) (w : Word), s.latch = some w → s.wait ≠ 0 → resetPending s = false →
    ∃ t, step s = .next t ∧ SameEngine s t ∧ t.wait = s.wait - 1 ∧ t.host = s.host.tail

/-- R230, R231: a cycle with rst_n low puts every piece of state to its reset value, whatever was running; and the
machine after reset has these values too. The model's choices, not R230's: reset is a one-cycle event that comes before a
due engine step (notes/assumptions/7.md) and leaves the later events in `host` (notes/assumptions/6.md); the parameters
of State.reset are the defaults (notes/assumptions/1.md). -/
def Obligations.ResetSetsEveryField : Prop :=
  let IsReset (t : State) : Prop :=
    controlValue t .id = 0x43534531 ∧
    controlValue t .param = BitVec.ofNat 32 (t.params.dinSize + if t.params.holdback = true then 65536 else 0) ∧
    t.ie = false ∧ busy t = false ∧ t.done = false ∧ t.phase = .idle ∧ rkv t = false ∧ t.err = .ok ∧
    t.mode = 0 ∧ t.pad = .noPadding ∧ t.outLen = 0 ∧ t.padLen = 0 ∧ bufLen t = 0 ∧
    (∀ i : Fin 16, t.key[i] = 0 ∧ t.iv[i] = 0 ∧ t.cv[i] = 0 ∧ bufByte t i.val = 0) ∧ t.buf = [] ∧
    (∀ i, dinByte t i = 0) ∧ (∀ i, doutByte t i = 0) ∧ t.rk = none ∧ t.latch = none ∧ irq t = false
  IsReset State.reset ∧
  ∀ (s : State) (es : List HostEvent), s.host = .reset :: es →
    ∃ t, step s = .next t ∧ IsReset t ∧ t.params = s.params ∧ t.host = es

/-! ### KEYSCHED and ZEROIZE -/

/-- R190, R191: in IDLE, RK becomes the key schedule's result and its failure is E_FATAL; in a stream E_SEQ. Nothing
else changes. -/
def Obligations.KeyschedExpandsTheKey : Prop :=
  decode 0x00000001 = .ok .keysched ∧
  ∀ s : State,
    (s.phase = .idle → ∃ t, exec .keysched s = .next t ∧ t.rk = Config.keySchedule s.key ∧
      ResultIs (if (Config.keySchedule s.key).isSome = true then .ok else .fatal) 0 0 t ∧
      t.key = s.key ∧ SameConfig s t ∧ SameStream s t ∧ SamePort s t ∧ SameMemory s t) ∧
    (s.phase ≠ .idle → ∃ t, exec .keysched s = .next t ∧ FailedWith .seq s t)

/-- R193: ZEROIZE erases KEY, RK, IV, CV, BUF, DIN and DOUT and ends the stream, in every phase; CFG and CTRL keep
their values. -/
def Obligations.ZeroizeErasesEverything : Prop :=
  decode 0x0000000A = .ok .zeroize ∧
  ∀ s : State, ∃ t, exec .zeroize s = .next t ∧ ResultIs .ok 0 0 t ∧ t.key = zero16 ∧ t.rk = none ∧
    t.iv = zero16 ∧ Cleared t ∧ (∀ i, i < s.params.dinSize → dinByte t i = 0) ∧
    (∀ i, i < s.params.dinSize + 16 → doutByte t i = 0) ∧
    t.params = s.params ∧ t.mode = s.mode ∧ t.pad = s.pad ∧ t.ie = s.ie ∧ SamePort s t ∧
    (∀ a, inWindows s.params a = false → readMem t.mem a = readMem s.mem a)

/-! ### Init -/

/-- R141 (R142, R143): with valid round keys and a recognized mode, Init starts a stream in its direction from any
phase; CV is loaded from IV unless MODE is ECB, where it keeps its value, which in IDLE is zero. -/
def Obligations.InitStartsAStream : Prop :=
  ∀ (dir : Direction) (s : State), s.rk.isSome = true → s.mode.toNat ≤ 3 →
    ∃ t, exec (initInstr dir) s = .next t ∧ ResultIs .ok 0 0 t ∧ t.buf = [] ∧ t.phase = streamPhase dir ∧
      (s.mode ≠ 1 → t.cv = s.iv) ∧ (s.mode = 1 → t.cv = s.cv) ∧
      (s.mode = 1 → IdleIsClean s → s.phase = .idle → t.cv = zero16) ∧
      SameConfig s t ∧ SameKeys s t ∧ SamePort s t ∧ SameMemory s t

/-- R140, R203: Init without round keys is E_NOKEY, whatever the mode; with them an unrecognized mode is E_FATAL.
Nothing else changes. -/
def Obligations.InitChecksInOrder : Prop :=
  ∀ (dir : Direction) (s : State),
    (s.rk = none → ∃ t, exec (initInstr dir) s = .next t ∧ FailedWith .nokey s t) ∧
    (s.rk.isSome = true → 4 ≤ s.mode.toNat → ∃ t, exec (initInstr dir) s = .next t ∧ FailedWith .fatal s t)

/-! ### Update -/

/-- R151, R152, R203: the checks of an Update in their order, each failing without any other change. -/
def Obligations.UpdateChecksInOrder : Prop :=
  ∀ (dir : Direction) (n : Nat) (s : State),
    let Fails (code : ErrCode) : Prop := ∃ t, exec (updateInstr dir n) s = .next t ∧ FailedWith code s t
    (s.params.dinSize < n → Fails .arg) ∧
    (n ≤ s.params.dinSize → s.phase ≠ streamPhase dir → Fails .seq) ∧
    (n ≤ s.params.dinSize → s.phase = streamPhase dir → 1 ≤ s.mode.toNat → s.mode.toNat ≤ 3 → Fails .unsup) ∧
    (n ≤ s.params.dinSize → s.phase = streamPhase dir → 4 ≤ s.mode.toNat → Fails .fatal)

/-- R153 steps 1 and 2: an input that leaves less than a block (or, held back, exactly one) is appended to BUF and
nothing is emitted. No key is needed for it. -/
def Obligations.UpdateBuffersShortInput : Prop :=
  ∀ (dir : Direction) (n : Nat) (s : State), n ≤ s.params.dinSize → s.phase = streamPhase dir → s.mode = 0 →
    (s.buf.length + n < 16 ∨
      (s.params.holdback = true ∧ dir = .dec ∧ s.pad = .pkcs ∧ s.buf.length + n = 16)) →
    ∃ t, exec (updateInstr dir n) s = .next t ∧ ResultIs .ok 0 0 t ∧ t.buf = s.buf ++ dinBytes s n ∧
      t.cv = s.cv ∧ t.phase = s.phase ∧ SameConfig s t ∧ SameKeys s t ∧ SamePort s t ∧ SameMemory s t

/-- R155, lengths and buffer: how many bytes an Update emits and which stay buffered, with and without hold-back; it
writes DOUT[0..OUT_LEN) and no other byte. -/
def Obligations.UpdateClosedForm : Prop :=
  ∀ (dir : Direction) (n : Nat) (s : State), EngineInv s → n ≤ s.params.dinSize → s.phase = streamPhase dir → s.mode = 0 →
    let total := s.buf.length + n
    let held : Prop := s.params.holdback = true ∧ dir = .dec ∧ s.pad = .pkcs
    ∃ t out, exec (updateInstr dir n) s = .next t ∧ ResultIs .ok out 0 t ∧
      (¬ held → out = 16 * (total / 16) ∧ t.buf.length = total % 16) ∧
      (held → total ≤ 16 → out = 0 ∧ t.buf.length = total) ∧
      (held → 16 < total →
        out = 16 * ((total - 1) / 16) ∧ t.buf.length = total - out ∧ 1 ≤ t.buf.length ∧ t.buf.length ≤ 16) ∧
      t.buf = (s.buf ++ dinBytes s n).drop out ∧ (out = 0 → t.cv = s.cv) ∧ t.phase = s.phase ∧
      SameConfig s t ∧ SameKeys s t ∧ SamePort s t ∧ SameMemoryBut out s t

/-- R113, R154, R155: the output of an Update is the CFB transform of the first OUT_LEN bytes of BUF ++ DIN[0..LEN),
block by block, and CV ends as the last ciphertext block. `c k` is the chaining variable before block k. -/
def Obligations.UpdateIsTheCfbTransform : Prop :=
  ∀ (dir : Direction) (n : Nat) (s : State) (k : RoundKeys), EngineInv s → s.rk = some k → n ≤ s.params.dinSize →
    s.phase = streamPhase dir → s.mode = 0 →
    ∃ (t : State) (c : Nat → Bytes16), exec (updateInstr dir n) s = .next t ∧ t.err = .ok ∧ c 0 = s.cv ∧
      t.cv = c (t.outLen.toNat / 16) ∧
      ∀ (b : Nat) (j : Fin 16), b < t.outLen.toNat / 16 →
        let inByte := (s.buf ++ dinBytes s n).getD (16 * b + j.val) 0
        let outByte := doutByte t (16 * b + j.val)
        outByte = (Config.blockEncrypt k (c b))[j] ^^^ inByte ∧
        (c (b + 1))[j] = (match dir with | .enc => outByte | .dec => inByte)

/-- R158: no Update reports more than DIN_SIZE bytes. -/
def Obligations.UpdateOutputBound : Prop :=
  ∀ (dir : Direction) (n : Nat) (s t : State), EngineInv s → exec (updateInstr dir n) s = .next t →
    t.outLen.toNat ≤ s.params.dinSize ∧ t.outLen.toNat ≤ t.params.doutSize

/-- R150, R153: chunking does not matter. One Update of n + m bytes and two Updates of n and of m bytes (the second
on any window contents whose DIN starts with the remaining m bytes) leave the same CV and BUF, and their outputs are
the same bytes. -/
def Obligations.UpdateSplitsAnywhere : Prop :=
  ∀ (dir : Direction) (n m : Nat) (s : State), EngineInv s → n + m ≤ s.params.dinSize → s.phase = streamPhase dir →
    s.mode = 0 →
    ∃ t t1, exec (updateInstr dir (n + m)) s = .next t ∧ exec (updateInstr dir n) s = .next t1 ∧
      ∀ mem' : Memory, memWf mem' = true →
        (∀ j, j < m → readMem mem' (dinBase + j) = dinByte s (n + j)) →
        ∃ t2, exec (updateInstr dir m) { t1 with mem := mem' } = .next t2 ∧ t2.cv = t.cv ∧ t2.buf = t.buf ∧
          t.outLen.toNat = t1.outLen.toNat + t2.outLen.toNat ∧
          (∀ j, j < t1.outLen.toNat → doutByte t j = doutByte t1 j) ∧
          (∀ j, j < t2.outLen.toNat → doutByte t (t1.outLen.toNat + j) = doutByte t2 j)

/-! ### Final -/

/-- R170: every Final whose word decodes clears BUF, BUF_LEN and CV and sets PHASE to IDLE, whatever its result, and
keeps IV, KEY, RK, CFG, DIN and the DOUT bytes it does not write; an illegal word with a Final opcode clears nothing. -/
def Obligations.FinalAlwaysClears : Prop :=
  (∀ (dir : Direction) (s t : State), exec (finalInstr dir) s = .next t →
    Cleared t ∧ bufLen t = 0 ∧ SameConfig s t ∧ SameKeys s t ∧ SamePort s t ∧
      SameMemoryBut t.outLen.toNat s t ∧ (t.err ≠ .ok → SameMemory s t)) ∧
  (∀ (s : State) (w : Word) (r : DecodeReject), Due w s → (w.toNat % 16 = 6 ∨ w.toNat % 16 = 7) →
    decode w = .error r → ∃ t, step s = .next t ∧ SameStream s t)

/-- R171, R175, R203: a Final in the wrong phase is E_SEQ; then a reserved mode is E_UNSUP and an unrecognized one
E_FATAL. No output, no DOUT byte written, and the clear. -/
def Obligations.FinalChecksInOrder : Prop :=
  ∀ (dir : Direction) (s : State),
    let Fails (code : ErrCode) : Prop := ∃ t, exec (finalInstr dir) s = .next t ∧ FailedAndCleared code s t
    (s.phase ≠ streamPhase dir → Fails .seq) ∧
    (s.phase = streamPhase dir → 1 ≤ s.mode.toNat → s.mode.toNat ≤ 3 → Fails .unsup) ∧
    (s.phase = streamPhase dir → 4 ≤ s.mode.toNat → Fails .fatal)

/-- R172: a Final under NoPadding emits the buffered bytes XORed with as many keystream bytes, in either direction. -/
def Obligations.FinalNoPadding : Prop :=
  ∀ (dir : Direction) (s : State) (k : RoundKeys), EngineInv s → s.rk = some k → s.phase = streamPhase dir → s.mode = 0 →
    s.pad = .noPadding →
    s.buf.length ≤ 15 ∧
    ∃ t, exec (finalInstr dir) s = .next t ∧ ResultIs .ok s.buf.length 0 t ∧ Cleared t ∧
      (∀ i : Fin 16, i.val < s.buf.length →
        doutByte t i.val = (Config.blockEncrypt k s.cv)[i] ^^^ s.buf.getD i.val 0) ∧
      SameConfig s t ∧ SameKeys s t ∧ SamePort s t ∧ SameMemoryBut s.buf.length s t

/-- R173: ENC_FINAL under PKCS always emits one block, the buffered bytes padded to 16 with the pad length, XORed
with the keystream. -/
def Obligations.EncFinalPkcsEmitsOneBlock : Prop :=
  ∀ (s : State) (k : RoundKeys), EngineInv s → s.rk = some k → s.phase = .enc → s.mode = 0 → s.pad = .pkcs →
    ∃ t, exec .encFinal s = .next t ∧ ResultIs .ok 16 (16 - s.buf.length) t ∧ 1 ≤ t.padLen.toNat ∧ Cleared t ∧
      (∀ i : Fin 16, doutByte t i.val = (Config.blockEncrypt k s.cv)[i] ^^^
        (if i.val < s.buf.length then s.buf.getD i.val 0 else BitVec.ofNat 8 (16 - s.buf.length))) ∧
      SameConfig s t ∧ SameKeys s t ∧ SamePort s t ∧ SameMemoryBut 16 s t

/-- R174: DEC_FINAL under PKCS is E_LEN unless exactly 16 bytes are buffered; then, `pt` being the candidate
plaintext, valid padding of p bytes is stripped and anything else is E_PAD with DOUT not written. -/
def Obligations.DecFinalPkcsStripsOrFails : Prop :=
  ∀ (s : State), s.phase = .dec → s.mode = 0 → s.pad = .pkcs →
    (s.buf.length ≠ 16 → ∃ t, exec .decFinal s = .next t ∧ FailedAndCleared .len s t) ∧
    (∀ (k : RoundKeys) (pt : Bytes16), memWf s.mem = true → s.rk = some k →
      s.buf = (blockXor (Config.blockEncrypt k s.cv) pt).toList →
      (∀ p, PaddedWith pt p → ∃ t, exec .decFinal s = .next t ∧ ResultIs .ok (16 - p) p t ∧ Cleared t ∧
        (∀ i : Fin 16, i.val < 16 - p → doutByte t i.val = pt[i]) ∧
        SameConfig s t ∧ SameKeys s t ∧ SamePort s t ∧ SameMemoryBut (16 - p) s t) ∧
      ((∀ p, ¬ PaddedWith pt p) → ∃ t, exec .decFinal s = .next t ∧ FailedAndCleared .pad s t))

/-- R176, R246: with PKCS_DEC_HOLDBACK = false a DEC_FINAL of a PKCS stream is always E_LEN. -/
def Obligations.PkcsDecFinalNeedsHoldback : Prop :=
  ∀ s : State, EngineInv s → s.params.holdback = false → s.phase = .dec → s.mode = 0 → s.pad = .pkcs →
    ∃ t, exec .decFinal s = .next t ∧ FailedAndCleared .len s t

/-- R113, R114, R155, R172, R179, and property L1-1 of 95_test_vectors.md: under NoPadding a stream of n bytes
(one Update and Final) comes out as n bytes, and decrypting those bytes from the same RK and CV gives the n bytes back, for every cipher. -/
def Obligations.NoPaddingRoundTrip : Prop :=
  let out (u f : State) (i : Nat) : Byte :=
    if i < u.outLen.toNat then doutByte u i else doutByte f (i - u.outLen.toNat)
  ∀ (n : Nat) (s : State), EngineInv s → s.phase = .enc → s.mode = 0 → s.pad = .noPadding → s.buf = [] →
    n ≤ s.params.dinSize →
    ∃ u f, exec (.encUpdate n) s = .next u ∧ exec .encFinal u = .next f ∧
      u.outLen.toNat + f.outLen.toNat = n ∧
      ∀ d : State, EngineInv d → d.phase = .dec → d.mode = 0 → d.pad = .noPadding → d.buf = [] → d.rk = s.rk →
        d.cv = s.cv → n ≤ d.params.dinSize → (∀ i, i < n → dinByte d i = out u f i) →
        ∃ v g, exec (.decUpdate n) d = .next v ∧ exec .decFinal v = .next g ∧
          v.outLen.toNat + g.outLen.toNat = n ∧ ∀ i, i < n → out v g i = dinByte s i

/-- R113, R155, R173, R174, R176, R179: under PKCS with PKCS_DEC_HOLDBACK = true a stream of n bytes comes
out as 16 * (n / 16 + 1) bytes, and decrypting those bytes from the same RK and CV gives the n bytes back and the pad length. -/
def Obligations.PkcsRoundTripWithHoldback : Prop :=
  let out (u f : State) (i : Nat) : Byte :=
    if i < u.outLen.toNat then doutByte u i else doutByte f (i - u.outLen.toNat)
  ∀ (n : Nat) (s : State), EngineInv s → s.phase = .enc → s.mode = 0 → s.pad = .pkcs → s.buf = [] →
    n ≤ s.params.dinSize →
    ∃ u f, exec (.encUpdate n) s = .next u ∧ exec .encFinal u = .next f ∧
      u.outLen.toNat + f.outLen.toNat = 16 * (n / 16 + 1) ∧
      ∀ d : State, EngineInv d → d.params.holdback = true → d.phase = .dec → d.mode = 0 → d.pad = .pkcs → d.buf = [] →
        d.rk = s.rk → d.cv = s.cv → 16 * (n / 16 + 1) ≤ d.params.dinSize →
        (∀ i, i < 16 * (n / 16 + 1) → dinByte d i = out u f i) →
        ∃ v g, exec (.decUpdate (16 * (n / 16 + 1))) d = .next v ∧ exec .decFinal v = .next g ∧ g.err = .ok ∧
          g.padLen.toNat = 16 - n % 16 ∧ v.outLen.toNat + g.outLen.toNat = n ∧
          ∀ i, i < n → out v g i = dinByte s i

/-! ### The padding commands -/

/-- R120, R122, R123: PAD_APPLY in every phase, with or without keys. -/
def Obligations.PadApplyResult : Prop :=
  ∀ (s : State) (n : Nat), memWf s.mem = true →
    let Same (t : State) : Prop := SameConfig s t ∧ SameKeys s t ∧ SameStream s t ∧ SamePort s t
    (n = 0 → ∃ t, exec (.padApply .noPadding n) s = .next t ∧ ResultIs .ok 0 0 t ∧ Same t ∧ SameMemory s t) ∧
    (n ≠ 0 → ∃ t, exec (.padApply .noPadding n) s = .next t ∧ FailedWith .pad s t) ∧
    (n ≤ 15 → ∃ t, exec (.padApply .pkcs n) s = .next t ∧ ResultIs .ok 16 (16 - n) t ∧
      (∀ i, i < n → doutByte t i = dinByte s i) ∧
      (∀ i, n ≤ i → i < 16 → doutByte t i = BitVec.ofNat 8 (16 - n)) ∧ Same t ∧ SameMemoryBut 16 s t) ∧
    (16 ≤ n → ∃ t, exec (.padApply .pkcs n) s = .next t ∧ FailedWith .pad s t)

/-- R121, R125, R126: PAD_CHECK in every phase, with or without keys: under NoPadding all 16 bytes; under PKCS the
block without its padding where that is valid, else E_PAD. -/
def Obligations.PadCheckResult : Prop :=
  ∀ s : State, memWf s.mem = true →
    let Strips (q : Padding) (p : Nat) : Prop :=
      ∃ t, exec (.padCheck q) s = .next t ∧ ResultIs .ok (16 - p) p t ∧
        (∀ i, i < 16 - p → doutByte t i = dinByte s i) ∧
        SameConfig s t ∧ SameKeys s t ∧ SameStream s t ∧ SamePort s t ∧ SameMemoryBut (16 - p) s t
    let Valid (p : Nat) : Prop :=
      0 < p ∧ p ≤ 16 ∧ ∀ i, 16 - p ≤ i → i < 16 → (dinByte s i).toNat = p
    Strips .noPadding 0 ∧
    (∀ p, Valid p → Strips .pkcs p) ∧
    ((∀ p, ¬ Valid p) → ∃ t, exec (.padCheck .pkcs) s = .next t ∧ FailedWith .pad s t)

/-- R120, R121: PAD_CHECK accepts exactly what PAD_APPLY made, and gives the used bytes back. -/
def Obligations.PadCheckUndoesPadApply : Prop :=
  ∀ (s u : State) (n : Nat), n ≤ 15 → memWf s.mem = true → memWf u.mem = true →
    ∃ t, exec (.padApply .pkcs n) s = .next t ∧
      ((∀ i, i < 16 → dinByte u i = doutByte t i) →
        ∃ v, exec (.padCheck .pkcs) u = .next v ∧ ResultIs .ok n (16 - n) v ∧
          ∀ i, i < n → doutByte v i = dinByte s i)

/-! ### All commands -/

/-- R74, R200: every command completes: BUSY = 0 and DONE = 1, whatever it is and in every state of the invariant. -/
def Obligations.EveryCommandCompletes : Prop :=
  ∀ (i : Instr) (s : State), EngineInv s → ∃ t, exec i s = .next t ∧ busy t = false ∧ t.done = true

/-- R204: what a failed command leaves: no output, no DOUT byte, and the context unchanged but for the clear of a Final
and the round keys of a KEYSCHED that failed with E_FATAL. An illegal word (E_ILLCMD) clears nothing. -/
def Obligations.FailedCommandKeepsState : Prop :=
  (∀ (i : Instr) (s t : State), exec i s = .next t → t.err ≠ .ok →
    t.outLen = 0 ∧ t.padLen = 0 ∧ SameMemory s t ∧ SameConfig s t ∧ t.key = s.key ∧ SamePort s t ∧
    (i ≠ .encFinal → i ≠ .decFinal → SameStream s t) ∧
    ((i = .encFinal ∨ i = .decFinal) → Cleared t) ∧
    (¬ (i = .keysched ∧ t.err = .fatal) → t.rk = s.rk) ∧
    ((i = .keysched ∧ t.err = .fatal) → t.rk = none)) ∧
  (∀ (s : State) (w : Word) (r : DecodeReject), Due w s → decode w = .error r →
    ∃ t, step s = .next t ∧ FailedWith .illcmd s t)

/-- R30: PAD_LEN is set by PAD_APPLY, PAD_CHECK and the PKCS Finals, on success; every other command, and every
failure, sets it to 0; it never exceeds 16. -/
def Obligations.PadLenReportsPadding : Prop :=
  ∀ (i : Instr) (s t : State), exec i s = .next t →
    t.padLen.toNat ≤ 16 ∧
    (t.padLen ≠ 0 → t.err = .ok ∧
      ((∃ p n, i = .padApply p n) ∨ (∃ p, i = .padCheck p) ∨ ((i = .encFinal ∨ i = .decFinal) ∧ s.pad = .pkcs)))

/-- R159, R245, R69: no command reads DOUT: with the same DIN and other DOUT contents a command leaves the same state,
bytes it did not write apart. -/
def Obligations.CommandsDoNotReadDout : Prop :=
  ∀ (i : Instr) (s t : State) (m : Memory), memWf s.mem = true → memWf m = true →
    (∀ j, j < s.params.dinSize → readMem m (dinBase + j) = dinByte s j) → exec i s = .next t →
    ∃ u, exec i { s with mem := m } = .next u ∧ { u with mem := t.mem } = t ∧
      (t.err = .ok → ∀ j, j < t.outLen.toNat → doutByte u j = doutByte t j) ∧
      (∀ j, j < s.params.dinSize → dinByte u j = dinByte t j)

/-! ### Invariants and runs -/

/-- R41: the invariant holds after reset, for every value of the parameters. -/
def Obligations.InvariantAtReset : Prop :=
  EngineInv State.reset ∧ ∀ p : Params, EngineInv (State.resetOf p)

/-- R41, R29 to R31: every step, a command's or the outside world's, keeps the invariant. -/
def Obligations.EveryStepKeepsTheInvariant : Prop :=
  ∀ s t : State, EngineInv s → step s = .next t → EngineInv t

/-- R74, R200: in a state of the invariant no step stops the machine. -/
def Obligations.NoStepStops : Prop :=
  ∀ s : State, EngineInv s → ∃ t, step s = .next t

/-- R74: a running command completes: after the cycles of its latency, whatever bus traffic comes meanwhile and
without a reset, BUSY is 0 and DONE is 1. The number of cycles is the model's free value (notes/assumptions/5.md). -/
def Obligations.RunningCommandCompletes : Prop :=
  ∀ (s : State) (w : Word), EngineInv s → s.latch = some w → (∀ e ∈ s.host.take (s.wait + 1), e ≠ .reset) →
    ∃ t, Sys2Proof.core.run (s.wait + 1) s = .next t ∧ busy t = false ∧ t.done = true ∧
      t.host = s.host.drop s.wait

/-- R41 invariant 4, R243: while a stream runs, no step changes CFG, IV, KEY or RK, except one that ends the stream
(ZEROIZE or a reset). -/
def Obligations.StreamParametersAreLocked : Prop :=
  ∀ s t : State, s.phase ≠ .idle → step s = .next t →
    (t.mode = s.mode ∧ t.pad = s.pad ∧ t.iv = s.iv ∧ t.key = s.key ∧ t.rk = s.rk) ∨
    (t.phase = .idle ∧ (resetPending s = true ∨ ∃ w, Due w s ∧ decode w = .ok .zeroize))

/-- R32: RK changes only by KEYSCHED, by ZEROIZE, by a reset, or to invalid by an accepted write to a KEY byte. -/
def Obligations.RoundKeysChangeOnlyByRule : Prop :=
  ∀ s t : State, step s = .next t → t.rk ≠ s.rk →
    (∃ w, Due w s ∧ (decode w = .ok .keysched ∨ decode w = .ok .zeroize)) ∨
    (t.rk = none ∧ resetPending s = true) ∨
    (t.rk = none ∧ s.phase = .idle ∧ busy s = false ∧
      ∃ x es, s.host = .txn x :: es ∧ x.write = true ∧ 0x40 ≤ x.addr.toNat ∧ x.addr.toNat ≤ 0x4F)

/-- R26: PHASE changes only by Init, Final, ZEROIZE and reset, each to its own phase. -/
def Obligations.PhaseChangesOnlyByRule : Prop :=
  ∀ s t : State, step s = .next t → t.phase ≠ s.phase →
    (resetPending s = true ∧ t.phase = .idle) ∨
    ∃ w i, Due w s ∧ decode w = .ok i ∧
      ((i = .encInit ∧ t.phase = .enc) ∨ (i = .decInit ∧ t.phase = .dec) ∨
        ((i = .encFinal ∨ i = .decFinal ∨ i = .zeroize) ∧ t.phase = .idle))

/-! ### The bus -/

/-- R66, R205, R61: exactly the listed transactions are answered SLVERR, and they change no state of the engine; a
read answered SLVERR returns 0. Every other transaction is answered OKAY. -/
def Obligations.IllegalTransactionsHaveNoEffect : Prop :=
  ∀ (s : State) (x : Txn),
    let a := x.addr.toNat
    let control : Prop := a ∈ [0x000, 0x004, 0x008, 0x00C, 0x010, 0x014, 0x018, 0x01C, 0x020]
    let mapped : Prop := control ∨ (0x040 ≤ a ∧ a ≤ 0x07F) ∨
      (0x1000 ≤ a ∧ a < 0x1000 + s.params.dinSize) ∨ (0x2000 ≤ a ∧ a < 0x2000 + s.params.dinSize + 16)
    let illegal : Prop := x.size = .two ∨ (x.size = .four ∧ a % 4 ≠ 0) ∨ (x.size = .one ∧ control) ∨ ¬ mapped ∨
      (x.write = true ∧ busy s = true)
    (illegal → (∃ v, (busTxn x s).answer = some { rdata := v, resp := .slverr } ∧ (x.write = false → v = 0)) ∧
      SameEngine s (busTxn x s) ∧ irq (busTxn x s) = irq s ∧ (busTxn x s).wait = s.wait ∧
      (busTxn x s).host = s.host) ∧
    (¬ illegal → ∃ v, (busTxn x s).answer = some { rdata := v, resp := .okay })

/-- R22 to R31, R67, R201: what the control registers read while no command runs. -/
def Obligations.ControlRegisterReads : Prop :=
  ∀ (s : State) (d : Word), EngineInv s → busy s = false →
    let reads (a : BitVec 14) (v : Nat) : Prop :=
      (busTxn { write := false, addr := a, size := .four, wdata := d } s).answer =
        some { rdata := BitVec.ofNat 32 v, resp := .okay }
    let phase : Nat := match s.phase with | .idle => 0 | .enc => 1 | .dec => 2
    let err : Nat := match s.err with
      | .ok => 0 | .fatal => 1 | .unsup => 2 | .pad => 3 | .len => 4 | .seq => 5 | .nokey => 6 | .arg => 7
      | .illcmd => 8
    reads 0x000 0x43534531 ∧
    reads 0x004 (s.params.dinSize + if s.params.holdback = true then 65536 else 0) ∧
    reads 0x008 (if s.ie = true then 1 else 0) ∧
    reads 0x00C ((if s.done = true then 2 else 0) + 4 * phase + (if s.rk.isSome = true then 16 else 0) + 256 * err) ∧
    reads 0x010 0 ∧
    reads 0x014 (s.mode.toNat + if s.pad = .pkcs then 16 else 0) ∧
    reads 0x018 s.outLen.toNat ∧
    reads 0x01C s.padLen.toNat ∧
    reads 0x020 s.buf.length

/-- R65, R67, R33 to R38: what a byte read returns in each region while no command runs; KEY reads 0 and BUF is masked
beyond BUF_LEN; and a 4-byte read is its four bytes in big-endian lanes. -/
def Obligations.WindowAndContextReads : Prop :=
  ∀ (s : State) (d : Word), busy s = false →
    let byteAt (a : Nat) (v : Byte) : Prop :=
      (busTxn { write := false, addr := BitVec.ofNat 14 a, size := .one, wdata := d } s).answer =
        some { rdata := v.setWidth 32, resp := .okay }
    (∀ i : Fin 16, byteAt (0x040 + i.val) 0 ∧ byteAt (0x050 + i.val) s.iv[i] ∧ byteAt (0x060 + i.val) s.cv[i] ∧
      byteAt (0x070 + i.val) (if i.val < s.buf.length then s.buf.getD i.val 0 else 0)) ∧
    (∀ i, i < s.params.dinSize → byteAt (0x1000 + i) (dinByte s i)) ∧
    (∀ i, i < s.params.dinSize + 16 → byteAt (0x2000 + i) (doutByte s i)) ∧
    (∀ a, a % 4 = 0 → ((0x040 ≤ a ∧ a ≤ 0x07C) ∨ (0x1000 ≤ a ∧ a < 0x1000 + s.params.dinSize) ∨
        (0x2000 ≤ a ∧ a < 0x2000 + s.params.dinSize + 16)) →
      ∃ b0 b1 b2 b3 : Byte, byteAt a b0 ∧ byteAt (a + 1) b1 ∧ byteAt (a + 2) b2 ∧ byteAt (a + 3) b3 ∧
        (busTxn { write := false, addr := BitVec.ofNat 14 a, size := .four, wdata := d } s).answer =
          some { rdata := BitVec.ofNat 32
                  (2 ^ 24 * b0.toNat + 2 ^ 16 * b1.toNat + 2 ^ 8 * b2.toNat + b3.toNat), resp := .okay })

/-- R67: no read has a side effect. -/
def Obligations.ReadsHaveNoSideEffect : Prop :=
  ∀ (s : State) (x : Txn), x.write = false →
    SameEngine s (busTxn x s) ∧ (busTxn x s).wait = s.wait ∧ (busTxn x s).host = s.host ∧
    (busy s = false → (busTxn x (busTxn x s)) = busTxn x s)

/-- R65, R68, R37: a DIN byte or word written while no command runs, in any phase, is stored, and a byte read returns
the byte the lane table places at that address; every other byte and register keeps its value. -/
def Obligations.DinWritesAreReadBack : Prop :=
  ∀ (s : State) (a : Nat) (v d : Word), memWf s.mem = true → busy s = false →
    0x1000 ≤ a → a < 0x1000 + s.params.dinSize →
    let t1 := busTxn { write := true, addr := BitVec.ofNat 14 a, size := .one, wdata := v } s
    let t4 := busTxn { write := true, addr := BitVec.ofNat 14 a, size := .four, wdata := v } s
    let byteRead (t : State) (b : Nat) : Option BusAnswer :=
      (busTxn { write := false, addr := BitVec.ofNat 14 b, size := .one, wdata := d } t).answer
    (byteRead t1 a = some { rdata := v &&& 0xFF, resp := .okay } ∧
      (∀ b, b ≠ a → readMem t1.mem b = readMem s.mem b) ∧ SameEngine s { t1 with mem := s.mem }) ∧
    (a % 4 = 0 →
      byteRead t4 a = some { rdata := v >>> 24, resp := .okay } ∧
      byteRead t4 (a + 1) = some { rdata := (v >>> 16) &&& 0xFF, resp := .okay } ∧
      byteRead t4 (a + 2) = some { rdata := (v >>> 8) &&& 0xFF, resp := .okay } ∧
      byteRead t4 (a + 3) = some { rdata := v &&& 0xFF, resp := .okay } ∧
      (∀ b, b < a ∨ a + 4 ≤ b → readMem t4.mem b = readMem s.mem b) ∧ SameEngine s { t4 with mem := s.mem })

/-- R24, R25, R28, R68, R243: what a write to each control register but CMD does while no command runs. -/
def Obligations.ControlRegisterWrites : Prop :=
  ∀ (s : State) (v : Word), busy s = false →
    let w (a : BitVec 14) : State := busTxn { write := true, addr := a, size := .four, wdata := v } s
    (∀ a ∈ ([0x000, 0x004, 0x008, 0x00C, 0x014, 0x018, 0x01C, 0x020] : List (BitVec 14)),
      ∃ r, (w a).answer = some { rdata := r, resp := .okay }) ∧
    (∀ a ∈ ([0x000, 0x004, 0x018, 0x01C, 0x020] : List (BitVec 14)), SameEngine s (w a)) ∧
    ((w 0x008).ie = v.getLsbD 0 ∧ SameEngine s { w 0x008 with ie := s.ie }) ∧
    ((w 0x00C).done = (s.done && !v.getLsbD 1) ∧ SameEngine s { w 0x00C with done := s.done }) ∧
    (s.phase = .idle → (w 0x014).mode.toNat = v.toNat % 8 ∧
      ((w 0x014).pad = .pkcs ↔ v.getLsbD 4 = true) ∧ SameEngine s { w 0x014 with mode := s.mode, pad := s.pad }) ∧
    (s.phase ≠ .idle → SameEngine s (w 0x014))

/-- R33, R34, R68, R243, R244: KEY and IV writes while no command runs: stored in IDLE, a KEY write setting RK to
invalid; ignored but answered OKAY while a stream runs. A 4-byte write stores big-endian lanes. -/
def Obligations.KeyAndIvWrites : Prop :=
  ∀ (s : State) (i : Fin 16) (v : Word), busy s = false →
    let w (base : Nat) (size : Size) : State :=
      busTxn { write := true, addr := BitVec.ofNat 14 (base + i.val), size := size, wdata := v } s
    let lane (j : Fin 16) (old : Byte) : Byte :=
      if i.val ≤ j.val ∧ j.val < i.val + 4 then (v >>> (24 - 8 * (j.val - i.val))).setWidth 8 else old
    (∃ r, (w 0x040 .one).answer = some { rdata := r, resp := .okay }) ∧
    (∃ r, (w 0x050 .one).answer = some { rdata := r, resp := .okay }) ∧
    (s.phase = .idle →
      ((w 0x040 .one).rk = none ∧ (∀ j : Fin 16, (w 0x040 .one).key[j] = if j = i then v.setWidth 8 else s.key[j]) ∧
        SameEngine s { w 0x040 .one with key := s.key, rk := s.rk }) ∧
      ((∀ j : Fin 16, (w 0x050 .one).iv[j] = if j = i then v.setWidth 8 else s.iv[j]) ∧
        SameEngine s { w 0x050 .one with iv := s.iv }) ∧
      (i.val % 4 = 0 → (w 0x040 .four).rk = none ∧ (∀ j : Fin 16, (w 0x040 .four).key[j] = lane j s.key[j]) ∧
        SameEngine s { w 0x040 .four with key := s.key, rk := s.rk }) ∧
      (i.val % 4 = 0 → (∀ j : Fin 16, (w 0x050 .four).iv[j] = lane j s.iv[j]) ∧
        SameEngine s { w 0x050 .four with iv := s.iv })) ∧
    (s.phase ≠ .idle → ∀ size, SameEngine s (w 0x040 size) ∧ SameEngine s (w 0x050 size))

/-- R35, R36, R38, R68: writes to CV, BUF and DOUT are ignored and answered OKAY. -/
def Obligations.ReadOnlyRegionsIgnoreWrites : Prop :=
  ∀ (s : State) (x : Txn), x.write = true → busy s = false →
    (x.size = .one ∨ (x.size = .four ∧ x.addr.toNat % 4 = 0)) →
    ((0x060 ≤ x.addr.toNat ∧ x.addr.toNat ≤ 0x07F) ∨
      (0x2000 ≤ x.addr.toNat ∧ x.addr.toNat < 0x2000 + s.params.dinSize + 16)) →
    (∃ r, (busTxn x s).answer = some { rdata := r, resp := .okay }) ∧ SameEngine s (busTxn x s)

/-- R27, R74: a 4-byte write to CMD while no command runs latches the word: BUSY = 1, DONE = 0, nothing else changes. -/
def Obligations.CommandAcceptance : Prop :=
  ∀ (s : State) (w : Word), busy s = false →
    let t := busTxn { write := true, addr := 0x010, size := .four, wdata := w } s
    (∃ r, t.answer = some { rdata := r, resp := .okay }) ∧ t.latch = some w ∧ busy t = true ∧ t.done = false ∧
    SameEngine s { t with latch := s.latch, done := s.done }

/-- R75: while a command runs, a write is answered SLVERR without effect; ID, PARAM, CTRL and STATUS read their
current values; every other legal read is answered OKAY, with any value. -/
def Obligations.BusyRefusesWrites : Prop :=
  ∀ (s : State) (x : Txn), busy s = true →
    (x.write = true → (∃ r, (busTxn x s).answer = some { rdata := r, resp := .slverr }) ∧ SameEngine s (busTxn x s)) ∧
    (x.write = false → x.size = .four →
      (x.addr = 0x000 → (busTxn x s).answer = some { rdata := 0x43534531, resp := .okay }) ∧
      (x.addr = 0x004 → (busTxn x s).answer = some { rdata := controlValue s .param, resp := .okay }) ∧
      (x.addr = 0x008 → (busTxn x s).answer = some { rdata := controlValue s .ctrl, resp := .okay }) ∧
      (x.addr = 0x00C → (busTxn x s).answer = some { rdata := statusWord s, resp := .okay } ∧
        (statusWord s).getLsbD 0 = true)) ∧
    (x.write = false → accepted s x = true → ∃ r, (busTxn x s).answer = some { rdata := r, resp := .okay })

/-- R33, R32, R220: KEY and RK cannot be read: two engines that differ only in KEY and RK, with the same RKV, answer
every transaction alike. -/
def Obligations.KeysAreNotReadable : Prop :=
  ∀ (s : State) (k : Bytes16) (r : Option RoundKeys) (x : Txn), r.isSome = s.rk.isSome →
    (busTxn x { s with key := k, rk := r }).answer = (busTxn x s).answer

/-- R210, R211: irq is IE and DONE. Every completion sets DONE, so it raises irq exactly when IE is 1; writing 1 to
DONE, or the next command, clears it; IE masks it and leaves DONE; setting IE while DONE is 1 raises it at once. -/
def Obligations.InterruptFollowsDone : Prop :=
  (∀ s : State, irq s = (s.ie && s.done)) ∧
  (∀ (i : Instr) (s t : State), exec i s = .next t → t.done = true ∧ irq t = t.ie) ∧
  (∀ (s t : State) (w : Word) (r : DecodeReject), Due w s → decode w = .error r → step s = .next t →
    t.done = true ∧ irq t = t.ie) ∧
  (∀ s : State, (statusWord s).getLsbD 1 = s.done) ∧
  (∀ (s : State) (v : Word), busy s = false →
    let w (a : BitVec 14) : State := busTxn { write := true, addr := a, size := .four, wdata := v } s
    (v.getLsbD 1 = true → (w 0x00C).done = false ∧ irq (w 0x00C) = false) ∧
    ((w 0x010).done = false ∧ irq (w 0x010) = false) ∧
    (v.getLsbD 0 = true → s.done = true → irq (w 0x008) = true) ∧
    (v.getLsbD 0 = false → (w 0x008).done = s.done ∧ irq (w 0x008) = false))
end

