-- ==== Sys2Proof/Laws/Encoding.lean ====
section
/-! SUPPORT. The fields of a command word as numbers (R91, R92), and the word as a number of its fields. -/

namespace Sys2Proof

theorem fieldOp_toNat (w : Word) : (fieldOp w).toNat = w.toNat % 16 := by
  simp [fieldOp]

theorem fieldRsv0_toNat (w : Word) : (fieldRsv0 w).toNat = w.toNat / 16 % 16 := by
  simp [fieldRsv0, Nat.shiftRight_eq_div_pow]

theorem fieldRsv1_toNat (w : Word) : (fieldRsv1 w).toNat = w.toNat / 512 % 128 := by
  simp [fieldRsv1, Nat.shiftRight_eq_div_pow]

theorem fieldLen_eq (w : Word) : fieldLen w = w.toNat / 65536 := by
  have := w.isLt
  simp only [fieldLen, BitVec.extractLsb'_toNat, Nat.shiftRight_eq_div_pow]
  omega

theorem fieldP_eq (w : Word) : fieldP w = decide (w.toNat / 256 % 2 = 1) := by
  simp only [fieldP, BitVec.getLsbD, Nat.testBit_eq_decide_div_mod_eq]

theorem toNat_append_eq {m n : Nat} (x : BitVec m) (y : BitVec n) :
    (x ++ y).toNat = 2 ^ n * x.toNat + y.toNat := by
  rw [BitVec.toNat_append, ← Nat.shiftLeft_add_eq_or_of_lt y.isLt, Nat.shiftLeft_eq, Nat.mul_comm]

theorem cmdWord_toNat (op : BitVec 4) (p : Bool) {n : Nat} (hn : n < 65536) :
    (cmdWord op p n).toNat = 65536 * n + 256 * p.toNat + op.toNat := by
  simp only [cmdWord, toNat_append_eq, BitVec.toNat_ofNat, BitVec.toNat_ofBool]
  omega

@[simp] theorem paddingOfBit_paddingBit (p : Padding) : paddingOfBit (paddingBit p) = p := by cases p <;> rfl

@[simp] theorem paddingBit_paddingOfBit (b : Bool) : paddingBit (paddingOfBit b) = b := by cases b <;> rfl

/-- The fields of an assembled word are the fields it was assembled from (R91). -/
theorem cmdWord_fields (op : BitVec 4) (p : Bool) {n : Nat} (hn : n < 65536) :
    fieldOp (cmdWord op p n) = op ∧ fieldRsv0 (cmdWord op p n) = 0 ∧ fieldP (cmdWord op p n) = p ∧
      fieldRsv1 (cmdWord op p n) = 0 ∧ fieldLen (cmdWord op p n) = n := by
  have h := cmdWord_toNat op p hn
  have ho := op.isLt
  have hp := Bool.toNat_lt p
  refine ⟨?_, ?_, ?_, ?_, ?_⟩
  · apply BitVec.eq_of_toNat_eq; rw [fieldOp_toNat, h]; omega
  · apply BitVec.eq_of_toNat_eq; rw [fieldRsv0_toNat, h]; simp; omega
  · rw [fieldP_eq, h]; cases p <;> simp <;> omega
  · apply BitVec.eq_of_toNat_eq; rw [fieldRsv1_toNat, h]; simp; omega
  · rw [fieldLen_eq, h]; omega

/-- The decoder over the word as a number: reserved fields first, then OP (R93, R95). -/
theorem decode_eq (w : Word) : decode w =
    if w.toNat / 16 % 16 ≠ 0 ∨ w.toNat / 512 % 128 ≠ 0 then .error .reservedBits
    else match w.toNat % 16 with
      | 1 => decodeBare .keysched w
      | 2 => decodeBare .encInit w
      | 3 => decodeBare .decInit w
      | 4 => decodeLen .encUpdate w
      | 5 => decodeLen .decUpdate w
      | 6 => decodeBare .encFinal w
      | 7 => decodeBare .decFinal w
      | 8 => .ok (.padApply (paddingOfBit (fieldP w)) (fieldLen w))
      | 9 => decodePad .padCheck w
      | 10 => decodeBare .zeroize w
      | _ => .error .illegalOp := by
  have e1 : (fieldRsv0 w ≠ 0) = (w.toNat / 16 % 16 ≠ 0) := by
    rw [← fieldRsv0_toNat]; simp [BitVec.toNat_eq]
  have e2 : (fieldRsv1 w ≠ 0) = (w.toNat / 512 % 128 ≠ 0) := by
    rw [← fieldRsv1_toNat]; simp [BitVec.toNat_eq]
  unfold decode
  simp only [e1, e2, fieldOp_toNat] <;> rfl

end Sys2Proof
end

