-- ==== Sys2Proof/Laws/State.lean ====
section
/-! SUPPORT. One lemma per field of State per named update, so that no later proof unfolds a record update. -/

namespace Sys2Proof.Machine

@[simp] theorem completeWith_params (e : ErrCode) (o p : Nat) (s : State) : (completeWith e o p s).params = s.params := rfl
@[simp] theorem completeWith_ie (e : ErrCode) (o p : Nat) (s : State) : (completeWith e o p s).ie = s.ie := rfl
@[simp] theorem completeWith_done (e : ErrCode) (o p : Nat) (s : State) : (completeWith e o p s).done = true := rfl
@[simp] theorem completeWith_phase (e : ErrCode) (o p : Nat) (s : State) : (completeWith e o p s).phase = s.phase := rfl
@[simp] theorem completeWith_err (e : ErrCode) (o p : Nat) (s : State) : (completeWith e o p s).err = e := rfl
@[simp] theorem completeWith_mode (e : ErrCode) (o p : Nat) (s : State) : (completeWith e o p s).mode = s.mode := rfl
@[simp] theorem completeWith_pad (e : ErrCode) (o p : Nat) (s : State) : (completeWith e o p s).pad = s.pad := rfl
@[simp] theorem completeWith_outLen (e : ErrCode) (o p : Nat) (s : State) : (completeWith e o p s).outLen = BitVec.ofNat 16 o := rfl
@[simp] theorem completeWith_padLen (e : ErrCode) (o p : Nat) (s : State) : (completeWith e o p s).padLen = BitVec.ofNat 5 p := rfl
@[simp] theorem completeWith_key (e : ErrCode) (o p : Nat) (s : State) : (completeWith e o p s).key = s.key := rfl
@[simp] theorem completeWith_iv (e : ErrCode) (o p : Nat) (s : State) : (completeWith e o p s).iv = s.iv := rfl
@[simp] theorem completeWith_cv (e : ErrCode) (o p : Nat) (s : State) : (completeWith e o p s).cv = s.cv := rfl
@[simp] theorem completeWith_buf (e : ErrCode) (o p : Nat) (s : State) : (completeWith e o p s).buf = s.buf := rfl
@[simp] theorem completeWith_rk (e : ErrCode) (o p : Nat) (s : State) : (completeWith e o p s).rk = s.rk := rfl
@[simp] theorem completeWith_latch (e : ErrCode) (o p : Nat) (s : State) : (completeWith e o p s).latch = none := rfl
@[simp] theorem completeWith_mem (e : ErrCode) (o p : Nat) (s : State) : (completeWith e o p s).mem = s.mem := rfl
@[simp] theorem completeWith_wait (e : ErrCode) (o p : Nat) (s : State) : (completeWith e o p s).wait = s.wait := rfl
@[simp] theorem completeWith_draws (e : ErrCode) (o p : Nat) (s : State) : (completeWith e o p s).draws = s.draws := rfl
@[simp] theorem completeWith_host (e : ErrCode) (o p : Nat) (s : State) : (completeWith e o p s).host = s.host := rfl
@[simp] theorem completeWith_answer (e : ErrCode) (o p : Nat) (s : State) : (completeWith e o p s).answer = s.answer := rfl

@[simp] theorem writeDout_params (out : List Byte) (s : State) : (writeDout out s).params = s.params := rfl
@[simp] theorem writeDout_ie (out : List Byte) (s : State) : (writeDout out s).ie = s.ie := rfl
@[simp] theorem writeDout_done (out : List Byte) (s : State) : (writeDout out s).done = s.done := rfl
@[simp] theorem writeDout_phase (out : List Byte) (s : State) : (writeDout out s).phase = s.phase := rfl
@[simp] theorem writeDout_err (out : List Byte) (s : State) : (writeDout out s).err = s.err := rfl
@[simp] theorem writeDout_mode (out : List Byte) (s : State) : (writeDout out s).mode = s.mode := rfl
@[simp] theorem writeDout_pad (out : List Byte) (s : State) : (writeDout out s).pad = s.pad := rfl
@[simp] theorem writeDout_outLen (out : List Byte) (s : State) : (writeDout out s).outLen = s.outLen := rfl
@[simp] theorem writeDout_padLen (out : List Byte) (s : State) : (writeDout out s).padLen = s.padLen := rfl
@[simp] theorem writeDout_key (out : List Byte) (s : State) : (writeDout out s).key = s.key := rfl
@[simp] theorem writeDout_iv (out : List Byte) (s : State) : (writeDout out s).iv = s.iv := rfl
@[simp] theorem writeDout_cv (out : List Byte) (s : State) : (writeDout out s).cv = s.cv := rfl
@[simp] theorem writeDout_buf (out : List Byte) (s : State) : (writeDout out s).buf = s.buf := rfl
@[simp] theorem writeDout_rk (out : List Byte) (s : State) : (writeDout out s).rk = s.rk := rfl
@[simp] theorem writeDout_latch (out : List Byte) (s : State) : (writeDout out s).latch = s.latch := rfl
@[simp] theorem writeDout_mem (out : List Byte) (s : State) : (writeDout out s).mem = writeMems s.mem doutBase out := rfl
@[simp] theorem writeDout_wait (out : List Byte) (s : State) : (writeDout out s).wait = s.wait := rfl
@[simp] theorem writeDout_draws (out : List Byte) (s : State) : (writeDout out s).draws = s.draws := rfl
@[simp] theorem writeDout_host (out : List Byte) (s : State) : (writeDout out s).host = s.host := rfl
@[simp] theorem writeDout_answer (out : List Byte) (s : State) : (writeDout out s).answer = s.answer := rfl

@[simp] theorem setStream_params (c : Bytes16) (b : List Byte) (s : State) : (setStream c b s).params = s.params := rfl
@[simp] theorem setStream_ie (c : Bytes16) (b : List Byte) (s : State) : (setStream c b s).ie = s.ie := rfl
@[simp] theorem setStream_done (c : Bytes16) (b : List Byte) (s : State) : (setStream c b s).done = s.done := rfl
@[simp] theorem setStream_phase (c : Bytes16) (b : List Byte) (s : State) : (setStream c b s).phase = s.phase := rfl
@[simp] theorem setStream_err (c : Bytes16) (b : List Byte) (s : State) : (setStream c b s).err = s.err := rfl
@[simp] theorem setStream_mode (c : Bytes16) (b : List Byte) (s : State) : (setStream c b s).mode = s.mode := rfl
@[simp] theorem setStream_pad (c : Bytes16) (b : List Byte) (s : State) : (setStream c b s).pad = s.pad := rfl
@[simp] theorem setStream_outLen (c : Bytes16) (b : List Byte) (s : State) : (setStream c b s).outLen = s.outLen := rfl
@[simp] theorem setStream_padLen (c : Bytes16) (b : List Byte) (s : State) : (setStream c b s).padLen = s.padLen := rfl
@[simp] theorem setStream_key (c : Bytes16) (b : List Byte) (s : State) : (setStream c b s).key = s.key := rfl
@[simp] theorem setStream_iv (c : Bytes16) (b : List Byte) (s : State) : (setStream c b s).iv = s.iv := rfl
@[simp] theorem setStream_cv (c : Bytes16) (b : List Byte) (s : State) : (setStream c b s).cv = c := rfl
@[simp] theorem setStream_buf (c : Bytes16) (b : List Byte) (s : State) : (setStream c b s).buf = b := rfl
@[simp] theorem setStream_rk (c : Bytes16) (b : List Byte) (s : State) : (setStream c b s).rk = s.rk := rfl
@[simp] theorem setStream_latch (c : Bytes16) (b : List Byte) (s : State) : (setStream c b s).latch = s.latch := rfl
@[simp] theorem setStream_mem (c : Bytes16) (b : List Byte) (s : State) : (setStream c b s).mem = s.mem := rfl
@[simp] theorem setStream_wait (c : Bytes16) (b : List Byte) (s : State) : (setStream c b s).wait = s.wait := rfl
@[simp] theorem setStream_draws (c : Bytes16) (b : List Byte) (s : State) : (setStream c b s).draws = s.draws := rfl
@[simp] theorem setStream_host (c : Bytes16) (b : List Byte) (s : State) : (setStream c b s).host = s.host := rfl
@[simp] theorem setStream_answer (c : Bytes16) (b : List Byte) (s : State) : (setStream c b s).answer = s.answer := rfl

@[simp] theorem setPhase_params (p : Phase) (s : State) : (setPhase p s).params = s.params := rfl
@[simp] theorem setPhase_ie (p : Phase) (s : State) : (setPhase p s).ie = s.ie := rfl
@[simp] theorem setPhase_done (p : Phase) (s : State) : (setPhase p s).done = s.done := rfl
@[simp] theorem setPhase_phase (p : Phase) (s : State) : (setPhase p s).phase = p := rfl
@[simp] theorem setPhase_err (p : Phase) (s : State) : (setPhase p s).err = s.err := rfl
@[simp] theorem setPhase_mode (p : Phase) (s : State) : (setPhase p s).mode = s.mode := rfl
@[simp] theorem setPhase_pad (p : Phase) (s : State) : (setPhase p s).pad = s.pad := rfl
@[simp] theorem setPhase_outLen (p : Phase) (s : State) : (setPhase p s).outLen = s.outLen := rfl
@[simp] theorem setPhase_padLen (p : Phase) (s : State) : (setPhase p s).padLen = s.padLen := rfl
@[simp] theorem setPhase_key (p : Phase) (s : State) : (setPhase p s).key = s.key := rfl
@[simp] theorem setPhase_iv (p : Phase) (s : State) : (setPhase p s).iv = s.iv := rfl
@[simp] theorem setPhase_cv (p : Phase) (s : State) : (setPhase p s).cv = s.cv := rfl
@[simp] theorem setPhase_buf (p : Phase) (s : State) : (setPhase p s).buf = s.buf := rfl
@[simp] theorem setPhase_rk (p : Phase) (s : State) : (setPhase p s).rk = s.rk := rfl
@[simp] theorem setPhase_latch (p : Phase) (s : State) : (setPhase p s).latch = s.latch := rfl
@[simp] theorem setPhase_mem (p : Phase) (s : State) : (setPhase p s).mem = s.mem := rfl
@[simp] theorem setPhase_wait (p : Phase) (s : State) : (setPhase p s).wait = s.wait := rfl
@[simp] theorem setPhase_draws (p : Phase) (s : State) : (setPhase p s).draws = s.draws := rfl
@[simp] theorem setPhase_host (p : Phase) (s : State) : (setPhase p s).host = s.host := rfl
@[simp] theorem setPhase_answer (p : Phase) (s : State) : (setPhase p s).answer = s.answer := rfl

@[simp] theorem setRk_params (r : Option RoundKeys) (s : State) : (setRk r s).params = s.params := rfl
@[simp] theorem setRk_ie (r : Option RoundKeys) (s : State) : (setRk r s).ie = s.ie := rfl
@[simp] theorem setRk_done (r : Option RoundKeys) (s : State) : (setRk r s).done = s.done := rfl
@[simp] theorem setRk_phase (r : Option RoundKeys) (s : State) : (setRk r s).phase = s.phase := rfl
@[simp] theorem setRk_err (r : Option RoundKeys) (s : State) : (setRk r s).err = s.err := rfl
@[simp] theorem setRk_mode (r : Option RoundKeys) (s : State) : (setRk r s).mode = s.mode := rfl
@[simp] theorem setRk_pad (r : Option RoundKeys) (s : State) : (setRk r s).pad = s.pad := rfl
@[simp] theorem setRk_outLen (r : Option RoundKeys) (s : State) : (setRk r s).outLen = s.outLen := rfl
@[simp] theorem setRk_padLen (r : Option RoundKeys) (s : State) : (setRk r s).padLen = s.padLen := rfl
@[simp] theorem setRk_key (r : Option RoundKeys) (s : State) : (setRk r s).key = s.key := rfl
@[simp] theorem setRk_iv (r : Option RoundKeys) (s : State) : (setRk r s).iv = s.iv := rfl
@[simp] theorem setRk_cv (r : Option RoundKeys) (s : State) : (setRk r s).cv = s.cv := rfl
@[simp] theorem setRk_buf (r : Option RoundKeys) (s : State) : (setRk r s).buf = s.buf := rfl
@[simp] theorem setRk_rk (r : Option RoundKeys) (s : State) : (setRk r s).rk = r := rfl
@[simp] theorem setRk_latch (r : Option RoundKeys) (s : State) : (setRk r s).latch = s.latch := rfl
@[simp] theorem setRk_mem (r : Option RoundKeys) (s : State) : (setRk r s).mem = s.mem := rfl
@[simp] theorem setRk_wait (r : Option RoundKeys) (s : State) : (setRk r s).wait = s.wait := rfl
@[simp] theorem setRk_draws (r : Option RoundKeys) (s : State) : (setRk r s).draws = s.draws := rfl
@[simp] theorem setRk_host (r : Option RoundKeys) (s : State) : (setRk r s).host = s.host := rfl
@[simp] theorem setRk_answer (r : Option RoundKeys) (s : State) : (setRk r s).answer = s.answer := rfl

@[simp] theorem clearStream_params (s : State) : (clearStream s).params = s.params := rfl
@[simp] theorem clearStream_ie (s : State) : (clearStream s).ie = s.ie := rfl
@[simp] theorem clearStream_done (s : State) : (clearStream s).done = s.done := rfl
@[simp] theorem clearStream_phase (s : State) : (clearStream s).phase = .idle := rfl
@[simp] theorem clearStream_err (s : State) : (clearStream s).err = s.err := rfl
@[simp] theorem clearStream_mode (s : State) : (clearStream s).mode = s.mode := rfl
@[simp] theorem clearStream_pad (s : State) : (clearStream s).pad = s.pad := rfl
@[simp] theorem clearStream_outLen (s : State) : (clearStream s).outLen = s.outLen := rfl
@[simp] theorem clearStream_padLen (s : State) : (clearStream s).padLen = s.padLen := rfl
@[simp] theorem clearStream_key (s : State) : (clearStream s).key = s.key := rfl
@[simp] theorem clearStream_iv (s : State) : (clearStream s).iv = s.iv := rfl
@[simp] theorem clearStream_cv (s : State) : (clearStream s).cv = zero16 := rfl
@[simp] theorem clearStream_buf (s : State) : (clearStream s).buf = [] := rfl
@[simp] theorem clearStream_rk (s : State) : (clearStream s).rk = s.rk := rfl
@[simp] theorem clearStream_latch (s : State) : (clearStream s).latch = s.latch := rfl
@[simp] theorem clearStream_mem (s : State) : (clearStream s).mem = s.mem := rfl
@[simp] theorem clearStream_wait (s : State) : (clearStream s).wait = s.wait := rfl
@[simp] theorem clearStream_draws (s : State) : (clearStream s).draws = s.draws := rfl
@[simp] theorem clearStream_host (s : State) : (clearStream s).host = s.host := rfl
@[simp] theorem clearStream_answer (s : State) : (clearStream s).answer = s.answer := rfl

@[simp] theorem acceptCommand_params (w : Word) (s : State) : (acceptCommand w s).params = s.params := rfl
@[simp] theorem acceptCommand_ie (w : Word) (s : State) : (acceptCommand w s).ie = s.ie := rfl
@[simp] theorem acceptCommand_done (w : Word) (s : State) : (acceptCommand w s).done = false := rfl
@[simp] theorem acceptCommand_phase (w : Word) (s : State) : (acceptCommand w s).phase = s.phase := rfl
@[simp] theorem acceptCommand_err (w : Word) (s : State) : (acceptCommand w s).err = s.err := rfl
@[simp] theorem acceptCommand_mode (w : Word) (s : State) : (acceptCommand w s).mode = s.mode := rfl
@[simp] theorem acceptCommand_pad (w : Word) (s : State) : (acceptCommand w s).pad = s.pad := rfl
@[simp] theorem acceptCommand_outLen (w : Word) (s : State) : (acceptCommand w s).outLen = s.outLen := rfl
@[simp] theorem acceptCommand_padLen (w : Word) (s : State) : (acceptCommand w s).padLen = s.padLen := rfl
@[simp] theorem acceptCommand_key (w : Word) (s : State) : (acceptCommand w s).key = s.key := rfl
@[simp] theorem acceptCommand_iv (w : Word) (s : State) : (acceptCommand w s).iv = s.iv := rfl
@[simp] theorem acceptCommand_cv (w : Word) (s : State) : (acceptCommand w s).cv = s.cv := rfl
@[simp] theorem acceptCommand_buf (w : Word) (s : State) : (acceptCommand w s).buf = s.buf := rfl
@[simp] theorem acceptCommand_rk (w : Word) (s : State) : (acceptCommand w s).rk = s.rk := rfl
@[simp] theorem acceptCommand_latch (w : Word) (s : State) : (acceptCommand w s).latch = some w := rfl
@[simp] theorem acceptCommand_mem (w : Word) (s : State) : (acceptCommand w s).mem = s.mem := rfl
@[simp] theorem acceptCommand_wait (w : Word) (s : State) : (acceptCommand w s).wait = Config.extraLatency s.draws := rfl
@[simp] theorem acceptCommand_draws (w : Word) (s : State) : (acceptCommand w s).draws = s.draws + 1 := rfl
@[simp] theorem acceptCommand_host (w : Word) (s : State) : (acceptCommand w s).host = s.host := rfl
@[simp] theorem acceptCommand_answer (w : Word) (s : State) : (acceptCommand w s).answer = s.answer := rfl

@[simp] theorem latchNow_params (w : Word) (s : State) : (latchNow w s).params = s.params := rfl
@[simp] theorem latchNow_ie (w : Word) (s : State) : (latchNow w s).ie = s.ie := rfl
@[simp] theorem latchNow_done (w : Word) (s : State) : (latchNow w s).done = s.done := rfl
@[simp] theorem latchNow_phase (w : Word) (s : State) : (latchNow w s).phase = s.phase := rfl
@[simp] theorem latchNow_err (w : Word) (s : State) : (latchNow w s).err = s.err := rfl
@[simp] theorem latchNow_mode (w : Word) (s : State) : (latchNow w s).mode = s.mode := rfl
@[simp] theorem latchNow_pad (w : Word) (s : State) : (latchNow w s).pad = s.pad := rfl
@[simp] theorem latchNow_outLen (w : Word) (s : State) : (latchNow w s).outLen = s.outLen := rfl
@[simp] theorem latchNow_padLen (w : Word) (s : State) : (latchNow w s).padLen = s.padLen := rfl
@[simp] theorem latchNow_key (w : Word) (s : State) : (latchNow w s).key = s.key := rfl
@[simp] theorem latchNow_iv (w : Word) (s : State) : (latchNow w s).iv = s.iv := rfl
@[simp] theorem latchNow_cv (w : Word) (s : State) : (latchNow w s).cv = s.cv := rfl
@[simp] theorem latchNow_buf (w : Word) (s : State) : (latchNow w s).buf = s.buf := rfl
@[simp] theorem latchNow_rk (w : Word) (s : State) : (latchNow w s).rk = s.rk := rfl
@[simp] theorem latchNow_latch (w : Word) (s : State) : (latchNow w s).latch = some w := rfl
@[simp] theorem latchNow_mem (w : Word) (s : State) : (latchNow w s).mem = s.mem := rfl
@[simp] theorem latchNow_wait (w : Word) (s : State) : (latchNow w s).wait = 0 := rfl
@[simp] theorem latchNow_draws (w : Word) (s : State) : (latchNow w s).draws = s.draws := rfl
@[simp] theorem latchNow_host (w : Word) (s : State) : (latchNow w s).host = s.host := rfl
@[simp] theorem latchNow_answer (w : Word) (s : State) : (latchNow w s).answer = s.answer := rfl

@[simp] theorem nextDraw_params (s : State) : (nextDraw s).params = s.params := rfl
@[simp] theorem nextDraw_ie (s : State) : (nextDraw s).ie = s.ie := rfl
@[simp] theorem nextDraw_done (s : State) : (nextDraw s).done = s.done := rfl
@[simp] theorem nextDraw_phase (s : State) : (nextDraw s).phase = s.phase := rfl
@[simp] theorem nextDraw_err (s : State) : (nextDraw s).err = s.err := rfl
@[simp] theorem nextDraw_mode (s : State) : (nextDraw s).mode = s.mode := rfl
@[simp] theorem nextDraw_pad (s : State) : (nextDraw s).pad = s.pad := rfl
@[simp] theorem nextDraw_outLen (s : State) : (nextDraw s).outLen = s.outLen := rfl
@[simp] theorem nextDraw_padLen (s : State) : (nextDraw s).padLen = s.padLen := rfl
@[simp] theorem nextDraw_key (s : State) : (nextDraw s).key = s.key := rfl
@[simp] theorem nextDraw_iv (s : State) : (nextDraw s).iv = s.iv := rfl
@[simp] theorem nextDraw_cv (s : State) : (nextDraw s).cv = s.cv := rfl
@[simp] theorem nextDraw_buf (s : State) : (nextDraw s).buf = s.buf := rfl
@[simp] theorem nextDraw_rk (s : State) : (nextDraw s).rk = s.rk := rfl
@[simp] theorem nextDraw_latch (s : State) : (nextDraw s).latch = s.latch := rfl
@[simp] theorem nextDraw_mem (s : State) : (nextDraw s).mem = s.mem := rfl
@[simp] theorem nextDraw_wait (s : State) : (nextDraw s).wait = s.wait := rfl
@[simp] theorem nextDraw_draws (s : State) : (nextDraw s).draws = s.draws + 1 := rfl
@[simp] theorem nextDraw_host (s : State) : (nextDraw s).host = s.host := rfl
@[simp] theorem nextDraw_answer (s : State) : (nextDraw s).answer = s.answer := rfl

@[simp] theorem answerWith_params (a : BusAnswer) (s : State) : (answerWith a s).params = s.params := rfl
@[simp] theorem answerWith_ie (a : BusAnswer) (s : State) : (answerWith a s).ie = s.ie := rfl
@[simp] theorem answerWith_done (a : BusAnswer) (s : State) : (answerWith a s).done = s.done := rfl
@[simp] theorem answerWith_phase (a : BusAnswer) (s : State) : (answerWith a s).phase = s.phase := rfl
@[simp] theorem answerWith_err (a : BusAnswer) (s : State) : (answerWith a s).err = s.err := rfl
@[simp] theorem answerWith_mode (a : BusAnswer) (s : State) : (answerWith a s).mode = s.mode := rfl
@[simp] theorem answerWith_pad (a : BusAnswer) (s : State) : (answerWith a s).pad = s.pad := rfl
@[simp] theorem answerWith_outLen (a : BusAnswer) (s : State) : (answerWith a s).outLen = s.outLen := rfl
@[simp] theorem answerWith_padLen (a : BusAnswer) (s : State) : (answerWith a s).padLen = s.padLen := rfl
@[simp] theorem answerWith_key (a : BusAnswer) (s : State) : (answerWith a s).key = s.key := rfl
@[simp] theorem answerWith_iv (a : BusAnswer) (s : State) : (answerWith a s).iv = s.iv := rfl
@[simp] theorem answerWith_cv (a : BusAnswer) (s : State) : (answerWith a s).cv = s.cv := rfl
@[simp] theorem answerWith_buf (a : BusAnswer) (s : State) : (answerWith a s).buf = s.buf := rfl
@[simp] theorem answerWith_rk (a : BusAnswer) (s : State) : (answerWith a s).rk = s.rk := rfl
@[simp] theorem answerWith_latch (a : BusAnswer) (s : State) : (answerWith a s).latch = s.latch := rfl
@[simp] theorem answerWith_mem (a : BusAnswer) (s : State) : (answerWith a s).mem = s.mem := rfl
@[simp] theorem answerWith_wait (a : BusAnswer) (s : State) : (answerWith a s).wait = s.wait := rfl
@[simp] theorem answerWith_draws (a : BusAnswer) (s : State) : (answerWith a s).draws = s.draws := rfl
@[simp] theorem answerWith_host (a : BusAnswer) (s : State) : (answerWith a s).host = s.host := rfl
@[simp] theorem answerWith_answer (a : BusAnswer) (s : State) : (answerWith a s).answer = some a := rfl

@[simp] theorem countDown_params (s : State) : (countDown s).params = s.params := rfl
@[simp] theorem countDown_ie (s : State) : (countDown s).ie = s.ie := rfl
@[simp] theorem countDown_done (s : State) : (countDown s).done = s.done := rfl
@[simp] theorem countDown_phase (s : State) : (countDown s).phase = s.phase := rfl
@[simp] theorem countDown_err (s : State) : (countDown s).err = s.err := rfl
@[simp] theorem countDown_mode (s : State) : (countDown s).mode = s.mode := rfl
@[simp] theorem countDown_pad (s : State) : (countDown s).pad = s.pad := rfl
@[simp] theorem countDown_outLen (s : State) : (countDown s).outLen = s.outLen := rfl
@[simp] theorem countDown_padLen (s : State) : (countDown s).padLen = s.padLen := rfl
@[simp] theorem countDown_key (s : State) : (countDown s).key = s.key := rfl
@[simp] theorem countDown_iv (s : State) : (countDown s).iv = s.iv := rfl
@[simp] theorem countDown_cv (s : State) : (countDown s).cv = s.cv := rfl
@[simp] theorem countDown_buf (s : State) : (countDown s).buf = s.buf := rfl
@[simp] theorem countDown_rk (s : State) : (countDown s).rk = s.rk := rfl
@[simp] theorem countDown_latch (s : State) : (countDown s).latch = s.latch := rfl
@[simp] theorem countDown_mem (s : State) : (countDown s).mem = s.mem := rfl
@[simp] theorem countDown_wait (s : State) : (countDown s).wait = s.wait - 1 := rfl
@[simp] theorem countDown_draws (s : State) : (countDown s).draws = s.draws := rfl
@[simp] theorem countDown_host (s : State) : (countDown s).host = s.host := rfl
@[simp] theorem countDown_answer (s : State) : (countDown s).answer = s.answer := rfl

@[simp] theorem releaseReset_params (s : State) : (releaseReset s).params = s.params := rfl
@[simp] theorem releaseReset_ie (s : State) : (releaseReset s).ie = s.ie := rfl
@[simp] theorem releaseReset_done (s : State) : (releaseReset s).done = s.done := rfl
@[simp] theorem releaseReset_phase (s : State) : (releaseReset s).phase = s.phase := rfl
@[simp] theorem releaseReset_err (s : State) : (releaseReset s).err = s.err := rfl
@[simp] theorem releaseReset_mode (s : State) : (releaseReset s).mode = s.mode := rfl
@[simp] theorem releaseReset_pad (s : State) : (releaseReset s).pad = s.pad := rfl
@[simp] theorem releaseReset_outLen (s : State) : (releaseReset s).outLen = s.outLen := rfl
@[simp] theorem releaseReset_padLen (s : State) : (releaseReset s).padLen = s.padLen := rfl
@[simp] theorem releaseReset_key (s : State) : (releaseReset s).key = s.key := rfl
@[simp] theorem releaseReset_iv (s : State) : (releaseReset s).iv = s.iv := rfl
@[simp] theorem releaseReset_cv (s : State) : (releaseReset s).cv = s.cv := rfl
@[simp] theorem releaseReset_buf (s : State) : (releaseReset s).buf = s.buf := rfl
@[simp] theorem releaseReset_rk (s : State) : (releaseReset s).rk = s.rk := rfl
@[simp] theorem releaseReset_latch (s : State) : (releaseReset s).latch = s.latch := rfl
@[simp] theorem releaseReset_mem (s : State) : (releaseReset s).mem = s.mem := rfl
@[simp] theorem releaseReset_wait (s : State) : (releaseReset s).wait = s.wait := rfl
@[simp] theorem releaseReset_draws (s : State) : (releaseReset s).draws = s.draws := rfl
@[simp] theorem releaseReset_host (s : State) : (releaseReset s).host = s.host.dropWhile fun e => decide (e = .reset) := rfl
@[simp] theorem releaseReset_answer (s : State) : (releaseReset s).answer = s.answer := rfl

@[simp] theorem eraseAll_params (s : State) : (eraseAll s).params = s.params := rfl
@[simp] theorem eraseAll_ie (s : State) : (eraseAll s).ie = s.ie := rfl
@[simp] theorem eraseAll_done (s : State) : (eraseAll s).done = s.done := rfl
@[simp] theorem eraseAll_phase (s : State) : (eraseAll s).phase = .idle := rfl
@[simp] theorem eraseAll_err (s : State) : (eraseAll s).err = s.err := rfl
@[simp] theorem eraseAll_mode (s : State) : (eraseAll s).mode = s.mode := rfl
@[simp] theorem eraseAll_pad (s : State) : (eraseAll s).pad = s.pad := rfl
@[simp] theorem eraseAll_outLen (s : State) : (eraseAll s).outLen = s.outLen := rfl
@[simp] theorem eraseAll_padLen (s : State) : (eraseAll s).padLen = s.padLen := rfl
@[simp] theorem eraseAll_key (s : State) : (eraseAll s).key = zero16 := rfl
@[simp] theorem eraseAll_iv (s : State) : (eraseAll s).iv = zero16 := rfl
@[simp] theorem eraseAll_cv (s : State) : (eraseAll s).cv = zero16 := rfl
@[simp] theorem eraseAll_buf (s : State) : (eraseAll s).buf = [] := rfl
@[simp] theorem eraseAll_rk (s : State) : (eraseAll s).rk = none := rfl
@[simp] theorem eraseAll_latch (s : State) : (eraseAll s).latch = s.latch := rfl
@[simp] theorem eraseAll_mem (s : State) : (eraseAll s).mem = zeroMems (zeroMems s.mem dinBase s.params.dinSize) doutBase s.params.doutSize := rfl
@[simp] theorem eraseAll_wait (s : State) : (eraseAll s).wait = s.wait := rfl
@[simp] theorem eraseAll_draws (s : State) : (eraseAll s).draws = s.draws := rfl
@[simp] theorem eraseAll_host (s : State) : (eraseAll s).host = s.host := rfl
@[simp] theorem eraseAll_answer (s : State) : (eraseAll s).answer = s.answer := rfl

@[simp] theorem resetEngine_params (s : State) : (resetEngine s).params = s.params := rfl
@[simp] theorem resetEngine_ie (s : State) : (resetEngine s).ie = false := rfl
@[simp] theorem resetEngine_done (s : State) : (resetEngine s).done = false := rfl
@[simp] theorem resetEngine_phase (s : State) : (resetEngine s).phase = .idle := rfl
@[simp] theorem resetEngine_err (s : State) : (resetEngine s).err = .ok := rfl
@[simp] theorem resetEngine_mode (s : State) : (resetEngine s).mode = 0 := rfl
@[simp] theorem resetEngine_pad (s : State) : (resetEngine s).pad = .noPadding := rfl
@[simp] theorem resetEngine_outLen (s : State) : (resetEngine s).outLen = 0 := rfl
@[simp] theorem resetEngine_padLen (s : State) : (resetEngine s).padLen = 0 := rfl
@[simp] theorem resetEngine_key (s : State) : (resetEngine s).key = zero16 := rfl
@[simp] theorem resetEngine_iv (s : State) : (resetEngine s).iv = zero16 := rfl
@[simp] theorem resetEngine_cv (s : State) : (resetEngine s).cv = zero16 := rfl
@[simp] theorem resetEngine_buf (s : State) : (resetEngine s).buf = [] := rfl
@[simp] theorem resetEngine_rk (s : State) : (resetEngine s).rk = none := rfl
@[simp] theorem resetEngine_latch (s : State) : (resetEngine s).latch = none := rfl
@[simp] theorem resetEngine_mem (s : State) : (resetEngine s).mem = [] := rfl
@[simp] theorem resetEngine_wait (s : State) : (resetEngine s).wait = 0 := rfl
@[simp] theorem resetEngine_draws (s : State) : (resetEngine s).draws = s.draws := rfl
@[simp] theorem resetEngine_host (s : State) : (resetEngine s).host = s.host := rfl
@[simp] theorem resetEngine_answer (s : State) : (resetEngine s).answer = none := rfl

/-- A failing completion writes the result registers alone (R16). -/
theorem fail_eq (e : ErrCode) (s : State) : fail e s = completeWith e 0 0 s := by cases e <;> rfl

/-- A successful completion (R16). -/
theorem finish_ok (out : List Byte) (p : Nat) (s : State) :
    finish .ok out p s = completeWith .ok out.length p (writeDout out s) := rfl

/-- A successful completion without output writes no DOUT byte. -/
theorem finish_ok_nil (p : Nat) (s : State) : finish .ok [] p s = completeWith .ok 0 p s := rfl

theorem rejectCommand_eq (r : DecodeReject) (s : State) : rejectCommand r s = completeWith .illcmd 0 0 s := rfl

@[simp] theorem streamPhase_enc : streamPhase .enc = .enc := rfl

@[simp] theorem streamPhase_dec : streamPhase .dec = .dec := rfl

theorem streamPhase_ne_idle (d : Direction) : streamPhase d ≠ .idle := by cases d <;> decide

end Sys2Proof.Machine
end

