-- ==== Sys2Proof/Laws/Memory.lean ====
section
/-! SUPPORT. The windows' memory: what a read sees after a write, and that every operation keeps the canonical form. -/

namespace Sys2Proof.Machine

theorem memWf_tail {c : Host.Cell} {m : Memory} (h : memWf (c :: m) = true) : memWf m = true := by
  cases m with
  | nil => rfl
  | cons d m => simp only [memWf, Bool.and_eq_true] at h; exact h.2

theorem memWf_head_ne {a : Nat} {x : Byte} {m : Memory} (h : memWf ((a, x) :: m) = true) : x ≠ unlistedByte := by
  cases m <;> simp_all [memWf]

theorem memWf_head_lt {a : Nat} {x : Byte} {m : Memory} (h : memWf ((a, x) :: m) = true) :
    ∀ c ∈ m, a < c.1 := by
  induction m generalizing a x with
  | nil => simp
  | cons d m ih =>
    obtain ⟨b, y⟩ := d
    simp only [memWf, Bool.and_eq_true, decide_eq_true_eq] at h
    intro c hc
    rcases List.mem_cons.1 hc with rfl | hc
    · exact h.1.2
    · exact lt_trans h.1.2 (ih h.2 c hc)

theorem memWf_cons_of {a : Nat} {x : Byte} {m : Memory} (hx : x ≠ unlistedByte) (hm : memWf m = true)
    (hlt : ∀ c ∈ m, a < c.1) : memWf ((a, x) :: m) = true := by
  cases m with
  | nil => simpa [memWf] using hx
  | cons d m =>
    obtain ⟨b, y⟩ := d
    simp only [memWf, Bool.and_eq_true, decide_eq_true_eq, bne_iff_ne, ne_eq]
    exact ⟨⟨hx, hlt (b, y) (List.mem_cons_self ..)⟩, hm⟩

theorem readMem_of_not_mem {m : Memory} {a : Nat} (h : ∀ c ∈ m, c.1 ≠ a) : readMem m a = unlistedByte := by
  induction m with
  | nil => rfl
  | cons d m ih =>
    obtain ⟨b, y⟩ := d
    have hb : a ≠ b := fun e => h (b, y) (List.mem_cons_self ..) e.symm
    simp only [readMem, if_neg hb]
    exact ih fun c hc => h c (List.mem_cons_of_mem _ hc)

/-- A write leaves every other address alone. -/
theorem readMem_writeMem_other {m : Memory} {a c : Nat} {b : Byte} (h : c ≠ a) :
    readMem (writeMem m a b) c = readMem m c := by
  induction m with
  | nil => by_cases hb : b = unlistedByte <;> simp [writeMem, readMem, hb, h]
  | cons d m ih =>
    obtain ⟨e, y⟩ := d
    simp only [writeMem]
    split
    · split <;> simp [readMem, h]
    · split
      · rename_i hae
        subst hae
        split <;> simp [readMem, h]
      · simp only [readMem, ih]

/-- A read after a write to the same address gives the value written. -/
theorem readMem_writeMem_same {m : Memory} (hm : memWf m = true) (a : Nat) (b : Byte) :
    readMem (writeMem m a b) a = b := by
  induction m with
  | nil => by_cases hb : b = unlistedByte <;> simp [writeMem, readMem, hb]
  | cons d m ih =>
    obtain ⟨e, y⟩ := d
    have hlt := memWf_head_lt hm
    simp only [writeMem]
    split
    · rename_i hae
      split
      · rename_i hb
        rw [hb]
        refine readMem_of_not_mem fun c hc => ?_
        rcases List.mem_cons.1 hc with rfl | hc
        · exact (ne_of_lt hae).symm
        · exact (ne_of_lt (lt_trans hae (hlt c hc))).symm
      · simp [readMem]
    · split
      · rename_i hae
        subst hae
        split
        · rename_i hb
          rw [hb]
          exact readMem_of_not_mem fun c hc => (ne_of_lt (hlt c hc)).symm
        · simp [readMem]
      · rename_i _ hae
        simp only [readMem, if_neg hae]
        exact ih (memWf_tail hm)

theorem mem_writeMem {m : Memory} {a : Nat} {b : Byte} {c : Host.Cell} (h : c ∈ writeMem m a b) :
    c ∈ m ∨ c = (a, b) := by
  induction m with
  | nil => by_cases hb : b = unlistedByte <;> simp_all [writeMem]
  | cons d m ih =>
    obtain ⟨e, y⟩ := d
    simp only [writeMem] at h
    split at h
    · split at h
      · exact .inl h
      · rcases List.mem_cons.1 h with rfl | h
        · exact .inr rfl
        · exact .inl h
    · split at h
      · split at h
        · exact .inl (List.mem_cons_of_mem _ h)
        · rcases List.mem_cons.1 h with rfl | h
          · exact .inr rfl
          · exact .inl (List.mem_cons_of_mem _ h)
      · rcases List.mem_cons.1 h with rfl | h
        · exact .inl (List.mem_cons_self ..)
        · exact (ih h).imp_left (List.mem_cons_of_mem _)

/-- A write keeps the canonical form. -/
theorem memWf_writeMem {m : Memory} (hm : memWf m = true) (a : Nat) (b : Byte) : memWf (writeMem m a b) = true := by
  induction m with
  | nil => by_cases hb : b = unlistedByte <;> simp_all [writeMem, memWf]
  | cons d m ih =>
    obtain ⟨e, y⟩ := d
    have hlt := memWf_head_lt hm
    simp only [writeMem]
    split
    · rename_i hae
      split
      · exact hm
      · rename_i hb
        refine memWf_cons_of hb hm fun c hc => ?_
        rcases List.mem_cons.1 hc with rfl | hc
        · exact hae
        · exact lt_trans hae (hlt c hc)
    · split
      · rename_i hae
        subst hae
        split
        · exact memWf_tail hm
        · rename_i hb
          exact memWf_cons_of hb (memWf_tail hm) hlt
      · rename_i h1 h2
        refine memWf_cons_of (memWf_head_ne hm) (ih (memWf_tail hm)) fun c hc => ?_
        rcases mem_writeMem hc with hc | rfl
        · exact hlt c hc
        · exact lt_of_le_of_ne (Nat.le_of_not_lt h1) fun h => h2 h.symm

theorem memWf_writeMems {m : Memory} (hm : memWf m = true) (base : Nat) (l : List Byte) :
    memWf (writeMems m base l) = true := by
  induction l generalizing m base with
  | nil => exact hm
  | cons b bs ih => exact ih (memWf_writeMem hm base b) (base + 1)

/-- Storing a sequence leaves every address outside it alone. -/
theorem readMem_writeMems_outside {m : Memory} {base c : Nat} {l : List Byte}
    (h : c < base ∨ base + l.length ≤ c) : readMem (writeMems m base l) c = readMem m c := by
  induction l generalizing m base with
  | nil => rfl
  | cons b bs ih =>
    simp only [List.length_cons] at h
    simp only [writeMems]
    rw [ih (by omega), readMem_writeMem_other (by omega)]

/-- Storing a sequence stores each of its bytes. -/
theorem readMem_writeMems_inside {m : Memory} (hm : memWf m = true) (base : Nat) (l : List Byte) {i : Nat}
    (h : i < l.length) : readMem (writeMems m base l) (base + i) = l[i] := by
  induction l generalizing m base i with
  | nil => simp at h
  | cons b bs ih =>
    simp only [writeMems]
    cases i with
    | zero =>
      rw [readMem_writeMems_outside (by omega)]
      exact readMem_writeMem_same hm _ _
    | succ i =>
      have h' : i < bs.length := by simpa using h
      have e : base + (i + 1) = base + 1 + i := by omega
      rw [e, ih (memWf_writeMem hm base b) (base + 1) h']
      rfl

theorem mem_writeMems {m : Memory} {base : Nat} {l : List Byte} {c : Host.Cell} (h : c ∈ writeMems m base l) :
    c ∈ m ∨ (base ≤ c.1 ∧ c.1 < base + l.length) := by
  induction l generalizing m base with
  | nil => exact .inl h
  | cons b bs ih =>
    rcases ih h with h | h
    · rcases mem_writeMem h with h | rfl
      · exact .inl h
      · exact .inr (by simp)
    · exact .inr (by simp only [List.length_cons]; omega)

theorem memWf_filter {m : Memory} (hm : memWf m = true) (p : Host.Cell → Bool) : memWf (m.filter p) = true := by
  induction m with
  | nil => rfl
  | cons d m ih =>
    obtain ⟨e, y⟩ := d
    by_cases hp : p (e, y) = true
    · rw [List.filter_cons_of_pos hp]
      exact memWf_cons_of (memWf_head_ne hm) (ih (memWf_tail hm))
        fun c hc => memWf_head_lt hm c (List.mem_filter.1 hc).1
    · rw [List.filter_cons_of_neg hp]
      exact ih (memWf_tail hm)

theorem memWf_zeroMems {m : Memory} (hm : memWf m = true) (base n : Nat) : memWf (zeroMems m base n) = true :=
  memWf_filter hm _

theorem readMem_filter {m : Memory} {p : Host.Cell → Bool} {a : Nat} (h : ∀ x, p (a, x) = true) :
    readMem (m.filter p) a = readMem m a := by
  induction m with
  | nil => rfl
  | cons d m ih =>
    obtain ⟨e, y⟩ := d
    by_cases hae : a = e
    · subst hae
      rw [List.filter_cons_of_pos (h y)]
      simp [readMem]
    · by_cases hp : p (e, y) = true
      · rw [List.filter_cons_of_pos hp]; simp [readMem, hae, ih]
      · rw [List.filter_cons_of_neg hp]; simp [readMem, hae, ih]

/-- A zeroed range reads 0x00. -/
theorem readMem_zeroMems_inside (m : Memory) {base n a : Nat} (h1 : base ≤ a) (h2 : a < base + n) :
    readMem (zeroMems m base n) a = 0 := by
  refine readMem_of_not_mem fun c hc e => ?_
  have := (List.mem_filter.1 hc).2
  simp only [e, Bool.not_eq_true', Bool.and_eq_false_iff, decide_eq_false_iff_not] at this
  omega

theorem readMem_zeroMems_outside (m : Memory) {base n a : Nat} (h : a < base ∨ base + n ≤ a) :
    readMem (zeroMems m base n) a = readMem m a := by
  refine readMem_filter fun x => ?_
  simp only [Bool.not_eq_true', Bool.and_eq_false_iff, decide_eq_false_iff_not]
  omega

theorem mem_zeroMems {m : Memory} {base n : Nat} {c : Host.Cell} (h : c ∈ zeroMems m base n) : c ∈ m :=
  (List.mem_filter.1 h).1

/-- Every DOUT byte a command may write lies in the windows. -/
theorem inWindows_dout {p : Params} {a n : Nat} (h1 : doutBase ≤ a) (h2 : a < doutBase + n) (hn : n ≤ p.doutSize) :
    inWindows p a = true := by
  simp only [inWindows, Bool.or_eq_true, Bool.and_eq_true, decide_eq_true_eq]
  omega

theorem inWindows_din {p : Params} {a : Nat} (h1 : dinBase ≤ a) (h2 : a < dinBase + p.dinSize) :
    inWindows p a = true := by
  simp only [inWindows, Bool.or_eq_true, Bool.and_eq_true, decide_eq_true_eq]
  omega

/-- DIN ends below DOUT (R10, R63). -/
theorem dinBase_add_dinSize_le (p : Params) : dinBase + p.dinSize ≤ doutBase := by
  have := p.dinBlocks.isLt
  simp only [dinBase, doutBase, Params.dinSize]
  omega

theorem dinSize_ge (p : Params) : 16 ≤ p.dinSize := by simp only [Params.dinSize]; omega

theorem dinSize_le (p : Params) : p.dinSize ≤ 4080 := by
  have := p.dinBlocks.isLt
  simp only [Params.dinSize]
  omega

theorem dinSize_mod (p : Params) : p.dinSize % 16 = 0 := by simp [Params.dinSize]

end Sys2Proof.Machine
end

