-- ==== Sys2Proof/Laws/Bus.lean ====
section
/-! SUPPORT. The bus port: what a transaction can do, and where each address class lies. -/

namespace Sys2Proof.Machine

/-- The nine control addresses (R63). -/
theorem controlAt_isSome_iff (a : Nat) : (controlAt a).isSome = true ↔
    a ∈ [0x000, 0x004, 0x008, 0x00C, 0x010, 0x014, 0x018, 0x01C, 0x020] := by
  unfold controlAt
  split <;> simp_all

theorem controlAt_none {a : Nat} (h : 0x20 < a) : controlAt a = none := by
  unfold controlAt
  split <;> first | omega | rfl

/-- The address classes with their bounds written out (R63). -/
theorem classify_eq (p : Params) (a : Nat) : classify p a =
    match controlAt a with
    | some r => .control r
    | none =>
      if 0x40 ≤ a ∧ a ≤ 0x7F then .byteReg (byteRegAt a) (a % 16)
      else if 0x1000 ≤ a ∧ a < 0x1000 + p.dinSize then .din (a - 0x1000)
      else if 0x2000 ≤ a ∧ a < 0x2000 + (p.dinSize + 16) then .dout (a - 0x2000)
      else .unmapped := rfl

theorem classify_context (p : Params) {a : Nat} (h1 : 0x40 ≤ a) (h2 : a ≤ 0x7F) :
    classify p a = .byteReg (byteRegAt a) (a % 16) := by
  simp only [classify_eq, controlAt_none (show 0x20 < a by omega)]
  rw [if_pos ⟨h1, h2⟩]

theorem classify_din (p : Params) {a : Nat} (h1 : 0x1000 ≤ a) (h2 : a < 0x1000 + p.dinSize) :
    classify p a = .din (a - 0x1000) := by
  simp only [classify_eq, controlAt_none (show 0x20 < a by omega)]
  rw [if_neg (by omega), if_pos ⟨h1, h2⟩]

theorem classify_dout (p : Params) {a : Nat} (h1 : 0x2000 ≤ a) (h2 : a < 0x2000 + p.dinSize + 16) :
    classify p a = .dout (a - 0x2000) := by
  have := dinSize_le p
  simp only [classify_eq, controlAt_none (show 0x20 < a by omega)]
  rw [if_neg (by omega), if_neg (by omega), if_pos ⟨h1, by omega⟩]

/-- Which addresses are unmapped (R63). -/
theorem classify_unmapped_iff (p : Params) (a : Nat) : classify p a = .unmapped ↔
    ¬ (a ∈ [0x000, 0x004, 0x008, 0x00C, 0x010, 0x014, 0x018, 0x01C, 0x020] ∨ (0x040 ≤ a ∧ a ≤ 0x07F) ∨
      (0x1000 ≤ a ∧ a < 0x1000 + p.dinSize) ∨ (0x2000 ≤ a ∧ a < 0x2000 + p.dinSize + 16)) := by
  rw [← controlAt_isSome_iff]
  rw [classify_eq]
  split
  · rename_i h; simp [h]
  · rename_i h
    simp only [h, Option.isSome_none, Bool.false_eq_true, false_or]
    split
    · rename_i h1; exact ⟨fun h' => (by cases h'), fun h' => absurd (.inl h1) h'⟩
    · split
      · rename_i h1; exact ⟨fun h' => (by cases h'), fun h' => absurd (.inr (.inl h1)) h'⟩
      · split
        · rename_i h1; exact ⟨fun h' => (by cases h'), fun h' => absurd (.inr (.inr ⟨h1.1, by omega⟩)) h'⟩
        · simp only [true_iff]; omega

/-- Which addresses are control registers (R63). -/
theorem classify_control_iff (p : Params) (a : Nat) (r : CtrlReg) :
    classify p a = .control r ↔ controlAt a = some r := by
  unfold classify
  split
  · rename_i h; simp [h]
  · rename_i h; simp only [h]; split <;> (try split) <;> (try split) <;> simp

theorem sameEngine_refl (s : State) : SameEngine s s :=
  ⟨⟨rfl, rfl, rfl, rfl, rfl⟩, ⟨rfl, rfl⟩, ⟨rfl, rfl, rfl⟩, ⟨rfl, rfl, rfl, rfl, rfl⟩, fun _ => rfl⟩

/-- Everything a read transaction can do: it answers, and at most draws a free value (R67, R75). -/
theorem busRead_cases (t : Txn) (s : State) :
    (accepted s t = false ∧ busRead t s = answerWith { rdata := 0, resp := .slverr } s) ∨
    (accepted s t = true ∧ busy s = true ∧ readableWhileBusy (classify s.params t.addr.toNat) = false ∧
      busRead t s = answerWith { rdata := drawWord s, resp := .okay } (nextDraw s)) ∨
    (accepted s t = true ∧ (busy s = true → readableWhileBusy (classify s.params t.addr.toNat) = true) ∧
      busRead t s = answerWith { rdata := readValue s t.size t.addr.toNat, resp := .okay } s) := by
  unfold busRead
  split
  · rename_i h; exact .inl ⟨h, rfl⟩
  · rename_i h
    split
    · rename_i h2; exact .inr (.inl ⟨by simpa using h, h2.1, h2.2, rfl⟩)
    · rename_i h2
      refine .inr (.inr ⟨by simpa using h, fun hb => ?_, rfl⟩)
      by_contra hn
      exact h2 ⟨hb, by simpa using hn⟩

/-- Everything a write transaction can do (R66, R68). -/
theorem busWrite_cases (t : Txn) (s : State) :
    (accepted s t = false ∧
      busWrite t s = answerWith { rdata := drawWord s, resp := .slverr } (nextDraw s)) ∨
    (accepted s t = true ∧ busWrite t s = answerWith { rdata := drawWord s, resp := .okay }
      (writeValue t.size t.addr.toNat t.wdata (nextDraw s))) := by
  unfold busWrite
  split
  · rename_i h; exact .inl ⟨h, rfl⟩
  · rename_i h; exact .inr ⟨by simpa using h, rfl⟩

/-- No write is accepted while a command runs (R75). -/
theorem not_busy_of_accepted {s : State} {t : Txn} (h : accepted s t = true) (hw : t.write = true) :
    busy s = false := by
  simp only [accepted, hw, Bool.true_and, Bool.and_eq_true] at h
  simpa using h.2

/-- Everything storing one byte can do (R68). -/
theorem storeByte_cases (a : Nat) (b : Byte) (s : State) :
    storeByte a b s = s ∨
    (∃ i, classify s.params a = .byteReg .key i ∧ s.phase = .idle ∧
      storeByte a b s = { s with key := s.key.setIfInBounds i b, rk := none }) ∨
    (∃ i, classify s.params a = .byteReg .iv i ∧ s.phase = .idle ∧
      storeByte a b s = { s with iv := s.iv.setIfInBounds i b }) ∨
    (∃ i, classify s.params a = .din i ∧ storeByte a b s = { s with mem := writeMem s.mem a b }) := by
  unfold storeByte
  split
  · rename_i i h
    split
    · rename_i hp; exact .inr (.inl ⟨i, h, hp, rfl⟩)
    · exact .inl rfl
  · rename_i i h
    split
    · rename_i hp; exact .inr (.inr (.inl ⟨i, h, hp, rfl⟩))
    · exact .inl rfl
  · exact .inl rfl
  · exact .inl rfl
  · rename_i i h; exact .inr (.inr (.inr ⟨i, h, rfl⟩))
  · exact .inl rfl
  · exact .inl rfl
  · exact .inl rfl

/-- Everything writing a control register can do (R68). -/
theorem writeControl_cases (r : CtrlReg) (v : Word) (s : State) :
    writeControl r v s = s ∨
    (r = .ctrl ∧ writeControl r v s = { s with ie := v.getLsbD 0 }) ∨
    (r = .status ∧ writeControl r v s = { s with done := false }) ∨
    (r = .cmd ∧ writeControl r v s = acceptCommand v s) ∨
    (r = .cfg ∧ s.phase = .idle ∧
      writeControl r v s = { s with mode := v.extractLsb' 0 3, pad := paddingOfBit (v.getLsbD 4) }) := by
  cases r
  case ctrl => exact .inr (.inl ⟨rfl, rfl⟩)
  case status =>
    simp only [writeControl]
    split
    · exact .inr (.inr (.inl ⟨trivial, rfl⟩))
    · exact .inl rfl
  case cmd => exact .inr (.inr (.inr (.inl ⟨rfl, rfl⟩)))
  case cfg =>
    simp only [writeControl]
    split
    · rename_i hp; exact .inr (.inr (.inr (.inr ⟨trivial, hp, rfl⟩)))
    · exact .inl rfl
  all_goals exact .inl rfl

/-- A property that every single register write and byte store keeps is kept by every legal write. -/
theorem writeValue_induct {P : State → Prop} {s : State} (size : Size) (a : Nat) (v : Word) (h0 : P s)
    (hc : ∀ r, classify s.params a = .control r → P (writeControl r v s))
    (hb : ∀ u c b, P u → P (storeByte c b u)) : P (writeValue size a v s) := by
  unfold writeValue
  split
  · rename_i r h; exact hc r h
  · exact hb _ _ _ (hb _ _ _ (hb _ _ _ (hb _ _ _ h0)))
  · exact hb _ _ _ h0

end Sys2Proof.Machine
end

