-- ==== Sys2Proof/Laws/Bytes.lean ====
section
/-! SUPPORT. Byte sequences and blocks: XOR, slices of DIN, and DOUT after an output is written. -/

namespace Sys2Proof.Machine

@[simp] theorem block_getElem (l : List Byte) (i : Nat) (h : i < 16) : (block l)[i] = l.getD i 0 := by
  simp [block]

@[simp] theorem blockXor_getElem (a b : Bytes16) (i : Nat) (h : i < 16) : (blockXor a b)[i] = a[i] ^^^ b[i] := by
  simp [blockXor]

/-- XOR with the same keystream block is its own inverse (R114). -/
theorem blockXor_cancel (k b : Bytes16) : blockXor k (blockXor k b) = b := by
  apply Vector.ext
  intro i hi
  simp only [blockXor_getElem, ← BitVec.xor_assoc, BitVec.xor_self, BitVec.zero_xor]

theorem block_toList (b : Bytes16) : block b.toList = b := by
  apply Vector.ext
  intro i hi
  simp [hi]

theorem toList_block {l : List Byte} (h : l.length = 16) : (block l).toList = l := by
  apply List.ext_getElem
  · simp [h]
  · intro i h1 h2
    simp [h2]

theorem block_append_of_ge {l r : List Byte} (h : 16 ≤ l.length) : block (l ++ r) = block l := by
  apply Vector.ext
  intro i hi
  simp [List.getElem?_append_left (by omega : i < l.length)]

theorem block_take_16 (l : List Byte) : block (l.take 16) = block l := by
  apply Vector.ext
  intro i hi
  simp [hi]

theorem xorBytes_length (a b : List Byte) : (xorBytes a b).length = min a.length b.length := by
  induction a generalizing b with
  | nil => simp [xorBytes]
  | cons x a ih => cases b <;> simp [xorBytes, ih]

theorem xorBytes_getElem {a b : List Byte} {i : Nat} (h : i < (xorBytes a b).length) (ha : i < a.length)
    (hb : i < b.length) : (xorBytes a b)[i] = a[i] ^^^ b[i] := by
  induction a generalizing b i with
  | nil => simp at ha
  | cons x a ih =>
    cases b with
    | nil => simp at hb
    | cons y b =>
      cases i with
      | zero => rfl
      | succ i =>
        simp only [xorBytes, List.getElem_cons_succ]
        exact ih _ (by simpa using ha) (by simpa using hb)

theorem partialStep_length (e : Bytes16 → Bytes16) (cv : Bytes16) {buf : List Byte} (h : buf.length ≤ 16) :
    (partialStep e cv buf).length = buf.length := by
  simp [partialStep, xorBytes_length, h]

/-- The partial step, byte by byte (R114). -/
theorem partialStep_getElem (e : Bytes16 → Bytes16) (cv : Bytes16) {buf : List Byte} {i : Nat}
    (h : i < (partialStep e cv buf).length) (hb : i < buf.length) (h16 : i < 16) :
    (partialStep e cv buf)[i] = (e cv)[i] ^^^ buf[i] := by
  have h' : i < (xorBytes ((e cv).toList.take buf.length) buf).length := h
  exact (xorBytes_getElem h' (by simp; omega) hb).trans (by simp)

@[simp] theorem dinBytes_length (s : State) (n : Nat) : (dinBytes s n).length = n := by simp [dinBytes]

@[simp] theorem dinBytes_getElem (s : State) (n i : Nat) (h : i < (dinBytes s n).length) :
    (dinBytes s n)[i] = dinByte s i := by simp [dinBytes]

@[simp] theorem dinBlock_getElem (s : State) (i : Nat) (h : i < 16) : (dinBlock s)[i] = dinByte s i := by
  simp [dinBlock]

theorem dinBytes_congr {s t : State} {n : Nat} (h : ∀ i < n, dinByte s i = dinByte t i) :
    dinBytes s n = dinBytes t n := by
  apply List.ext_getElem
  · simp
  · intro i h1 h2
    simp only [dinBytes_getElem]
    exact h i (by simpa using h1)

/-- What an output leaves in DOUT (R16). -/
theorem doutByte_writeDout {s : State} (hm : memWf s.mem = true) (out : List Byte) {i : Nat} (h : i < out.length) :
    doutByte (writeDout out s) i = out[i] := readMem_writeMems_inside hm doutBase out h

/-- Every byte outside the output reads as before. -/
theorem sameMemoryBut_writeDout (out : List Byte) (s : State) : SameMemoryBut out.length s (writeDout out s) :=
  fun _ h => readMem_writeMems_outside h

/-- The same with the output's length and the state it ends in given. -/
theorem sameMemoryBut_of_mem {out : List Byte} {n : Nat} {s t : State} (hn : out.length = n)
    (ht : t.mem = writeMems s.mem doutBase out) : SameMemoryBut n s t := by
  subst hn
  intro a h
  rw [ht]
  exact readMem_writeMems_outside h

end Sys2Proof.Machine
end

