-- ==== Sys2Proof/Laws/Cfb.lean ====
section
/-! SUPPORT. The stream functions in closed form (R153, R155): how much they emit, what they leave buffered, and the
block relation of R113. -/

namespace Sys2Proof.Machine

/-- How many bytes `takeBlocks` emits from `n` input bytes (R155). -/
def emitted (h : Bool) (n : Nat) : Nat := if h then 16 * ((n - 1) / 16) else 16 * (n / 16)

theorem emitted_of_takes {h : Bool} {n : Nat} (ht : takesBlock h n = true) : emitted h n = 16 + emitted h (n - 16) := by
  cases h <;> simp [takesBlock, emitted] at * <;> omega

theorem emitted_of_not_takes {h : Bool} {n : Nat} (ht : takesBlock h n = false) : emitted h n = 0 := by
  cases h <;> simp [takesBlock, emitted] at * <;> omega

theorem emitted_le (h : Bool) (n : Nat) : emitted h n ≤ n := by
  cases h <;> simp [emitted] <;> omega

theorem sixteen_le_of_takes {h : Bool} {n : Nat} (ht : takesBlock h n = true) : 16 ≤ n := by
  cases h <;> simp [takesBlock] at ht <;> omega

theorem takesBlock_of_not_onlyBuffers {h : Bool} {n : Nat} (ho : onlyBuffers h n = false) : takesBlock h n = true := by
  cases h <;> simp [onlyBuffers, takesBlock] at * <;> omega

theorem not_takesBlock_of_onlyBuffers {h : Bool} {n : Nat} (ho : onlyBuffers h n = true) : takesBlock h n = false := by
  cases h <;> simp [onlyBuffers, takesBlock] at * <;> omega

theorem takeBlocks_succ (e : Bytes16 → Bytes16) (dir : Direction) (h : Bool) (f : Nat) (cv : Bytes16) (l : List Byte)
    (ht : takesBlock h l.length = true) :
    takeBlocks e dir h (f + 1) cv l =
      { takeBlocks e dir h f (feedback dir (block l) (stepOut e cv (block l))) (l.drop 16) with
        out := (stepOut e cv (block l)).toList ++
          (takeBlocks e dir h f (feedback dir (block l) (stepOut e cv (block l))) (l.drop 16)).out } := by
  simp only [takeBlocks, ht, if_true, block_take_16]

theorem takeBlocks_stop (e : Bytes16 → Bytes16) (dir : Direction) (h : Bool) (f : Nat) (cv : Bytes16) (l : List Byte)
    (ht : takesBlock h l.length = false) : takeBlocks e dir h f cv l = { out := [], cv := cv, buf := l } := by
  cases f <;> simp [takeBlocks, ht]

/-- Any fuel that covers the input gives the same result. -/
theorem takeBlocks_fuel (e : Bytes16 → Bytes16) (dir : Direction) (h : Bool) {f g : Nat} (cv : Bytes16)
    {l : List Byte} (hf : l.length ≤ f) (hg : l.length ≤ g) :
    takeBlocks e dir h f cv l = takeBlocks e dir h g cv l := by
  induction f generalizing g cv l with
  | zero =>
    have hl : takesBlock h l.length = false := by
      cases h <;> simp [takesBlock] <;> omega
    rw [takeBlocks_stop _ _ _ _ _ _ hl, takeBlocks_stop _ _ _ _ _ _ hl]
  | succ f ih =>
    by_cases ht : takesBlock h l.length = true
    · have := sixteen_le_of_takes ht
      obtain ⟨g, rfl⟩ : ∃ g', g = g' + 1 := ⟨g - 1, by omega⟩
      rw [takeBlocks_succ _ _ _ _ _ _ ht, takeBlocks_succ _ _ _ _ _ _ ht,
        ih (g := g) (l := l.drop 16) _ (by simp; omega) (by simp; omega)]
    · rw [takeBlocks_stop _ _ _ _ _ _ (by simpa using ht), takeBlocks_stop _ _ _ _ _ _ (by simpa using ht)]

/-- The whole body of R153 is `takeBlocks` on the buffered bytes followed by the input (R154). -/
theorem stepBlocks_eq (e : Bytes16 → Bytes16) (dir : Direction) (h : Bool) (cv : Bytes16) {buf input : List Byte}
    (hb : buf.length ≤ 16) (ho : onlyBuffers h (buf.length + input.length) = false) :
    stepBlocks e dir h cv buf input =
      takeBlocks e dir h (buf.length + input.length) cv (buf ++ input) := by
  have ht : takesBlock h (buf ++ input).length = true := by
    simpa using takesBlock_of_not_onlyBuffers ho
  have h16 := sixteen_le_of_takes ht
  simp only [List.length_append] at h16
  obtain ⟨f, hf⟩ : ∃ f, buf.length + input.length = f + 1 := ⟨buf.length + input.length - 1, by omega⟩
  rw [hf, takeBlocks_succ _ _ _ _ _ _ ht]
  have hblk : block (buf ++ input.take (16 - buf.length)) = block (buf ++ input) := by
    have : buf ++ input.take (16 - buf.length) = (buf ++ input).take 16 := by
      rw [List.take_append, List.take_of_length_le hb]
    rw [this, block_take_16]
  have hdrop : (buf ++ input).drop 16 = input.drop (16 - buf.length) := by
    rw [List.drop_append, List.drop_eq_nil_of_le hb, List.nil_append]
  rw [hdrop]
  unfold stepBlocks
  simp only [hblk]
  rw [takeBlocks_fuel e dir h (f := input.length) (g := f) _ (by simp) (by simp; omega)]

/-- What `takeBlocks` emits and leaves (R155): whole blocks from the front, the rest buffered. -/
theorem takeBlocks_lengths (e : Bytes16 → Bytes16) (dir : Direction) (h : Bool) {f : Nat} (cv : Bytes16)
    {l : List Byte} (hf : l.length ≤ f) :
    (takeBlocks e dir h f cv l).out.length = emitted h l.length ∧
      (takeBlocks e dir h f cv l).buf = l.drop (emitted h l.length) := by
  induction f generalizing cv l with
  | zero =>
    have hl : l = [] := List.length_eq_zero_iff.1 (by omega)
    subst hl
    cases h <;> simp [takeBlocks, emitted]
  | succ f ih =>
    by_cases ht : takesBlock h l.length = true
    · have h16 := sixteen_le_of_takes ht
      have := ih (feedback dir (block l) (stepOut e cv (block l))) (l := l.drop 16) (by simp; omega)
      rw [takeBlocks_succ _ _ _ _ _ _ ht, emitted_of_takes ht]
      simp only [List.length_drop] at this
      refine ⟨by simp [this.1], ?_⟩
      simp only [this.2, List.drop_drop]
    · have ht : takesBlock h l.length = false := by simpa using ht
      rw [takeBlocks_stop _ _ _ _ _ _ ht, emitted_of_not_takes ht]
      simp

end Sys2Proof.Machine
end

