-- ==== Sys2Proof/Laws/Padding.lean ====
section
/-! SUPPORT. The padding functions in the terms of R120 and R121. -/

namespace Sys2Proof.Machine

/-- PKCS application succeeds exactly for used = 0..15 (R120). -/
theorem applyPadding_pkcs {blk : Bytes16} {used : Nat} (h : used < 16) :
    applyPadding blk used .pkcs =
      some (16 - used, block (blk.toList.take used ++ List.replicate (16 - used) (BitVec.ofNat 8 (16 - used)))) := by
  have e : ((16 : Int) - (used : Int)).toNat = 16 - used := by omega
  simp only [applyPadding, e]
  rw [if_pos (by omega)]

theorem applyPadding_pkcs_none {blk : Bytes16} {used : Nat} (h : 16 ≤ used) :
    applyPadding blk used .pkcs = none := by
  simp only [applyPadding]
  rw [if_neg (by omega)]

/-- Byte i of a padded block (R120). -/
theorem padded_getElem {blk : Bytes16} {used i : Nat} (hu : used < 16) (hi : i < 16) :
    (block (blk.toList.take used ++ List.replicate (16 - used) (BitVec.ofNat 8 (16 - used))))[i] =
      if i < used then blk[i] else BitVec.ofNat 8 (16 - used) := by
  rw [block_getElem]
  split
  · rename_i h
    rw [List.getD_eq_getElem?_getD, List.getElem?_append_left (by simp; omega)]
    simp [h, hi]
  · rename_i h
    rw [List.getD_eq_getElem?_getD, List.getElem?_append_right (by simp; omega)]
    simp only [List.length_take, Vector.length_toList, List.getElem?_replicate]
    rw [if_pos (by omega)]
    rfl

theorem all_drop_iff {blk : Bytes16} {k : Nat} {q : Byte → Bool} :
    (blk.toList.drop k).all q = true ↔ ∀ i : Fin 16, k ≤ i.val → q blk[i] = true := by
  rw [List.all_eq_true]
  constructor
  · intro h i hi
    refine h _ (List.mem_iff_getElem.2 ⟨i.val - k, by simp; omega, ?_⟩)
    simp only [List.getElem_drop]
    simp [show k + (i.val - k) = i.val by omega]
  · intro h x hx
    obtain ⟨j, hj, rfl⟩ := List.mem_iff_getElem.1 hx
    simp only [List.length_drop, Vector.length_toList] at hj
    simpa using h ⟨k + j, by omega⟩ (by simp)

/-- The validator accepts exactly the valid paddings (R121). -/
theorem checkAndStrip_pkcs_iff (blk : Bytes16) (p : Nat) :
    checkAndStripPadding blk .pkcs = some p ↔ PaddedWith blk p := by
  simp only [checkAndStripPadding, PaddedWith]
  constructor
  · intro h
    split at h
    · rename_i h1
      split at h
      · rename_i h2
        cases h
        rw [all_drop_iff] at h2
        exact ⟨h1.1, h1.2, fun i hi => of_decide_eq_true (h2 i hi)⟩
      · cases h
    · cases h
  · rintro ⟨h1, h2, h3⟩
    have h15 : blk[15].toNat = p := h3 ⟨15, by omega⟩ (by simp; omega)
    rw [h15, if_pos ⟨h1, h2⟩, if_pos]
    rw [all_drop_iff]
    exact fun i hi => decide_eq_true (h3 i hi)

theorem checkAndStrip_pkcs_none_iff (blk : Bytes16) :
    checkAndStripPadding blk .pkcs = none ↔ ∀ p, ¬ PaddedWith blk p := by
  rw [Option.eq_none_iff_forall_not_mem]
  exact forall_congr' fun p => not_congr (checkAndStrip_pkcs_iff blk p)

/-- A padded block carries valid padding: the applier and the validator agree. -/
theorem paddedWith_padded {blk : Bytes16} {used : Nat} (hu : used < 16) :
    PaddedWith (block (blk.toList.take used ++ List.replicate (16 - used) (BitVec.ofNat 8 (16 - used)))) (16 - used) := by
  refine ⟨by omega, by omega, fun i hi => ?_⟩
  have := padded_getElem (blk := blk) hu i.isLt
  rw [Fin.getElem_fin, this, if_neg (by omega)]
  simp
  omega

end Sys2Proof.Machine
end

