-- ==== Sys2Proof/Laws/Commands.lean ====
section
/-! SUPPORT. What the shared operations of the commands can do: completion, failure, the mode verdict, and the one
case analysis of each command family. -/

namespace Sys2Proof.Machine

theorem resultIs_completeWith (e : ErrCode) {o p : Nat} (s : State) (ho : o < 65536) (hp : p < 32) :
    ResultIs e o p (completeWith e o p s) := by
  refine ⟨rfl, ?_, ?_, rfl, rfl⟩
  · simp only [completeWith_outLen, BitVec.toNat_ofNat]; omega
  · simp only [completeWith_padLen, BitVec.toNat_ofNat]; omega

/-- The clear of R170 leaves the result registers alone. -/
theorem resultIs_clearStream {e : ErrCode} {o p : Nat} {s : State} (h : ResultIs e o p s) :
    ResultIs e o p (clearStream s) := h

/-- A completion keeps PARAM, CTRL, CFG and IV (R16). -/
theorem sameConfig_finish (e : ErrCode) (out : List Byte) (p : Nat) (s : State) : SameConfig s (finish e out p s) := by
  cases e <;> exact ⟨rfl, rfl, rfl, rfl, rfl⟩

/-- A completion keeps KEY and RK (R16). -/
theorem sameKeys_finish (e : ErrCode) (out : List Byte) (p : Nat) (s : State) : SameKeys s (finish e out p s) := by
  cases e <;> exact ⟨rfl, rfl⟩

/-- A completion keeps PHASE, CV and BUF (R16). -/
theorem sameStream_finish (e : ErrCode) (out : List Byte) (p : Nat) (s : State) : SameStream s (finish e out p s) := by
  cases e <;> exact ⟨rfl, rfl, rfl⟩

/-- A completion keeps the bus port and the model's own fields. -/
theorem samePort_finish (e : ErrCode) (out : List Byte) (p : Nat) (s : State) : SamePort s (finish e out p s) := by
  cases e <;> exact ⟨rfl, rfl, rfl, rfl⟩

/-- A successful completion writes DOUT[0..len(out)) and no other byte (R16). -/
theorem sameMemoryBut_finish {out : List Byte} {n : Nat} (hn : out.length = n) (p : Nat) (s : State) :
    SameMemoryBut n s (finish .ok out p s) := sameMemoryBut_of_mem hn rfl

/-- What a successful completion leaves in DOUT (R16, R38). -/
theorem doutByte_finish {s : State} (hm : memWf s.mem = true) (out : List Byte) (p : Nat) {i : Nat}
    (h : i < out.length) : doutByte (finish .ok out p s) i = out[i] := doutByte_writeDout hm out h

/-- The result registers after a successful completion (R16). -/
theorem resultIs_finish {out : List Byte} {n p : Nat} (hn : out.length = n) (s : State) (ho : n < 65536)
    (hp : p < 32) : ResultIs .ok n p (finish .ok out p s) := by
  subst hn
  exact resultIs_completeWith .ok _ ho hp

@[simp] theorem doutByte_clearStream (s : State) (i : Nat) : doutByte (clearStream s) i = doutByte s i := rfl

@[simp] theorem dinByte_clearStream (s : State) (i : Nat) : dinByte (clearStream s) i = dinByte s i := rfl

theorem sameConfig_clearStream {s t : State} (h : SameConfig s t) : SameConfig s (clearStream t) := h

theorem sameKeys_clearStream {s t : State} (h : SameKeys s t) : SameKeys s (clearStream t) := h

theorem samePort_clearStream {s t : State} (h : SamePort s t) : SamePort s (clearStream t) := h

theorem sameMemoryBut_clearStream {n : Nat} {s t : State} (h : SameMemoryBut n s t) :
    SameMemoryBut n s (clearStream t) := h

theorem cleared_clearStream (s : State) : Cleared (clearStream s) := ⟨rfl, rfl, rfl⟩

/-- A failing command changes the result registers and nothing else (R16, R204). -/
theorem failedWith_fail (code : ErrCode) (s : State) : FailedWith code s (fail code s) := by
  rw [fail_eq]
  exact ⟨resultIs_completeWith code s (by omega) (by omega), ⟨rfl, rfl, rfl, rfl, rfl⟩, ⟨rfl, rfl⟩,
    ⟨rfl, rfl, rfl⟩, ⟨rfl, rfl, rfl, rfl⟩, fun _ => rfl⟩

/-- A failing Final changes the result registers and clears the stream, and nothing else (R175). -/
theorem failedAndCleared_fail (code : ErrCode) (s : State) :
    FailedAndCleared code s (clearStream (fail code s)) := by
  rw [fail_eq]
  exact ⟨resultIs_completeWith code s (by omega) (by omega), ⟨rfl, rfl, rfl, rfl, rfl⟩, ⟨rfl, rfl⟩,
    ⟨rfl, rfl, rfl⟩, ⟨rfl, rfl, rfl, rfl⟩, fun _ => rfl⟩

/-- Every completion leaves BUSY = 0 and DONE = 1 (R16). -/
theorem finish_busy_done (e : ErrCode) (out : List Byte) (p : Nat) (s : State) :
    busy (finish e out p s) = false ∧ (finish e out p s).done = true := by
  cases e <;> exact ⟨rfl, rfl⟩

theorem modeCheck_zero : modeCheck 0 = .ok := by decide

theorem modeCheck_ok_iff (m : BitVec 3) : modeCheck m = .ok ↔ m = 0 := by revert m; decide

theorem modeCheck_reserved {m : BitVec 3} (h1 : 1 ≤ m.toNat) (h2 : m.toNat ≤ 3) : modeCheck m = .unsup := by
  simp only [modeCheck]
  rw [if_neg (by omega), if_pos h2]

theorem modeCheck_unrecognized {m : BitVec 3} (h : 4 ≤ m.toNat) : modeCheck m = .fatal := by
  simp only [modeCheck]
  rw [if_neg (by omega), if_neg (by omega)]

theorem holdsBack_eq_true_iff (dir : Direction) (s : State) :
    holdsBack dir s = true ↔ s.params.holdback = true ∧ dir = .dec ∧ s.pad = .pkcs := by
  simp [holdsBack, and_assoc]

/-- Everything an Update can do (R152, R153). -/
theorem updateCommand_cases {dir : Direction} {n : Nat} {s t : State} (h : updateCommand dir n s = .next t) :
    (updateCheck dir n s ≠ .ok ∧ t = fail (updateCheck dir n s) s) ∨
    (updateCheck dir n s = .ok ∧ onlyBuffers (holdsBack dir s) (s.buf.length + n) = true ∧
      t = finish .ok [] 0 (setStream s.cv (s.buf ++ dinBytes s n) s)) ∨
    (updateCheck dir n s = .ok ∧ onlyBuffers (holdsBack dir s) (s.buf.length + n) = false ∧
      ∃ k, s.rk = some k ∧ t = updateBlocks (Config.blockEncrypt k) dir n s) := by
  unfold updateCommand at h
  generalize hc : updateCheck dir n s = c at h ⊢
  cases c
  case ok =>
    refine .inr ?_
    simp only [updateBody] at h
    split at h
    · rename_i ho
      cases h
      exact .inl ⟨rfl, ho, rfl⟩
    · rename_i ho
      split at h
      · rename_i k hk
        cases h
        exact .inr ⟨rfl, by simpa using ho, k, hk, rfl⟩
      · cases h
  all_goals
    cases h
    exact .inl ⟨by decide, rfl⟩

/-- An Update whose checks pass is in its phase, under CFB, and within DIN (R152). -/
theorem updateCheck_ok_iff (dir : Direction) (n : Nat) (s : State) :
    updateCheck dir n s = .ok ↔ n ≤ s.params.dinSize ∧ s.phase = streamPhase dir ∧ s.mode = 0 := by
  unfold updateCheck
  split
  · rename_i h
    exact ⟨fun h' => (by cases h'), fun h' => absurd h'.1 (by omega)⟩
  · rename_i h
    split
    · rename_i hp
      exact ⟨fun h' => (by cases h'), fun h' => absurd h'.2.1 hp⟩
    · rename_i hp
      rw [modeCheck_ok_iff]
      exact ⟨fun h' => ⟨by omega, not_not.1 hp, h'⟩, fun h' => h'.2.2⟩

/-- The result of a Final before the clear, everything it can be (R171 to R174). -/
theorem finalBody_cases {dir : Direction} {s t : State} (h : finalBody dir s = .next t) :
    (s.pad = .noPadding ∧ s.buf = [] ∧ t = finish .ok [] 0 s) ∨
    (s.pad = .noPadding ∧ s.buf ≠ [] ∧ ∃ k, s.rk = some k ∧ t = finalPlain (Config.blockEncrypt k) s) ∨
    (s.pad = .pkcs ∧ dir = .enc ∧ 16 ≤ s.buf.length ∧ t = fail .pad s) ∨
    (s.pad = .pkcs ∧ dir = .enc ∧ s.buf.length < 16 ∧ ∃ k padded, s.rk = some k ∧
      applyPadding (block s.buf) s.buf.length .pkcs = some (16 - s.buf.length, padded) ∧
      t = finalEncPkcs (Config.blockEncrypt k) (16 - s.buf.length) padded s) ∨
    (s.pad = .pkcs ∧ dir = .dec ∧ s.buf.length ≠ 16 ∧ t = fail .len s) ∨
    (s.pad = .pkcs ∧ dir = .dec ∧ s.buf.length = 16 ∧ ∃ k, s.rk = some k ∧
      t = finalDecPkcs (Config.blockEncrypt k) s) := by
  have keyed {f : (Bytes16 → Bytes16) → State → State} (h : withKeystream f s = .next t) :
      ∃ k, s.rk = some k ∧ t = f (Config.blockEncrypt k) s := by
    unfold withKeystream at h
    split at h
    · rename_i k hk; cases h; exact ⟨k, hk, rfl⟩
    · cases h
  unfold finalBody at h
  generalize hp : s.pad = pd at h
  cases pd with
  | noPadding =>
    simp only at h
    split at h
    · rename_i hb; cases h; exact .inl ⟨rfl, hb, rfl⟩
    · rename_i hb
      exact .inr (.inl ⟨rfl, hb, keyed h⟩)
  | pkcs =>
    cases dir with
    | enc =>
      by_cases hb : s.buf.length < 16
      · simp only [applyPadding_pkcs hb] at h
        obtain ⟨k, hk, ht⟩ := keyed h
        exact .inr (.inr (.inr (.inl ⟨rfl, rfl, hb, k, _, hk, applyPadding_pkcs hb, ht⟩)))
      · simp only [applyPadding_pkcs_none (not_lt.1 hb)] at h
        cases h
        exact .inr (.inr (.inl ⟨rfl, rfl, not_lt.1 hb, rfl⟩))
    | dec =>
      simp only at h
      split at h
      · rename_i hb; cases h; exact .inr (.inr (.inr (.inr (.inl ⟨rfl, rfl, hb, rfl⟩))))
      · rename_i hb
        obtain ⟨k, hk, ht⟩ := keyed h
        exact .inr (.inr (.inr (.inr (.inr ⟨rfl, rfl, not_not.1 hb, k, hk, ht⟩))))

/-- Everything a Final can do (R170, R171): a failing check or a result, then the clear. -/
theorem finalCommand_cases {dir : Direction} {s t : State} (h : finalCommand dir s = .next t) :
    (finalCheck dir s ≠ .ok ∧ t = clearStream (fail (finalCheck dir s) s)) ∨
    (finalCheck dir s = .ok ∧ ∃ r, finalBody dir s = .next r ∧ t = clearStream r) := by
  unfold finalCommand at h
  generalize finalCheck dir s = c at h ⊢
  cases c
  case ok =>
    refine .inr ⟨rfl, ?_⟩
    simp only at h
    generalize finalBody dir s = o at h ⊢
    cases o with
    | next r => cases h; exact ⟨r, rfl, rfl⟩
    | fault f => cases h
    | refused r => cases h
  all_goals
    cases h
    exact .inl ⟨by decide, rfl⟩

theorem finalCheck_ok_iff (dir : Direction) (s : State) :
    finalCheck dir s = .ok ↔ s.phase = streamPhase dir ∧ s.mode = 0 := by
  unfold finalCheck
  split
  · rename_i hp
    exact ⟨fun h' => (by cases h'), fun h' => absurd h'.1 hp⟩
  · rename_i hp
    rw [modeCheck_ok_iff]
    exact ⟨fun h' => ⟨not_not.1 hp, h'⟩, fun h' => h'.2⟩

/-- A Final answers a next state exactly where its result does. -/
theorem finalCommand_eq {dir : Direction} {s r : State} (hc : finalCheck dir s = .ok)
    (h : finalBody dir s = .next r) : finalCommand dir s = .next (clearStream r) := by
  simp only [finalCommand, hc, h, thenClear]

theorem finalCommand_fail {dir : Direction} {s : State} {code : ErrCode} (hc : finalCheck dir s = code)
    (h : code ≠ .ok) : finalCommand dir s = .next (clearStream (fail code s)) := by
  simp only [finalCommand, hc]
  cases code <;> first | exact absurd rfl h | rfl

theorem updateCommand_fail {dir : Direction} {n : Nat} {s : State} {code : ErrCode}
    (hc : updateCheck dir n s = code) (h : code ≠ .ok) : updateCommand dir n s = .next (fail code s) := by
  simp only [updateCommand, hc]

end Sys2Proof.Machine
end

