-- ==== Sys2Proof/Laws/Exec.lean ====
section
/-! SUPPORT. What every command has in common: it ends in one completion (R16), which a Final follows with the clear
(R170), of a state that keeps PARAM, CTRL, CFG, the bus port and the model's own fields. -/

namespace Sys2Proof.Machine

/-- A Final ends in a completion and the clear. -/
theorem finalCommand_completes {dir : Direction} {s t : State} (h : finalCommand dir s = .next t) :
    ∃ e out p, t = clearStream (finish e out p s) := by
  rcases finalCommand_cases h with ⟨_, ht⟩ | ⟨_, r, hr, ht⟩
  · exact ⟨_, _, _, ht⟩
  · subst ht
    rcases finalBody_cases hr with ⟨_, _, hr⟩ | ⟨_, _, _, _, hr⟩ | ⟨_, _, _, hr⟩ | ⟨_, _, _, _, _, _, _, hr⟩ |
      ⟨_, _, _, hr⟩ | ⟨_, _, _, _, _, hr⟩
    case inr.inr.inr.inr.inr =>
      subst hr
      simp only [finalDecPkcs]
      split <;> exact ⟨_, _, _, rfl⟩
    all_goals exact ⟨_, _, _, congrArg clearStream hr⟩

/-- An Update ends in a completion. -/
theorem updateCommand_completes {dir : Direction} {n : Nat} {s t : State} (h : updateCommand dir n s = .next t) :
    ∃ e out p cv buf, t = finish e out p (setStream cv buf s) := by
  rcases updateCommand_cases h with ⟨_, ht⟩ | ⟨_, _, ht⟩ | ⟨_, _, _, _, ht⟩
  · exact ⟨_, _, _, s.cv, s.buf, ht⟩
  · exact ⟨_, _, _, _, _, ht⟩
  · simp only [updateBlocks] at ht
    exact ⟨_, _, _, _, _, ht⟩

/-- The bus port, the model's own fields, PARAM, CTRL and CFG are unchanged. -/
def SamePortAndModes (s u : State) : Prop :=
  SamePort s u ∧ u.params = s.params ∧ u.ie = s.ie ∧ u.mode = s.mode ∧ u.pad = s.pad

theorem samePortAndModes_refl (s : State) : SamePortAndModes s s := ⟨⟨rfl, rfl, rfl, rfl⟩, rfl, rfl, rfl, rfl⟩

/-- `t` is a completion of a state that keeps the port and the modes, followed by the clear where `i` is a Final. -/
def Completion (i : Instr) (s t : State) : Prop :=
  ∃ e out p u, (t = finish e out p u ∨ ((i = .encFinal ∨ i = .decFinal) ∧ t = clearStream (finish e out p u))) ∧
    SamePortAndModes s u

theorem completion_same {i : Instr} {e : ErrCode} {out : List Byte} {p : Nat} {s : State} :
    Completion i s (finish e out p s) := ⟨e, out, p, s, .inl rfl, samePortAndModes_refl s⟩

theorem completion_of {i : Instr} {e : ErrCode} {out : List Byte} {p : Nat} {s u : State}
    (h : SamePortAndModes s u) : Completion i s (finish e out p u) := ⟨e, out, p, u, .inl rfl, h⟩

theorem completion_init (i : Instr) (dir : Direction) (s : State) : Completion i s (initCommand dir s) := by
  unfold initCommand
  split
  · exact completion_same
  · split
    · exact completion_same
    · exact completion_of ⟨⟨rfl, rfl, rfl, rfl⟩, rfl, rfl, rfl, rfl⟩

theorem completion_update {i : Instr} {dir : Direction} {n : Nat} {s t : State} (h : updateCommand dir n s = .next t) :
    Completion i s t := by
  obtain ⟨e, out, p, cv, buf, rfl⟩ := updateCommand_completes h
  exact completion_of ⟨⟨rfl, rfl, rfl, rfl⟩, rfl, rfl, rfl, rfl⟩

theorem completion_final {i : Instr} {dir : Direction} {s t : State} (hi : i = .encFinal ∨ i = .decFinal)
    (h : finalCommand dir s = .next t) : Completion i s t := by
  obtain ⟨e, out, p, ht⟩ := finalCommand_completes h
  exact ⟨e, out, p, s, .inr ⟨hi, ht⟩, samePortAndModes_refl s⟩

/-- Every command ends in a completion, of a state that keeps PARAM, CTRL, CFG and the port. -/
theorem exec_completes {i : Instr} {s t : State} (h : exec i s = .next t) : Completion i s t := by
  cases i with
  | keysched =>
    cases h
    split
    · unfold expandKey
      split <;> exact completion_of ⟨⟨rfl, rfl, rfl, rfl⟩, rfl, rfl, rfl, rfl⟩
    · exact completion_same
  | encInit => cases h; exact completion_init _ _ s
  | decInit => cases h; exact completion_init _ _ s
  | encUpdate n => exact completion_update h
  | decUpdate n => exact completion_update h
  | encFinal => exact completion_final (.inl rfl) h
  | decFinal => exact completion_final (.inr rfl) h
  | padApply p n => cases h; unfold padApplyResult; split <;> split <;> exact completion_same
  | padCheck p => cases h; unfold padCheckResult; split <;> exact completion_same
  | zeroize => cases h; exact completion_of ⟨⟨rfl, rfl, rfl, rfl⟩, rfl, rfl, rfl, rfl⟩

end Sys2Proof.Machine
end

