-- ==== Sys2Proof/Laws/PerInstr.lean ====
section
/-! SUPPORT. One lemma per instruction: its encoding matches its row of `30_encoding.md` R94. -/

namespace Sys2Proof.Laws

/-- The match of the instruction's row (R94). -/
def rowMatch : Instr → Word
  | .keysched => 0x00000001
  | .encInit => 0x00000002
  | .decInit => 0x00000003
  | .encUpdate _ => 0x00000004
  | .decUpdate _ => 0x00000005
  | .encFinal => 0x00000006
  | .decFinal => 0x00000007
  | .padApply _ _ => 0x00000008
  | .padCheck _ => 0x00000009
  | .zeroize => 0x0000000A

/-- The mask of the instruction's row (R94). -/
def rowMask : Instr → Word
  | .keysched => 0xFFFFFFFF
  | .encInit => 0xFFFFFFFF
  | .decInit => 0xFFFFFFFF
  | .encUpdate _ => 0x0000FFFF
  | .decUpdate _ => 0x0000FFFF
  | .encFinal => 0xFFFFFFFF
  | .decFinal => 0xFFFFFFFF
  | .padApply _ _ => 0x0000FEFF
  | .padCheck _ => 0xFFFFFEFF
  | .zeroize => 0xFFFFFFFF

/-- The encoding of `i` matches its row. -/
def EncodeMatchesRow.Statement (i : Instr) : Prop := encode i &&& rowMask i = rowMatch i

/-- A mask that keeps the low 16 bits sees neither LEN nor what its own bits leave out. -/
theorem cmdWord_and_low {op : BitVec 4} {p : Bool} (n : Nat) (m : BitVec 16) :
    cmdWord op p n &&& (0#16 ++ m) = 0#16 ++ ((0#7 ++ (BitVec.ofBool p ++ (0#4 ++ op))) &&& m) := by
  have h : cmdWord op p n = BitVec.ofNat 16 n ++ (0#7 ++ (BitVec.ofBool p ++ (0#4 ++ op))) := rfl
  rw [h, BitVec.and_append]
  simp

theorem EncodeMatchesRow.keysched : Statement .keysched := by unfold Statement; decide
theorem EncodeMatchesRow.encInit : Statement .encInit := by unfold Statement; decide
theorem EncodeMatchesRow.decInit : Statement .decInit := by unfold Statement; decide
theorem EncodeMatchesRow.encUpdate (len : Nat) : Statement (.encUpdate len) :=
  (cmdWord_and_low len 0xFFFF).trans (by decide : _ = (4 : Word))
theorem EncodeMatchesRow.decUpdate (len : Nat) : Statement (.decUpdate len) :=
  (cmdWord_and_low len 0xFFFF).trans (by decide : _ = (5 : Word))
theorem EncodeMatchesRow.encFinal : Statement .encFinal := by unfold Statement; decide
theorem EncodeMatchesRow.decFinal : Statement .decFinal := by unfold Statement; decide
theorem EncodeMatchesRow.padApply (p : Padding) (len : Nat) : Statement (.padApply p len) := by
  cases p
  · exact (cmdWord_and_low len 0xFEFF).trans (by decide : _ = (8 : Word))
  · exact (cmdWord_and_low len 0xFEFF).trans (by decide : _ = (8 : Word))
theorem EncodeMatchesRow.padCheck (p : Padding) : Statement (.padCheck p) := by
  cases p <;> (unfold Statement; decide)
theorem EncodeMatchesRow.zeroize : Statement .zeroize := by unfold Statement; decide

end Sys2Proof.Laws
end

