-- ==== Sys2Proof/Laws/Registers.lean ====
section
/-! SUPPORT. The control registers as numbers (R22 to R31), and single bits of STATUS. -/

namespace Sys2Proof.Machine

theorem paramWord_toNat (p : Params) : (paramWord p).toNat = p.dinSize + 65536 * p.holdback.toNat := by
  have h := dinSize_le p
  have e : (paramWord p).toNat = 2 ^ 17 * (0#15).toNat +
      (BitVec.ofBool p.holdback ++ BitVec.ofNat 16 p.dinSize).toNat := toNat_append_eq _ _
  rw [e, toNat_append_eq, BitVec.toNat_ofBool, BitVec.toNat_ofNat, BitVec.toNat_ofNat]
  omega

theorem ctrlWord_toNat (s : State) : (ctrlWord s).toNat = s.ie.toNat := by
  have e : (ctrlWord s).toNat = 2 ^ 1 * (0#31).toNat + (BitVec.ofBool s.ie).toNat := toNat_append_eq _ _
  rw [e, BitVec.toNat_ofBool, BitVec.toNat_ofNat]
  omega

theorem cfgWord_toNat (s : State) : (cfgWord s).toNat = s.mode.toNat + 16 * (paddingBit s.pad).toNat := by
  have e : (cfgWord s).toNat = 2 ^ 5 * (0#27).toNat +
      (BitVec.ofBool (paddingBit s.pad) ++ (0#1 ++ s.mode)).toNat := toNat_append_eq _ _
  rw [e, toNat_append_eq, toNat_append_eq, BitVec.toNat_ofBool, BitVec.toNat_ofNat, BitVec.toNat_ofNat]
  omega

/-- STATUS as a number of its fields (R25). -/
theorem statusWord_toNat (s : State) : (statusWord s).toNat =
    (busy s).toNat + 2 * s.done.toNat + 4 * (phaseCode s.phase).toNat + 16 * (rkv s).toNat +
      256 * (errCode s.err).toNat := by
  have e : (statusWord s).toNat = 2 ^ 16 * (0#16).toNat + (errCode s.err ++ (0#3 ++ (BitVec.ofBool (rkv s) ++
      (phaseCode s.phase ++ (BitVec.ofBool s.done ++ BitVec.ofBool (busy s)))))).toNat := toNat_append_eq _ _
  rw [e, toNat_append_eq, toNat_append_eq, toNat_append_eq, toNat_append_eq, toNat_append_eq]
  simp only [BitVec.toNat_ofBool, BitVec.toNat_ofNat]
  omega

/-- STATUS[0] is BUSY (R25). -/
theorem statusWord_bit0 (s : State) : (statusWord s).getLsbD 0 = busy s := by
  have h := statusWord_toNat s
  rw [BitVec.getLsbD, Nat.testBit_eq_decide_div_mod_eq, h]
  cases busy s <;> simp <;> omega

/-- STATUS[1] is DONE (R25). -/
theorem statusWord_bit1 (s : State) : (statusWord s).getLsbD 1 = s.done := by
  have h := statusWord_toNat s
  have hb := Bool.toNat_lt (busy s)
  rw [BitVec.getLsbD, Nat.testBit_eq_decide_div_mod_eq, h]
  cases s.done <;> simp <;> omega

end Sys2Proof.Machine
end

