-- ==== Sys2Proof/Laws/Step.lean ====
section
/-! SUPPORT. The one case analysis of a step. -/

namespace Sys2Proof.Machine

/-- Everything one cycle of the outside world can do (R60). -/
theorem hostCycle_cases (s : State) :
    (s.host = [] ∧ hostCycle s = s) ∨
    (∃ es, s.host = .idle :: es ∧ hostCycle s = { s with host := es }) ∨
    (∃ t es, s.host = .txn t :: es ∧ hostCycle s = busTxn t { s with host := es }) ∨
    (∃ es, s.host = .reset :: es ∧ hostCycle s = resetEngine { s with host := es }) := by
  unfold hostCycle
  split
  · rename_i h; exact .inl ⟨h, rfl⟩
  · rename_i es h; exact .inr (.inl ⟨es, h, rfl⟩)
  · rename_i t es h; exact .inr (.inr (.inl ⟨t, es, h, rfl⟩))
  · rename_i es h; exact .inr (.inr (.inr ⟨es, h, rfl⟩))

theorem resetPending_iff (s : State) : resetPending s = true ↔ ∃ es, s.host = .reset :: es := by
  unfold resetPending
  split
  · rename_i es h; simp [h]
  · rename_i h
    refine ⟨fun h' => by simp at h', fun ⟨es, h'⟩ => absurd h' (h es)⟩

/-- A step on a due command is the engine's (R74). -/
theorem step_due {s : State} {w : Word} (h : Due w s) : step s = engineStep w s := by
  obtain ⟨h1, h2, h3⟩ := h
  simp [step, h1, h2, h3]

/-- Everything a step can do: a cycle with rst_n low, the engine's step on a due command, or a cycle of the outside
world with no command due. -/
theorem step_cases {s t : State} (h : step s = .next t) :
    (resetPending s = true ∧ t = hostCycle s) ∨
    (∃ w i, Due w s ∧ decode w = .ok i ∧ exec i s = .next t) ∨
    (∃ w r, Due w s ∧ decode w = .error r ∧ t = rejectCommand r s) ∨
    (resetPending s = false ∧ (∃ w, s.latch = some w) ∧ s.wait ≠ 0 ∧ t = hostCycle (countDown s)) ∨
    (resetPending s = false ∧ s.latch = none ∧ t = hostCycle s) := by
  unfold step at h
  split at h
  · rename_i hr; cases h; exact .inl ⟨hr, rfl⟩
  · rename_i hr
    have hr : resetPending s = false := by simpa using hr
    split at h
    · rename_i w hl hw
      unfold engineStep at h
      split at h
      · rename_i i hd; exact .inr (.inl ⟨w, i, ⟨hr, hl, hw⟩, hd, h⟩)
      · rename_i r hd; cases h; exact .inr (.inr (.inl ⟨w, r, ⟨hr, hl, hw⟩, hd, rfl⟩))
    · rename_i w n hl hw
      cases h
      exact .inr (.inr (.inr (.inl ⟨hr, ⟨w, hl⟩, by omega, rfl⟩)))
    · rename_i hl
      cases h
      exact .inr (.inr (.inr (.inr ⟨hr, hl, rfl⟩)))

/-- A run of k + 1 steps is a step and a run of k, on any machine. -/
theorem hostRun_succ (M : Host.Core) {s t : M.State} (k : Nat) (h : M.step s = .next t) :
    M.run (k + 1) s = M.run k t := by
  simp only [Host.Core.run, h]

/-- A run of k + 1 steps is a step and a run of k. -/
theorem run_succ {s t : State} (k : Nat) (h : step s = .next t) :
    Sys2Proof.core.run (k + 1) s = Sys2Proof.core.run k t := hostRun_succ Sys2Proof.core k h

end Sys2Proof.Machine
end

