-- ==== Sys2Proof/Laws/Streams.lean ====
section
/-! SUPPORT. The stream functions in a state of the invariant: an Update as one call of `takeBlocks`, its bounds, and
how two runs of `takeBlocks` join. -/

namespace Sys2Proof.Machine

theorem EngineInv.buf_length_le {s : State} (h : EngineInv s) : s.buf.length ≤ 16 := by
  rcases h.bufferBounded with h | h <;> omega

/-- A stream that runs has round keys (R41). -/
theorem EngineInv.roundKeys {s : State} {dir : Direction} (h : EngineInv s) (hp : s.phase = streamPhase dir) :
    ∃ k, s.rk = some k :=
  Option.isSome_iff_exists.1 (h.streamHasKeys (by rw [hp]; exact streamPhase_ne_idle dir))

/-- An Update whose checks pass, buffering or not, is one call of `takeBlocks` (R153, R154). -/
theorem updateCommand_eq {dir : Direction} {n : Nat} {s : State} {k : RoundKeys} (hb : s.buf.length ≤ 16)
    (hn : n ≤ s.params.dinSize) (hp : s.phase = streamPhase dir) (hm : s.mode = 0) (hk : s.rk = some k) :
    updateCommand dir n s = .next (
      let r := takeBlocks (Config.blockEncrypt k) dir (holdsBack dir s) (s.buf.length + n) s.cv
        (s.buf ++ dinBytes s n)
      finish .ok r.out 0 (setStream r.cv r.buf s)) := by
  have hc := (updateCheck_ok_iff dir n s).2 ⟨hn, hp, hm⟩
  simp only [updateCommand, hc, updateBody, hk]
  cases ho : onlyBuffers (holdsBack dir s) (s.buf.length + n) with
  | true =>
    rw [takeBlocks_stop _ _ _ _ _ _ (not_takesBlock_of_onlyBuffers (by simpa using ho))]
    simp
  | false =>
    simp only [updateBlocks]
    rw [stepBlocks_eq _ _ _ _ hb (by simpa using ho)]
    simp

/-- No Update emits more than DIN_SIZE bytes (R158). -/
theorem emitted_le_dinSize {s : State} {dir : Direction} {n : Nat} (h : EngineInv s) (hp : s.phase = streamPhase dir)
    (hn : n ≤ s.params.dinSize) : emitted (holdsBack dir s) (s.buf.length + n) ≤ s.params.dinSize := by
  have := dinSize_mod s.params
  have := h.buf_length_le
  unfold emitted
  split
  · omega
  · rename_i hh
    have : s.buf.length ≤ 15 := by
      rcases h.bufferBounded with h | ⟨_, h1, h2, h3⟩
      · exact h
      · refine absurd ((holdsBack_eq_true_iff dir s).2 ⟨h1, ?_, h3⟩) hh
        cases dir
        · exact absurd (hp.symm.trans h2) (by decide)
        · rfl
    omega

/-- The block relation of R113 along a run of `takeBlocks`; `c k` is the chaining variable before block k. -/
theorem takeBlocks_cfb (e : Bytes16 → Bytes16) (dir : Direction) (h : Bool) {f : Nat} (cv : Bytes16) {l : List Byte}
    (hf : l.length ≤ f) :
    ∃ c : Nat → Bytes16, c 0 = cv ∧ (takeBlocks e dir h f cv l).cv = c (emitted h l.length / 16) ∧
      ∀ (b : Nat) (j : Fin 16), b < emitted h l.length / 16 →
        let i := l.getD (16 * b + j.val) 0
        let o := (takeBlocks e dir h f cv l).out.getD (16 * b + j.val) 0
        o = (e (c b))[j] ^^^ i ∧ (c (b + 1))[j] = (match dir with | .enc => o | .dec => i) := by
  induction f generalizing cv l with
  | zero =>
    have hl : l = [] := List.length_eq_zero_iff.1 (by omega)
    subst hl
    refine ⟨fun _ => cv, rfl, by cases h <;> simp [takeBlocks], fun b j hb => ?_⟩
    cases h <;> simp [emitted] at hb
  | succ f ih =>
    cases ht : takesBlock h l.length with
    | false =>
      refine ⟨fun _ => cv, rfl, by rw [takeBlocks_stop _ _ _ _ _ _ ht], fun b j hb => ?_⟩
      rw [emitted_of_not_takes ht] at hb
      omega
    | true =>
      have h16 := sixteen_le_of_takes ht
      obtain ⟨c, hc0, hc1, hc2⟩ :=
        ih (feedback dir (block l) (stepOut e cv (block l))) (l := l.drop 16) (by simp; omega)
      rw [takeBlocks_succ _ _ _ _ _ _ ht, emitted_of_takes ht]
      simp only [List.length_drop] at hc1 hc2
      refine ⟨fun b => Nat.casesOn b cv c, rfl, ?_, ?_⟩
      · simp only
        rw [hc1, show (16 + emitted h (l.length - 16)) / 16 = emitted h (l.length - 16) / 16 + 1 by omega]
      · intro b j hb
        cases b with
        | zero =>
          have hj := j.isLt
          simp [hc0, stepOut, feedback, List.getElem?_append_left]
          cases dir <;> simp
        | succ b =>
          have := hc2 b j (by omega)
          have e2 : 16 + (16 * b + j.val) = 16 * (b + 1) + j.val := by omega
          have e3 : 16 * (b + 1) + j.val - 16 = 16 * b + j.val := by omega
          simp only [List.getD_eq_getElem?_getD, List.getElem?_drop, e2] at this
          simp only [List.getD_eq_getElem?_getD]
          rw [List.getElem?_append_right (by simp; omega)]
          simpa [e3] using this

/-- Running on `l ++ r` is running on `l`, then on what is left buffered followed by `r`. -/
theorem takeBlocks_append (e : Bytes16 → Bytes16) (dir : Direction) (h : Bool) {f g f2 : Nat} (cv : Bytes16)
    {l r : List Byte} (hf : l.length + r.length ≤ f) (hg : l.length ≤ g)
    (hf2 : (takeBlocks e dir h g cv l).buf.length + r.length ≤ f2) :
    takeBlocks e dir h f cv (l ++ r) =
      let a := takeBlocks e dir h g cv l
      let b := takeBlocks e dir h f2 a.cv (a.buf ++ r)
      { b with out := a.out ++ b.out } := by
  induction g generalizing cv l f f2 with
  | zero =>
    have hl : l = [] := List.length_eq_zero_iff.1 (by omega)
    subst hl
    simp [takeBlocks] at *
    exact takeBlocks_fuel e dir h cv hf hf2
  | succ g ih =>
    cases ht : takesBlock h l.length with
    | false =>
      rw [takeBlocks_stop _ _ _ _ _ _ ht] at hf2 ⊢
      simp at hf2 ⊢
      exact takeBlocks_fuel e dir h cv (by simpa using hf) (by simpa using hf2)
    | true =>
      have h16 := sixteen_le_of_takes ht
      have ht2 : takesBlock h (l ++ r).length = true := by
        cases h <;> simp [takesBlock] at * <;> omega
      obtain ⟨f, rfl⟩ : ∃ f', f = f' + 1 := ⟨f - 1, by omega⟩
      rw [takeBlocks_succ _ _ _ _ _ _ ht2]
      rw [takeBlocks_succ _ _ _ _ _ _ ht] at hf2 ⊢
      have hb : block (l ++ r) = block l := block_append_of_ge h16
      have hd : (l ++ r).drop 16 = l.drop 16 ++ r := by
        rw [List.drop_append]
        simp [show 16 - l.length = 0 by omega]
      rw [hb, hd, ih (f := f) (f2 := f2) _ (by simp; omega) (by simp; omega) hf2]
      simp

theorem dinBytes_append (s : State) (n m : Nat) :
    dinBytes s (n + m) = dinBytes s n ++ (List.range m).map (fun j => dinByte s (n + j)) := by
  simp [dinBytes, List.range_add, Function.comp_def]

end Sys2Proof.Machine
end

