-- ==== Sys2Proof/Laws/Transactions.lean ====
section
/-! SUPPORT. Accepted transactions in closed form: what a read answers and a write stores, byte by byte and in the four
lanes of R65, and what no transaction touches. -/

namespace Sys2Proof.Machine

/-- A legal read while no command runs (R67). -/
theorem busTxn_read {s : State} {x : Txn} (hw : x.write = false)
    (ha : sizeOk (classify s.params x.addr.toNat) x.size x.addr.toNat = true) (hb : busy s = false) :
    (busTxn x s).answer = some { rdata := readValue s x.size x.addr.toNat, resp := .okay } := by
  have : accepted s x = true := by simp [accepted, ha, hw]
  simp [busTxn, busRead, hw, this, hb, answerWith]

/-- A legal write while no command runs (R68). -/
theorem busTxn_write {s : State} {x : Txn} (hw : x.write = true)
    (ha : sizeOk (classify s.params x.addr.toNat) x.size x.addr.toNat = true) (hb : busy s = false) :
    busTxn x s = answerWith { rdata := drawWord s, resp := .okay }
      (writeValue x.size x.addr.toNat x.wdata (nextDraw s)) := by
  have : accepted s x = true := by simp [accepted, ha, hb]
  simp [busTxn, busWrite, hw, this]

/-- A byte read of a context register or a window (R65, R67). -/
theorem busTxn_readByte {s : State} {d : Word} {a : Nat} (hb : busy s = false) (ha : a < 2 ^ 14)
    (hu : classify s.params a ≠ .unmapped) (hc : ∀ r, classify s.params a ≠ .control r) :
    (busTxn { write := false, addr := BitVec.ofNat 14 a, size := .one, wdata := d } s).answer =
      some { rdata := (readByte s a).setWidth 32, resp := .okay } := by
  have hn : (BitVec.ofNat 14 a).toNat = a := by simp; omega
  rw [busTxn_read rfl (by simp only [hn]; cases h : classify s.params a <;> simp_all [sizeOk]) hb]
  simp only [hn]
  have : readValue s .one a = 0#24 ++ readByte s a := by
    unfold readValue
    cases h : classify s.params a <;> simp_all
  rw [this]
  congr 2
  apply BitVec.eq_of_toNat_eq
  rw [toNat_append_eq]
  simp
  omega

/-- While a command runs a transaction answers and draws, and does nothing else (R75). -/
theorem busTxn_busy {s : State} {x : Txn} (hb : busy s = true) :
    ∃ a d, busTxn x s = { s with answer := some a, draws := d } := by
  unfold busTxn
  split
  · rename_i hw
    rcases busWrite_cases x s with ⟨_, e⟩ | ⟨ha, _⟩
    · exact ⟨_, _, e⟩
    · exact absurd (not_busy_of_accepted ha hw) (by simp [hb])
  · rcases busRead_cases x s with ⟨_, e⟩ | ⟨_, _, _, e⟩ | ⟨_, _, e⟩
    · exact ⟨_, s.draws, e⟩
    · exact ⟨_, _, e⟩
    · exact ⟨_, s.draws, e⟩

/-- A cycle while a command runs, without a reset, moves only the port and the model's own fields (R72). -/
theorem hostCycle_busy {s : State} (hb : busy s = true) (hr : resetPending s = false) :
    ∃ h a d, hostCycle s = { s with host := h, answer := a, draws := d } := by
  rcases hostCycle_cases s with ⟨_, e⟩ | ⟨es, _, e⟩ | ⟨t, es, _, e⟩ | ⟨es, h, _⟩
  · exact ⟨s.host, s.answer, s.draws, e⟩
  · exact ⟨es, s.answer, s.draws, e⟩
  · obtain ⟨a, d, e2⟩ := busTxn_busy (x := t) (s := { s with host := es }) hb
    exact ⟨es, some a, d, e.trans e2⟩
  · rw [(resetPending_iff s).2 ⟨es, h⟩] at hr
    cases hr

/-! ### Stores, byte by byte and by four lanes -/

/-- KEY with its round keys set to invalid (R33). -/
def setKey (k : Bytes16) (s : State) : State := { s with key := k, rk := none }

/-- IV (R34). -/
def setIv (v : Bytes16) (s : State) : State := { s with iv := v }

/-- The windows' memory. -/
def setMem (m : Memory) (s : State) : State := { s with mem := m }

theorem sameEngine_setKey (s : State) (a : BusAnswer) (k : Bytes16) :
    SameEngine s { answerWith a (setKey k (nextDraw s)) with key := s.key, rk := s.rk } := sameEngine_refl s

theorem sameEngine_setIv (s : State) (a : BusAnswer) (v : Bytes16) :
    SameEngine s { answerWith a (setIv v (nextDraw s)) with iv := s.iv } := sameEngine_refl s

theorem sameEngine_setMem (s : State) (a : BusAnswer) (m : Memory) :
    SameEngine s { answerWith a (setMem m (nextDraw s)) with mem := s.mem } := sameEngine_refl s

theorem storeByte_key {s : State} (hp : s.phase = .idle) {i : Nat} (hi : i < 16) (b : Byte) :
    storeByte (0x40 + i) b s = setKey (s.key.setIfInBounds i b) s := by
  have hr : byteRegAt (0x40 + i) = .key := by unfold byteRegAt; rw [if_pos (by omega)]
  unfold storeByte
  rw [classify_context _ (by omega) (by omega), hr, show (0x40 + i) % 16 = i by omega]
  simp [hp, setKey]

theorem storeByte_iv {s : State} (hp : s.phase = .idle) {i : Nat} (hi : i < 16) (b : Byte) :
    storeByte (0x50 + i) b s = setIv (s.iv.setIfInBounds i b) s := by
  have hr : byteRegAt (0x50 + i) = .iv := by unfold byteRegAt; rw [if_neg (by omega), if_pos (by omega)]
  unfold storeByte
  rw [classify_context _ (by omega) (by omega), hr, show (0x50 + i) % 16 = i by omega]
  simp [hp, setIv]

/-- KEY and IV are locked while a stream runs (R243). -/
theorem storeByte_locked {s : State} (hp : s.phase ≠ .idle) {a : Nat} (h1 : 0x40 ≤ a) (h2 : a < 0x60) (b : Byte) :
    storeByte a b s = s := by
  unfold storeByte
  rw [classify_context _ (by omega) (by omega)]
  by_cases h : a < 0x50
  · simp only [byteRegAt, if_pos h, if_neg hp]
  · simp only [byteRegAt, if_neg h, if_pos h2, if_neg hp]

theorem storeByte_din {s : State} {a : Nat} (h1 : 0x1000 ≤ a) (h2 : a < 0x1000 + s.params.dinSize) (b : Byte) :
    storeByte a b s = setMem (writeMem s.mem a b) s := by
  unfold storeByte
  rw [classify_din _ h1 h2]
  rfl

/-- Four bytes stored from index i of a 16-byte value. -/
def storeFour (r : Bytes16) (i : Nat) (b0 b1 b2 b3 : Byte) : Bytes16 :=
  (((r.setIfInBounds i b0).setIfInBounds (i + 1) b1).setIfInBounds (i + 2) b2).setIfInBounds (i + 3) b3

theorem storeBytes_key {s : State} (hp : s.phase = .idle) {i : Nat} (hi : i + 3 < 16) (b0 b1 b2 b3 : Byte) :
    storeByte (0x40 + i + 3) b3 (storeByte (0x40 + i + 2) b2 (storeByte (0x40 + i + 1) b1 (storeByte (0x40 + i) b0 s))) =
      setKey (storeFour s.key i b0 b1 b2 b3) s := by
  have e2 := storeByte_key (s := setKey (s.key.setIfInBounds i b0) s) hp (show i + 1 < 16 by omega) b1
  have e3 := storeByte_key (s := setKey ((s.key.setIfInBounds i b0).setIfInBounds (i + 1) b1) s) hp
    (show i + 2 < 16 by omega) b2
  have e4 := storeByte_key
    (s := setKey (((s.key.setIfInBounds i b0).setIfInBounds (i + 1) b1).setIfInBounds (i + 2) b2) s) hp
    (show i + 3 < 16 by omega) b3
  rw [storeByte_key hp (show i < 16 by omega) b0]
  refine (congrArg (storeByte _ b3) (congrArg (storeByte _ b2) e2)).trans ?_
  exact (congrArg (storeByte _ b3) e3).trans e4

theorem storeBytes_iv {s : State} (hp : s.phase = .idle) {i : Nat} (hi : i + 3 < 16) (b0 b1 b2 b3 : Byte) :
    storeByte (0x50 + i + 3) b3 (storeByte (0x50 + i + 2) b2 (storeByte (0x50 + i + 1) b1 (storeByte (0x50 + i) b0 s))) =
      setIv (storeFour s.iv i b0 b1 b2 b3) s := by
  have e2 := storeByte_iv (s := setIv (s.iv.setIfInBounds i b0) s) hp (show i + 1 < 16 by omega) b1
  have e3 := storeByte_iv (s := setIv ((s.iv.setIfInBounds i b0).setIfInBounds (i + 1) b1) s) hp
    (show i + 2 < 16 by omega) b2
  have e4 := storeByte_iv
    (s := setIv (((s.iv.setIfInBounds i b0).setIfInBounds (i + 1) b1).setIfInBounds (i + 2) b2) s) hp
    (show i + 3 < 16 by omega) b3
  rw [storeByte_iv hp (show i < 16 by omega) b0]
  refine (congrArg (storeByte _ b3) (congrArg (storeByte _ b2) e2)).trans ?_
  exact (congrArg (storeByte _ b3) e3).trans e4

theorem storeBytes_din {s : State} {a : Nat} (h1 : 0x1000 ≤ a) (h2 : a + 3 < 0x1000 + s.params.dinSize)
    (b0 b1 b2 b3 : Byte) :
    storeByte (a + 3) b3 (storeByte (a + 2) b2 (storeByte (a + 1) b1 (storeByte a b0 s))) =
      setMem (writeMem (writeMem (writeMem (writeMem s.mem a b0) (a + 1) b1) (a + 2) b2) (a + 3) b3) s := by
  have e2 := storeByte_din (s := setMem (writeMem s.mem a b0) s) (a := a + 1) (by omega)
    (show a + 1 < 0x1000 + s.params.dinSize by omega) b1
  have e3 := storeByte_din (s := setMem (writeMem (writeMem s.mem a b0) (a + 1) b1) s) (a := a + 2) (by omega)
    (show a + 2 < 0x1000 + s.params.dinSize by omega) b2
  have e4 := storeByte_din (s := setMem (writeMem (writeMem (writeMem s.mem a b0) (a + 1) b1) (a + 2) b2) s)
    (a := a + 3) (by omega) (show a + 3 < 0x1000 + s.params.dinSize by omega) b3
  rw [storeByte_din h1 (by omega) b0]
  refine (congrArg (storeByte _ b3) (congrArg (storeByte _ b2) e2)).trans ?_
  exact (congrArg (storeByte _ b3) e3).trans e4

theorem setIfInBounds_getElem (r : Bytes16) {k : Nat} (b : Byte) (j : Fin 16) :
    (r.setIfInBounds k b)[j] = if j.val = k then b else r[j] := by
  simp only [Fin.getElem_fin, Vector.getElem_setIfInBounds]
  by_cases h : k = j.val <;> simp [h, eq_comm]

/-- The four big-endian lanes of a 32-bit write (R65). -/
theorem storeFour_getElem (r : Bytes16) (i : Nat) (v : Word) (j : Fin 16) :
    (storeFour r i (v.extractLsb' 24 8) (v.extractLsb' 16 8) (v.extractLsb' 8 8) (v.extractLsb' 0 8))[j] =
      if i ≤ j.val ∧ j.val < i + 4 then (v >>> (24 - 8 * (j.val - i))).setWidth 8 else r[j] := by
  have ext : ∀ k, v.extractLsb' k 8 = (v >>> k).setWidth 8 := fun k => BitVec.eq_of_toNat_eq (by simp)
  simp only [storeFour, setIfInBounds_getElem, ext]
  by_cases h3 : j.val = i + 3
  · rw [if_pos h3, if_pos (by omega)]; simp [h3]
  · rw [if_neg h3]
    by_cases h2 : j.val = i + 2
    · rw [if_pos h2, if_pos (by omega)]; simp [h2]
    · rw [if_neg h2]
      by_cases h1 : j.val = i + 1
      · rw [if_pos h1, if_pos (by omega)]; simp [h1]
      · rw [if_neg h1]
        by_cases h0 : j.val = i
        · rw [if_pos h0, if_pos (by omega)]; simp [h0]
        · rw [if_neg h0, if_neg (by omega)]

/-- No transaction touches PHASE, CV or BUF, and in a stream none touches CFG, IV, KEY or RK (R243). -/
theorem busTxn_keeps (x : Txn) (s : State) :
    SameStream s (busTxn x s) ∧ (s.phase ≠ .idle → (busTxn x s).mode = s.mode ∧ (busTxn x s).pad = s.pad ∧
      (busTxn x s).iv = s.iv ∧ (busTxn x s).key = s.key ∧ (busTxn x s).rk = s.rk) := by
  let P (u : State) : Prop := SameStream s u ∧
    (s.phase ≠ .idle → u.mode = s.mode ∧ u.pad = s.pad ∧ u.iv = s.iv ∧ u.key = s.key ∧ u.rk = s.rk)
  have hs : P s := ⟨⟨rfl, rfl, rfl⟩, fun _ => ⟨rfl, rfl, rfl, rfl, rfl⟩⟩
  have hn : P (nextDraw s) := hs
  unfold busTxn
  split
  · rcases busWrite_cases x s with ⟨_, e⟩ | ⟨_, e⟩ <;> rw [e]
    · exact hs
    · refine (?_ : P (writeValue x.size x.addr.toNat x.wdata (nextDraw s)))
      refine writeValue_induct _ _ _ hn (fun r _ => ?_) (fun u c b hu => ?_)
      · rcases writeControl_cases r x.wdata (nextDraw s) with e | ⟨_, e⟩ | ⟨_, e⟩ | ⟨_, e⟩ | ⟨_, hp, e⟩ <;> rw [e]
        · exact hn
        · exact hn
        · exact hn
        · exact hn
        · exact ⟨⟨rfl, rfl, rfl⟩, fun h => absurd hp h⟩
      · rcases storeByte_cases c b u with e | ⟨_, _, hp, e⟩ | ⟨_, _, hp, e⟩ | ⟨_, _, e⟩ <;> rw [e]
        · exact hu
        · exact ⟨hu.1, fun h => absurd (hu.1.1.symm.trans hp) h⟩
        · exact ⟨hu.1, fun h => absurd (hu.1.1.symm.trans hp) h⟩
        · exact hu
  · rcases busRead_cases x s with ⟨_, e⟩ | ⟨_, _, _, e⟩ | ⟨_, _, e⟩ <;> rw [e] <;> exact hs

end Sys2Proof.Machine
end

