-- ==== Sys2Proof/Tests/Slice0.lean ====
section
/-! SUPPORT. Tests: the expected results are the vectors of `95_test_vectors.md`, named in each comment, or worked from
a rule by hand. Then, for every obligation with hypotheses, a state and operands that meet them. -/

namespace Sys2Proof.Tests

open Sys2Proof.Machine

/-! ### Well-formedness: what each check refuses -/

theorem test_wellFormed_encUpdate : wellFormed (.encUpdate 65535) = true ∧ wellFormed (.encUpdate 65536) = false := by
  decide
theorem test_wellFormed_decUpdate : wellFormed (.decUpdate 65535) = true ∧ wellFormed (.decUpdate 65536) = false := by
  decide
theorem test_wellFormed_padApply :
    wellFormed (.padApply .pkcs 65535) = true ∧ wellFormed (.padApply .pkcs 65536) = false ∧
      wellFormed (.padApply .noPadding 65536) = false := by decide

/-! ### Decoding: words written out from R91, R94 and R99 -/

theorem test_decode_keysched : decode 0x00000001 = .ok .keysched := by decide
theorem test_decode_encInit : decode 0x00000002 = .ok .encInit := by decide
theorem test_decode_decInit : decode 0x00000003 = .ok .decInit := by decide
theorem test_decode_encUpdate : decode 0x00100004 = .ok (.encUpdate 16) := by decide
theorem test_decode_encUpdate_top : decode 0xFFFF0004 = .ok (.encUpdate 65535) := by decide
theorem test_decode_decUpdate : decode 0x00050005 = .ok (.decUpdate 5) := by decide
theorem test_decode_encFinal : decode 0x00000006 = .ok .encFinal := by decide
theorem test_decode_decFinal : decode 0x00000007 = .ok .decFinal := by decide
theorem test_decode_padApply : decode 0x00050108 = .ok (.padApply .pkcs 5) := by decide
theorem test_decode_padApply_none : decode 0x00030008 = .ok (.padApply .noPadding 3) := by decide
theorem test_decode_padCheck : decode 0x00000109 = .ok (.padCheck .pkcs) := by decide
theorem test_decode_padCheck_none : decode 0x00000009 = .ok (.padCheck .noPadding) := by decide
theorem test_decode_zeroize : decode 0x0000000A = .ok .zeroize := by decide

/-- Vectors D-1 to D-11. -/
theorem test_decode_rejects :
    decode 0x00000000 = .error .illegalOp ∧ decode 0x0000000B = .error .illegalOp ∧
    decode 0x0000000F = .error .illegalOp ∧ decode 0x00000010 = .error .reservedBits ∧
    decode 0x00000014 = .error .reservedBits ∧ decode 0x00010002 = .error .lenOperand ∧
    decode 0x00000102 = .error .padOperand ∧ decode 0x00000104 = .error .padOperand ∧
    decode 0x00010009 = .error .lenOperand ∧ decode 0x00000208 = .error .reservedBits ∧
    decode 0x80000001 = .error .lenOperand := by decide

theorem test_decodeTableWord : decodeTableWord 32 0x00050108 = some (.padApply .pkcs 5) := by decide

/-! ### The vectors' states -/

def hex (l : List Nat) : List Byte := l.map (BitVec.ofNat 8)

/-- "testkey1" zero-padded, the test IV, and the vectors' ciphertext blocks (`95_test_vectors.md` section 2). -/
def vecKey : Bytes16 := block (hex [0x74, 0x65, 0x73, 0x74, 0x6B, 0x65, 0x79, 0x31])
def vecIv : Bytes16 := block (hex [0, 1, 2, 3, 4, 5, 6, 7, 8, 9, 10, 11, 12, 13, 14, 15])
def vecM : List Byte := (List.range 48).map fun i => BitVec.ofNat 8 (0x41 + i)
def vecC1 : List Byte :=
  hex [0x34, 0x25, 0x33, 0x34, 0x2B, 0x25, 0x39, 0x71, 0x40, 0x40, 0x40, 0x40, 0x40, 0x40, 0x40, 0x50]
def vecC2 : List Byte :=
  hex [0x00, 0x04, 0x14, 0x0B, 0x1B, 0x0A, 0x5F, 0x29, 0x19, 0x1A, 0x1B, 0x1C, 0x1D, 0x1E, 0x0F, 0x54]
def vecP3C2 : List Byte :=
  hex [0x00, 0x04, 0x14, 0x0B, 0x42, 0x50, 0x04, 0x7D, 0x4C, 0x4C, 0x4C, 0x4C, 0x4C, 0x4C, 0x5C, 0x38]

/-- The test-only stand-in cipher under "testkey1" (`95_test_vectors.md` section 2). -/
def standIn (x : Bytes16) : Bytes16 := Vector.ofFn fun i => x[i + 1] ^^^ vecKey[i]

/-- An engine after KEYSCHED (vectors' S0), with the given hold-back, phase, mode, padding, buffer and DIN. -/
def engine (hb : Bool) (ph : Phase) (mode : BitVec 3) (pad : Padding) (buf din : List Byte) : State :=
  { State.resetOf { dinBlocks := 15, holdback := hb } with
    phase := ph
    mode := mode
    pad := pad
    key := vecKey
    iv := vecIv
    cv := if ph = .idle then zero16 else vecIv
    buf := buf
    rk := some ⟨vecKey.toList⟩
    mem := writeMems [] dinBase din }

/-- The next state, or the state itself where there is none. -/
def after (o : Host.Outcome State Fault Refusal) (s : State) : State :=
  match o with
  | .next t => t
  | .fault _ => s
  | .refused _ => s

/-- The state after a command. -/
def ran (i : Instr) (s : State) : State := after (exec i s) s

def dout (s : State) (n : Nat) : List Byte := (List.range n).map (doutByte s)

/-! ### One step of each command -/

/-- K-2. -/
theorem test_keysched_in_a_stream :
    let t := ran .keysched (engine false .enc 0 .noPadding [] [])
    t.err = .seq ∧ t.rk.isSome = true ∧ t.phase = .enc := by decide

/-- I-1. -/
theorem test_encInit : let t := ran .encInit (engine false .idle 0 .noPadding [] [])
    statusWord t = 0x16 ∧ t.cv = vecIv := by decide

/-- I-7. -/
theorem test_encInit_ecb : let t := ran .encInit (engine false .idle 1 .noPadding [] [])
    t.phase = .enc ∧ t.cv = zero16 := by decide

/-- I-2, with I-10's buffered bytes. -/
theorem test_decInit_restarts : let t := ran .decInit (engine false .enc 0 .noPadding (vecM.take 7) [])
    statusWord t = 0x1A ∧ t.buf = [] := by decide

/-- I-6. -/
theorem test_decInit_unrecognized_mode :
    statusWord (ran .decInit (engine false .idle 7 .noPadding [] [])) = 0x0112 := by decide

/-- U-6. -/
theorem test_encUpdate_20 :
    let t := updateBlocks standIn .enc 20 (engine false .enc 0 .noPadding [] (vecM.take 20))
    dout t 17 = vecC1 ++ [0] ∧ t.buf = hex [0x51, 0x52, 0x53, 0x54] ∧ t.cv = block vecC1 ∧ t.outLen = 16 := by decide

/-- U-3: the filled buffer first, then a whole block. -/
theorem test_encUpdate_across_the_buffer :
    let r := stepBlocks standIn .enc false vecIv (vecM.take 15) ((vecM.drop 15).take 17)
    r.out = vecC1 ++ vecC2 ∧ r.buf = [] ∧ r.cv = block vecC2 := by decide

/-- U-8: CV is the ciphertext block. -/
theorem test_decUpdate_20 :
    let r := stepBlocks standIn .dec false vecIv [] (vecC1 ++ vecC2.take 4)
    r.out = vecM.take 16 ∧ r.buf = vecC2.take 4 ∧ r.cv = block vecC1 := by decide

/-- U-HB1: a total of exactly 16 is held back. -/
theorem test_decUpdate_holds_back :
    let t := ran (.decUpdate 16) (engine true .dec 0 .pkcs [] vecC1)
    t.outLen = 0 ∧ t.buf = vecC1 ∧ t.err = .ok := by decide

/-- F-5. -/
theorem test_encFinal_pkcs :
    (applyPadding (block (hex [0x51, 0x52, 0x53, 0x54])) 4 .pkcs).map
      (fun r => (r.1, (blockXor (standIn (block vecC1)) r.2).toList)) = some (12, vecP3C2) := by decide

/-- F-7: the wrong Final is E_SEQ, and clears. -/
theorem test_encFinal_of_a_decryption :
    let t := ran .encFinal (engine false .dec 0 .noPadding (vecM.take 3) [])
    t.err = .seq ∧ t.phase = .idle ∧ t.buf = [] ∧ t.cv = zero16 := by decide

/-- P4's last step. -/
theorem test_decFinal_pkcs :
    let t := finalDecPkcs standIn { engine true .dec 0 .pkcs vecP3C2 [] with cv := block vecC1 }
    t.padLen = 12 ∧ t.outLen = 4 ∧ dout t 5 = hex [0x51, 0x52, 0x53, 0x54, 0] := by decide

/-- F-15. -/
theorem test_decFinal_len :
    let t := ran .decFinal (engine true .dec 0 .pkcs (vecC1.take 5) [])
    t.err = .len ∧ t.phase = .idle := by decide

/-- PA-1. -/
theorem test_padApply :
    let t := ran (.padApply .pkcs 5) (engine false .idle 0 .noPadding [] (hex [0x48, 0x65, 0x6C, 0x6C, 0x6F]))
    dout t 16 = hex [0x48, 0x65, 0x6C, 0x6C, 0x6F, 11, 11, 11, 11, 11, 11, 11, 11, 11, 11, 11] ∧ t.padLen = 11 := by
  decide

/-- PA-5. -/
theorem test_padApply_17 :
    let t := ran (.padApply .pkcs 17) (engine false .idle 0 .noPadding [] vecM)
    t.err = .pad ∧ t.outLen = 0 := by decide

/-- PC-1. -/
theorem test_padCheck :
    let t := ran (.padCheck .pkcs) (engine false .idle 0 .noPadding []
      (hex [0x41, 0x42, 0x43, 0x44, 12, 12, 12, 12, 12, 12, 12, 12, 12, 12, 12, 12]))
    dout t 5 = hex [0x41, 0x42, 0x43, 0x44, 0] ∧ t.padLen = 12 ∧ t.outLen = 4 := by decide

/-- PC-5. -/
theorem test_padCheck_differs :
    let t := ran (.padCheck .pkcs) (engine false .idle 0 .noPadding []
      (hex [0, 0, 0, 0, 0, 0, 0, 0, 0, 0, 0, 0, 0, 3, 2, 3]))
    t.err = .pad ∧ t.padLen = 0 := by decide

/-- K-6. -/
theorem test_zeroize :
    let t := ran .zeroize (engine false .enc 0 .pkcs (vecM.take 5) vecM)
    statusWord t = 0x02 ∧ t.key = zero16 ∧ t.mem = [] ∧ t.pad = .pkcs := by decide

/-- D-13: an illegal word with a Final opcode clears nothing. -/
theorem test_illegal_final :
    let s := latchNow 0x00000106 (engine false .enc 0 .noPadding [] [])
    let t := after (step s) s
    statusWord t = 0x0816 ∧ t.cv = vecIv := by decide

/-! ### The bus -/

def rd (a : Nat) (size : Size) (s : State) : Option BusAnswer :=
  (busTxn { write := false, addr := BitVec.ofNat 14 a, size := size, wdata := 0 } s).answer

def wr (a : Nat) (v : Word) (s : State) : State :=
  busTxn { write := true, addr := BitVec.ofNat 14 a, size := .four, wdata := v } s

/-- B-1 to B-8. -/
theorem test_bus_reads :
    let s := engine false .idle 0 .noPadding [] []
    rd 0x000 .four s = some ⟨0x43534531, .okay⟩ ∧ rd 0x004 .four s = some ⟨0x00000100, .okay⟩ ∧
    rd 0x000 .two s = some ⟨0, .slverr⟩ ∧ rd 0x002 .four s = some ⟨0, .slverr⟩ ∧
    rd 0x00C .one s = some ⟨0, .slverr⟩ ∧ rd 0x024 .four s = some ⟨0, .slverr⟩ ∧
    rd 0x040 .four s = some ⟨0, .okay⟩ ∧ rd 0x054 .four s = some ⟨0x04050607, .okay⟩ := by decide

/-- B-9. -/
theorem test_bus_reads_buf :
    let s := engine false .enc 0 .noPadding (hex [0x51, 0x52, 0x53, 0x54]) []
    rd 0x070 .four s = some ⟨0x51525354, .okay⟩ ∧ rd 0x074 .four s = some ⟨0, .okay⟩ := by decide

/-- R10, R63: the window's last word, and the first address after it. -/
theorem test_bus_window_end :
    let s := wr 0x10FC 0x01020304 (engine false .idle 0 .noPadding [] [])
    rd 0x10FF .one s = some ⟨4, .okay⟩ ∧ rd 0x1100 .one s = some ⟨0, .slverr⟩ := by decide

/-- K-3 and K-4. -/
theorem test_bus_key_write :
    (wr 0x040 0x75000000 (engine false .idle 0 .noPadding [] [])).rk = none ∧
    (wr 0x040 0 (engine false .enc 0 .noPadding [] [])).rk.isSome = true := by decide

/-- B-10 and B-11. -/
theorem test_bus_busy :
    let s := latchNow 0x00100004 (engine false .enc 0 .noPadding [] vecM)
    (wr 0x1000 0 s).mem = s.mem ∧ rd 0x00C .four s = some ⟨0x15, .okay⟩ := by decide

/-- B-12 and B-13. -/
theorem test_bus_locked_and_ack :
    (wr 0x014 0x10 (engine false .enc 0 .noPadding [] [])).pad = .noPadding ∧
    (wr 0x00C 2 { engine false .idle 0 .noPadding [] [] with done := true }).done = false := by decide

theorem test_reset_memory_wf : memWf State.reset.mem = true := by decide

/-- The placed word is the very next command: KEYSCHED's slot here holds ENC_INIT, without round keys E_NOKEY (I-3). -/
theorem test_withFetchWord :
    let s := State.reset.withFetchWord 32 0x00000002
    (after (step s) s).err = .nokey := by decide

/-! ### Witnesses: states and operands that meet every hypothesis of each obligation, at the ends of its ranges -/

/-- The vectors' engine satisfies the invariant: idle with nothing buffered, or in a stream. -/
theorem inv_engine (hb : Bool) (ph : Phase) (mode : BitVec 3) (pad : Padding) (buf din : List Byte)
    (hi : ph = .idle → buf = [])
    (hl : buf.length ≤ 15 ∨ (buf.length = 16 ∧ hb = true ∧ ph = .dec ∧ pad = .pkcs)) (hd : din.length ≤ 256) :
    EngineInv (engine hb ph mode pad buf din) := by
  refine ⟨fun h => ⟨hi h, if_pos h⟩, fun _ => rfl, hl, ⟨memWf_writeMems rfl _ _, fun c hc => ?_⟩,
    ⟨Nat.zero_le _, Nat.zero_le _⟩, fun h => by cases h⟩
  rcases mem_writeMems hc with hc | hc
  · cases hc
  · exact inWindows_din hc.1 (Nat.lt_of_lt_of_le hc.2 (Nat.add_le_add_left hd _))

/-- One latched command whose latency has passed. -/
def due (w : Word) : State := latchNow w (engine false .enc 0 .noPadding [] [])

theorem due_due (w : Word) : Due w (due w) := ⟨rfl, rfl, rfl⟩

/-- A host that does `es`. -/
def hosted (es : List HostEvent) (s : State) : State := { s with host := es }

theorem test_witness_DecodeEncodeRoundTrip :
    wellFormed (.encUpdate 0) = true ∧ wellFormed (.decUpdate 65535) = true ∧
      wellFormed (.padApply .pkcs 65535) = true ∧ wellFormed (.padCheck .pkcs) = true := by decide

theorem test_witness_DecodedWordIsItsEncoding : decode 0xFFFF0108 = .ok (.padApply .pkcs 65535) := by decide

theorem test_witness_StepRunsTheDecodedCommand :
    (Due 0x00000006 (due 0x00000006) ∧ decode 0x00000006 = .ok .encFinal) ∧
    (Due 0x00000106 (due 0x00000106) ∧ decode 0x00000106 = .error .padOperand) :=
  ⟨⟨due_due _, by decide⟩, due_due _, by decide⟩

theorem test_witness_StepTakesOneHostEvent :
    let idle := State.reset
    let running : State := { due 1 with wait := 1 }
    let x : Txn := ⟨false, 0, .four, 0⟩
    (resetPending idle = false ∧ (busy idle = true → idle.wait ≠ 0) ∧ idle.host = []) ∧
    (resetPending (hosted [.idle] running) = false ∧ (hosted [.idle] running).wait ≠ 0 ∧
      (hosted [.idle] running).host = .idle :: []) ∧
    (resetPending (hosted [.txn x, .reset] running) = false ∧ (hosted [.txn x, .reset] running).wait ≠ 0 ∧
      (hosted [.txn x, .reset] running).host = .txn x :: [.reset]) := by decide

theorem test_witness_RunningCommandInputsAreFixed :
    let s : State := hosted [.txn ⟨true, 0x1000, .four, 0⟩] { due 4 with wait := 1 }
    s.latch = some 4 ∧ s.wait ≠ 0 ∧ resetPending s = false := by decide

theorem test_witness_ResetSetsEveryField : (hosted [.reset, .idle] (due 4)).host = .reset :: [.idle] := by decide

theorem test_witness_KeyschedExpandsTheKey :
    (engine false .idle 0 .pkcs [] []).phase = .idle ∧ (engine false .dec 0 .pkcs [] []).phase ≠ .idle := by decide

theorem test_witness_InitStartsAStream :
    let s (mode : BitVec 3) := engine false .idle mode .pkcs [] []
    ((s 3).rk.isSome = true ∧ (s 3).mode.toNat ≤ 3 ∧ (s 3).mode ≠ 1) ∧
    ((s 1).rk.isSome = true ∧ (s 1).mode.toNat ≤ 3 ∧ (s 1).mode = 1 ∧ IdleIsClean (s 1) ∧ (s 1).phase = .idle) :=
  ⟨by decide, rfl, by decide, rfl, fun _ => ⟨rfl, rfl⟩, rfl⟩

theorem test_witness_InitChecksInOrder :
    (State.reset.rk = none) ∧
    ((engine false .idle 4 .pkcs [] []).rk.isSome = true ∧ 4 ≤ (engine false .idle 4 .pkcs [] []).mode.toNat) := by
  decide

theorem test_witness_UpdateChecksInOrder :
    let s (ph : Phase) (mode : BitVec 3) := engine false ph mode .noPadding [] []
    ((s .enc 0).params.dinSize < 257) ∧
    (256 ≤ (s .idle 0).params.dinSize ∧ (s .idle 0).phase ≠ streamPhase .enc) ∧
    (256 ≤ (s .enc 1).params.dinSize ∧ (s .enc 1).phase = streamPhase .enc ∧ 1 ≤ (s .enc 1).mode.toNat) ∧
    ((s .dec 3).phase = streamPhase .dec ∧ (s .dec 3).mode.toNat ≤ 3) ∧
    (0 ≤ (s .dec 4).params.dinSize ∧ (s .dec 4).phase = streamPhase .dec ∧ 4 ≤ (s .dec 4).mode.toNat) := by decide

theorem test_witness_UpdateBuffersShortInput :
    let s := engine false .enc 0 .pkcs (vecM.take 7) []
    let h := engine true .dec 0 .pkcs [] []
    (8 ≤ s.params.dinSize ∧ s.phase = streamPhase .enc ∧ s.mode = 0 ∧ s.buf.length + 8 < 16) ∧
    (16 ≤ h.params.dinSize ∧ h.phase = streamPhase .dec ∧ h.mode = 0 ∧
      (h.params.holdback = true ∧ h.pad = .pkcs ∧ h.buf.length + 16 = 16)) := by decide

/-- Not held back, the whole window; held back with a total of 16, of 17 and, from a full buffer, of 272. -/
theorem test_witness_UpdateClosedForm :
    let s := engine false .enc 0 .pkcs (vecM.take 15) []
    let h := engine true .dec 0 .pkcs [] []
    let f := engine true .dec 0 .pkcs (vecM.take 16) []
    (EngineInv s ∧ 256 ≤ s.params.dinSize ∧ s.phase = streamPhase .enc ∧ s.mode = 0 ∧
      ¬ (s.params.holdback = true ∧ Direction.enc = .dec ∧ s.pad = .pkcs)) ∧
    (EngineInv h ∧ 17 ≤ h.params.dinSize ∧ h.phase = streamPhase .dec ∧ h.mode = 0 ∧
      (h.params.holdback = true ∧ Direction.dec = .dec ∧ h.pad = .pkcs) ∧ h.buf.length + 16 ≤ 16 ∧
      16 < h.buf.length + 17) ∧
    (EngineInv f ∧ 256 ≤ f.params.dinSize ∧ f.phase = streamPhase .dec ∧ f.mode = 0 ∧ 16 < f.buf.length + 256) :=
  ⟨⟨inv_engine _ _ _ _ _ _ (by decide) (by decide) (by decide), by decide⟩,
    ⟨inv_engine _ _ _ _ _ _ (by decide) (by decide) (by decide), by decide⟩,
    inv_engine _ _ _ _ _ _ (by decide) (by decide) (by decide), by decide⟩

theorem test_witness_UpdateIsTheCfbTransform :
    let s := engine false .enc 0 .noPadding (vecM.take 15) vecM
    let h := engine true .dec 0 .pkcs (vecC1.take 16) vecC2
    (EngineInv s ∧ s.rk = some ⟨vecKey.toList⟩ ∧ 256 ≤ s.params.dinSize ∧ s.phase = streamPhase .enc ∧ s.mode = 0) ∧
    (EngineInv h ∧ h.rk = some ⟨vecKey.toList⟩ ∧ 16 ≤ h.params.dinSize ∧ h.phase = streamPhase .dec ∧ h.mode = 0) :=
  ⟨⟨inv_engine _ _ _ _ _ _ (by decide) (by decide) (by decide), rfl, by decide⟩,
    inv_engine _ _ _ _ _ _ (by decide) (by decide) (by decide), rfl, by decide⟩

theorem test_witness_UpdateOutputBound :
    let s := engine false .enc 0 .noPadding (vecM.take 15) vecM
    EngineInv s ∧ ∃ t, exec (updateInstr .enc 256) s = .next t := by
  intro s
  have hb : s.buf.length ≤ 16 := by decide
  have h := updateCommand_eq (dir := .enc) (n := 256) (k := ⟨vecKey.toList⟩) hb (by decide) rfl rfl rfl
  exact ⟨inv_engine _ _ _ _ _ _ (by decide) (by decide) (by decide), Exists.intro _ h⟩

/-- 7 and 13 bytes, as in program P3; the second window holds the last 13 bytes. -/
theorem test_witness_UpdateSplitsAnywhere :
    let s := engine false .enc 0 .pkcs [] (vecM.take 20)
    EngineInv s ∧ 7 + 13 ≤ s.params.dinSize ∧ s.phase = streamPhase .enc ∧ s.mode = 0 ∧
    memWf (writeMems [] dinBase ((vecM.take 20).drop 7)) = true ∧
    (∀ j, j < 13 → readMem (writeMems [] dinBase ((vecM.take 20).drop 7)) (dinBase + j) = dinByte s (7 + j)) :=
  ⟨inv_engine _ _ _ _ _ _ (by decide) (by decide) (by decide), by decide, by decide, by decide, by decide,
    by decide⟩

theorem test_witness_FinalAlwaysClears :
    (∃ t, exec (finalInstr .enc) (engine false .dec 0 .pkcs vecC1 []) = .next t ∧ t.err ≠ .ok) ∧
    (Due 0x00000106 (due 0x00000106) ∧ (0x00000106 : Word).toNat % 16 = 6 ∧ decode 0x00000106 = .error .padOperand) ∧
    (Due 0x00010007 (due 0x00010007) ∧ (0x00010007 : Word).toNat % 16 = 7 ∧ decode 0x00010007 = .error .lenOperand) :=
  ⟨⟨_, rfl, by decide⟩, ⟨due_due _, by decide⟩, due_due _, by decide⟩

theorem test_witness_FinalChecksInOrder :
    let s (ph : Phase) (mode : BitVec 3) := engine false ph mode .noPadding [] []
    ((s .idle 0).phase ≠ streamPhase .enc) ∧
    ((s .enc 1).phase = streamPhase .enc ∧ 1 ≤ (s .enc 1).mode.toNat ∧ (s .enc 1).mode.toNat ≤ 3) ∧
    ((s .dec 3).phase = streamPhase .dec ∧ (s .dec 3).mode.toNat ≤ 3) ∧
    ((s .dec 4).phase = streamPhase .dec ∧ 4 ≤ (s .dec 4).mode.toNat) := by decide

theorem test_witness_FinalNoPadding :
    let s (n : Nat) := engine false .dec 0 .noPadding (vecC1.take n) []
    (EngineInv (s 15) ∧ (s 15).rk = some ⟨vecKey.toList⟩ ∧ (s 15).phase = streamPhase .dec ∧ (s 15).mode = 0 ∧
      (s 15).pad = .noPadding) ∧
    (EngineInv (s 0) ∧ (s 0).rk = some ⟨vecKey.toList⟩ ∧ (s 0).phase = streamPhase .dec) :=
  ⟨⟨inv_engine _ _ _ _ _ _ (by decide) (by decide) (by decide), rfl, by decide⟩,
    inv_engine _ _ _ _ _ _ (by decide) (by decide) (by decide), rfl, by decide⟩

theorem test_witness_EncFinalPkcsEmitsOneBlock :
    let s := engine false .enc 0 .pkcs (vecM.take 15) []
    EngineInv s ∧ s.rk = some ⟨vecKey.toList⟩ ∧ s.phase = .enc ∧ s.mode = 0 ∧ s.pad = .pkcs :=
  ⟨inv_engine _ _ _ _ _ _ (by decide) (by decide) (by decide), rfl, by decide⟩

/-- A buffer that decrypts to `pt`, under whatever the cipher is. -/
def cipherOf (pt : Bytes16) : State :=
  engine true .dec 0 .pkcs (blockXor (Config.blockEncrypt ⟨vecKey.toList⟩ vecIv) pt).toList []

/-- Buffers of 15 bytes; of a block padded with 1 byte, with 16, and of one with no valid padding. -/
theorem test_witness_DecFinalPkcsStripsOrFails :
    let s (pt : Bytes16) := cipherOf pt
    let padded (l : List Nat) : Bytes16 := block (hex l)
    ((engine true .dec 0 .pkcs (vecC1.take 15) []).buf.length ≠ 16) ∧
    (∀ pt, (s pt).phase = .dec ∧ (s pt).mode = 0 ∧ (s pt).pad = .pkcs ∧ memWf (s pt).mem = true ∧
      (s pt).rk = some ⟨vecKey.toList⟩ ∧
      (s pt).buf = (blockXor (Config.blockEncrypt ⟨vecKey.toList⟩ (s pt).cv) pt).toList) ∧
    PaddedWith (padded [0, 0, 0, 0, 0, 0, 0, 0, 0, 0, 0, 0, 0, 0, 0, 1]) 1 ∧
    PaddedWith (padded [16, 16, 16, 16, 16, 16, 16, 16, 16, 16, 16, 16, 16, 16, 16, 16]) 16 ∧
    (∀ p, ¬ PaddedWith zero16 p) := by
  refine ⟨by decide, fun pt => ⟨rfl, rfl, rfl, rfl, rfl, rfl⟩, ⟨by decide, by decide, by decide⟩,
    ⟨by decide, by decide, by decide⟩, fun p h => ?_⟩
  have h15 : 0 = p := h.2.2 15 (by have := h.1; simp; omega)
  exact absurd h.1 (by omega)

theorem test_witness_PkcsDecFinalNeedsHoldback :
    let s := engine false .dec 0 .pkcs (vecC1.take 15) []
    EngineInv s ∧ s.params.holdback = false ∧ s.phase = .dec ∧ s.mode = 0 ∧ s.pad = .pkcs :=
  ⟨inv_engine _ _ _ _ _ _ (by decide) (by decide) (by decide), by decide⟩

/-- Any n bytes can stand in DIN, so the decrypting engine of the round trips exists for every output. -/
theorem din_can_hold (hb : Bool) (pad : Padding) (n : Nat) (hn : n ≤ 256) (f : Nat → Byte) :
    let d := engine hb .dec 0 pad [] ((List.range n).map f)
    EngineInv d ∧ d.phase = .dec ∧ d.mode = 0 ∧ d.pad = pad ∧ d.buf = [] ∧ d.rk = some ⟨vecKey.toList⟩ ∧
      d.cv = vecIv ∧ d.params.holdback = hb ∧ d.params.dinSize = 256 ∧ ∀ i, i < n → dinByte d i = f i := by
  refine ⟨inv_engine _ _ _ _ _ _ (fun h => by cases h) (.inl (by simp)) (by simpa using hn), rfl, rfl, rfl, rfl, rfl,
    rfl, rfl, rfl, fun i hi => ?_⟩
  have h : i < ((List.range n).map f).length := by simpa using hi
  exact (readMem_writeMems_inside rfl dinBase _ h).trans (by simp)

/-- A stream of 17 bytes, one block and one byte, and the engine that decrypts its output, whatever that is. -/
theorem test_witness_NoPaddingRoundTrip :
    let s := engine false .enc 0 .noPadding [] (vecM.take 17)
    (EngineInv s ∧ s.phase = .enc ∧ s.mode = 0 ∧ s.pad = .noPadding ∧ s.buf = [] ∧ 17 ≤ s.params.dinSize) ∧
    ∀ out : Nat → Byte, ∃ d : State, EngineInv d ∧ d.phase = .dec ∧ d.mode = 0 ∧ d.pad = .noPadding ∧ d.buf = [] ∧
      d.rk = s.rk ∧ d.cv = s.cv ∧ 17 ≤ d.params.dinSize ∧ ∀ i, i < 17 → dinByte d i = out i := by
  refine ⟨⟨inv_engine _ _ _ _ _ _ (by decide) (by decide) (by decide), by decide⟩, fun out => ?_⟩
  obtain ⟨h1, h2, h3, h4, h5, h6, h7, _, h9, h10⟩ := din_can_hold false .noPadding 17 (by decide) out
  exact ⟨_, h1, h2, h3, h4, h5, h6, h7, by rw [h9]; decide, h10⟩

/-- The 20 bytes of programs P3 and P4. -/
theorem test_witness_PkcsRoundTripWithHoldback :
    let s := engine false .enc 0 .pkcs [] (vecM.take 20)
    (EngineInv s ∧ s.phase = .enc ∧ s.mode = 0 ∧ s.pad = .pkcs ∧ s.buf = [] ∧ 20 ≤ s.params.dinSize) ∧
    ∀ out : Nat → Byte, ∃ d : State, EngineInv d ∧ d.params.holdback = true ∧ d.phase = .dec ∧ d.mode = 0 ∧
      d.pad = .pkcs ∧ d.buf = [] ∧ d.rk = s.rk ∧ d.cv = s.cv ∧ 16 * (20 / 16 + 1) ≤ d.params.dinSize ∧
      ∀ i, i < 16 * (20 / 16 + 1) → dinByte d i = out i := by
  refine ⟨⟨inv_engine _ _ _ _ _ _ (by decide) (by decide) (by decide), by decide⟩, fun out => ?_⟩
  obtain ⟨h1, h2, h3, h4, h5, h6, h7, h8, h9, h10⟩ := din_can_hold true .pkcs 32 (by decide) out
  exact ⟨_, h1, h8, h2, h3, h4, h5, h6, h7, by rw [h9]; decide, h10⟩

theorem test_witness_PadApplyResult :
    memWf (engine false .idle 0 .noPadding [] vecM).mem = true ∧ (0 : Nat) = 0 ∧ (1 : Nat) ≠ 0 ∧ (15 : Nat) ≤ 15 ∧
      (16 : Nat) ≤ 16 := by decide

/-- Blocks padded with 1 and with 16 bytes, and one with no valid padding. -/
theorem test_witness_PadCheckResult :
    let s (l : List Nat) := engine false .idle 0 .noPadding [] (hex l)
    let valid (s : State) (p : Nat) : Prop := 0 < p ∧ p ≤ 16 ∧ ∀ i, 16 - p ≤ i → i < 16 → (dinByte s i).toNat = p
    (memWf (s [0, 0, 0, 0, 0, 0, 0, 0, 0, 0, 0, 0, 0, 0, 0, 1]).mem = true ∧
      valid (s [0, 0, 0, 0, 0, 0, 0, 0, 0, 0, 0, 0, 0, 0, 0, 1]) 1) ∧
    (memWf (s [16, 16, 16, 16, 16, 16, 16, 16, 16, 16, 16, 16, 16, 16, 16, 16]).mem = true ∧
      valid (s [16, 16, 16, 16, 16, 16, 16, 16, 16, 16, 16, 16, 16, 16, 16, 16]) 16) ∧
    (memWf (s []).mem = true ∧ ∀ p, ¬ valid (s []) p) := by
  refine ⟨⟨by decide, by decide, by decide, fun i h1 h2 => ?_⟩, ⟨by decide, by decide, by decide, fun i _ h2 => ?_⟩,
    by decide, fun p h => ?_⟩
  · obtain rfl : i = 15 := by omega
    decide
  · revert i
    decide
  · have h15 := h.2.2 15 (by have := h.1; omega) (by omega)
    exact absurd h.1 (by
      rw [← h15]
      decide)

/-- Fifteen used bytes: the checked engine's DIN holds the padded block. -/
theorem test_witness_PadCheckUndoesPadApply :
    let s := engine false .idle 0 .noPadding [] (vecM.take 15)
    let t := ran (.padApply .pkcs 15) s
    let u := engine false .idle 0 .noPadding [] (vecM.take 15 ++ [1])
    (15 : Nat) ≤ 15 ∧ memWf s.mem = true ∧ memWf u.mem = true ∧ ∀ i, i < 16 → dinByte u i = doutByte t i := by decide

theorem test_witness_EveryCommandCompletes :
    EngineInv State.reset ∧ EngineInv (engine true .dec 0 .pkcs (vecC1.take 16) []) :=
  ⟨⟨fun _ => ⟨rfl, rfl⟩, fun h => absurd rfl h, .inl (Nat.zero_le _), ⟨rfl, fun _ h => by cases h⟩,
      ⟨Nat.zero_le _, Nat.zero_le _⟩, fun h => by cases h⟩,
    inv_engine _ _ _ _ _ _ (by decide) (by decide) (by decide)⟩

/-- A failing Update, and a failing Final. -/
theorem test_witness_FailedCommandKeepsState :
    (∃ t, exec (.encUpdate 16) (engine false .idle 0 .pkcs [] []) = .next t ∧ t.err ≠ .ok) ∧
    (∃ t, exec .decFinal (engine true .dec 0 .pkcs (vecC1.take 15) []) = .next t ∧ t.err ≠ .ok) ∧
    (Due 0x80000001 (due 0x80000001) ∧ decode 0x80000001 = .error .lenOperand) :=
  ⟨⟨_, rfl, by decide⟩, ⟨_, rfl, by decide⟩, due_due _, by decide⟩

theorem test_witness_PadLenReportsPadding :
    ∃ t, exec (.padApply .pkcs 0) (engine false .idle 0 .pkcs [] []) = .next t ∧ t.padLen ≠ 0 :=
  ⟨_, rfl, by decide⟩

theorem test_witness_CommandsDoNotReadDout :
    let s := engine false .enc 0 .noPadding [] []
    let m := writeMems [] doutBase (hex [1, 2, 3])
    memWf s.mem = true ∧ memWf m = true ∧ (∀ j, j < s.params.dinSize → readMem m (dinBase + j) = dinByte s j) ∧
      ∃ t, exec (.encUpdate 16) s = .next t :=
  ⟨by decide, by decide,
    fun j hj => readMem_writeMems_outside (m := []) (base := doutBase) (l := hex [1, 2, 3])
      (.inl (lt_of_lt_of_le (Nat.add_lt_add_left hj _) (dinBase_add_dinSize_le _))), _, rfl⟩

theorem test_witness_EveryStepKeepsTheInvariant :
    let s := hosted [.txn ⟨true, 0x10FF, .one, 5⟩] (engine true .dec 0 .pkcs (vecC1.take 16) [])
    EngineInv s ∧ ∃ t, step s = .next t := by
  have h := inv_engine true .dec 0 .pkcs (vecC1.take 16) [] (by decide) (by decide) (by decide)
  exact ⟨⟨h.1, h.2, h.3, h.4, h.5, h.6⟩, _, rfl⟩

theorem test_witness_NoStepStops :
    let s := latchNow 0x00000007 (engine true .dec 0 .pkcs (vecC1.take 16) [])
    EngineInv s := by
  have h := inv_engine true .dec 0 .pkcs (vecC1.take 16) [] (by decide) (by decide) (by decide)
  exact ⟨h.1, h.2, h.3, h.4, h.5, fun _ => rfl⟩

/-- A command one cycle away from its step, with a bus write arriving meanwhile. -/
theorem test_witness_RunningCommandCompletes :
    let s : State := hosted [.txn ⟨true, 0x1000, .four, 0⟩, .idle, .reset] { due 4 with wait := 1 }
    EngineInv s ∧ s.latch = some 4 ∧ ∀ e ∈ s.host.take (s.wait + 1), e ≠ .reset := by
  have h := inv_engine false .enc 0 .noPadding [] [] (by decide) (by decide) (by decide)
  exact ⟨⟨h.1, h.2, h.3, h.4, h.5, fun _ => rfl⟩, rfl, by decide⟩

theorem test_witness_StreamParametersAreLocked :
    let s := hosted [.txn ⟨true, 0x014, .four, 7⟩] (engine false .enc 0 .pkcs [] [])
    (s.phase ≠ .idle ∧ ∃ t, step s = .next t) ∧
    ((due 0x0000000A).phase ≠ .idle ∧ ∃ t, step (due 0x0000000A) = .next t ∧ t.key ≠ (due 0x0000000A).key) :=
  ⟨⟨by decide, _, rfl⟩, by decide, _, rfl, by decide⟩

/-- ZEROIZE, a reset, and a write to the last KEY byte. -/
theorem test_witness_RoundKeysChangeOnlyByRule :
    let s := engine false .idle 0 .pkcs [] []
    (∃ t, step (due 0x0000000A) = .next t ∧ t.rk ≠ (due 0x0000000A).rk) ∧
    (∃ t, step (hosted [.reset] s) = .next t ∧ t.rk ≠ s.rk) ∧
    (∃ t, step (hosted [.txn ⟨true, 0x04F, .one, 5⟩] s) = .next t ∧ t.rk ≠ s.rk) :=
  ⟨⟨_, rfl, by decide⟩, ⟨_, rfl, by decide⟩, _, rfl, by decide⟩

theorem test_witness_PhaseChangesOnlyByRule :
    (∃ t, step (latchNow 3 (engine false .idle 0 .pkcs [] [])) = .next t ∧ t.phase ≠ .idle) ∧
    (∃ t, step (latchNow 7 (engine false .enc 0 .pkcs [] [])) = .next t ∧ t.phase ≠ .enc) ∧
    (∃ t, step (hosted [.reset] (engine false .enc 0 .pkcs [] [])) = .next t ∧ t.phase ≠ .enc) :=
  ⟨⟨_, rfl, by decide⟩, ⟨_, rfl, by decide⟩, _, rfl, by decide⟩

theorem test_witness_ControlRegisterReads :
    let s := engine true .dec 0 .pkcs (vecC1.take 16) []
    EngineInv s ∧ busy s = false :=
  ⟨inv_engine _ _ _ _ _ _ (by decide) (by decide) (by decide), by decide⟩

/-- The ends of both windows and of the context registers. -/
theorem test_witness_WindowAndContextReads :
    let s := engine false .idle 0 .pkcs [] vecM
    busy s = false ∧ 255 < s.params.dinSize ∧ 271 < s.params.dinSize + 16 ∧ (0x07C % 4 = 0 ∧ 0x07C ≤ 0x07C) ∧
      (0x10FC % 4 = 0 ∧ 0x10FC < 0x1000 + s.params.dinSize) ∧ (0x210C % 4 = 0 ∧ 0x210C < 0x2000 + s.params.dinSize + 16) := by
  decide

theorem test_witness_ReadsHaveNoSideEffect :
    let x : Txn := ⟨false, 0x2000, .one, 0⟩
    x.write = false ∧ busy (engine false .idle 0 .pkcs [] []) = false := by decide

theorem test_witness_DinWritesAreReadBack :
    let s := engine false .enc 0 .pkcs [] vecM
    memWf s.mem = true ∧ busy s = false ∧ 0x1000 ≤ 0x10FF ∧ 0x10FF < 0x1000 + s.params.dinSize ∧ 0x10FC % 4 = 0 := by
  decide

theorem test_witness_ControlRegisterWrites :
    busy (engine false .idle 0 .pkcs [] []) = false ∧ (engine false .idle 0 .pkcs [] []).phase = .idle ∧
      busy (engine false .enc 0 .pkcs [] []) = false ∧ (engine false .enc 0 .pkcs [] []).phase ≠ .idle := by decide

theorem test_witness_KeyAndIvWrites :
    busy (engine false .idle 0 .pkcs [] []) = false ∧ (engine false .idle 0 .pkcs [] []).phase = .idle ∧
      (12 : Fin 16).val % 4 = 0 ∧ (engine false .dec 0 .pkcs [] []).phase ≠ .idle := by decide

theorem test_witness_ReadOnlyRegionsIgnoreWrites :
    let s := engine false .idle 0 .pkcs [] []
    let a : Txn := ⟨true, 0x07F, .one, 1⟩
    let b : Txn := ⟨true, 0x210C, .four, 1⟩
    (a.write = true ∧ busy s = false ∧ a.size = .one ∧ 0x060 ≤ a.addr.toNat ∧ a.addr.toNat ≤ 0x07F) ∧
    (b.write = true ∧ b.size = .four ∧ b.addr.toNat % 4 = 0 ∧ 0x2000 ≤ b.addr.toNat ∧
      b.addr.toNat < 0x2000 + s.params.dinSize + 16) := by decide

theorem test_witness_CommandAcceptance : busy State.reset = false := by decide

theorem test_witness_BusyRefusesWrites :
    let x (w : Bool) (a : BitVec 14) : Txn := ⟨w, a, .four, 0⟩
    busy (due 4) = true ∧ (x true 0x1000).write = true ∧ (x false 0x00C).write = false ∧ (x false 0x00C).size = .four ∧
      accepted (due 4) (x false 0x2000) = true := by decide

theorem test_witness_KeysAreNotReadable :
    (some (⟨[]⟩ : RoundKeys)).isSome = (engine false .idle 0 .pkcs [] []).rk.isSome := by decide

theorem test_witness_InterruptFollowsDone :
    (∃ t, exec .zeroize State.reset = .next t) ∧ busy State.reset = false ∧ (0x2 : Word).getLsbD 1 = true ∧
      (0x1 : Word).getLsbD 0 = true ∧ (0x0 : Word).getLsbD 0 = false ∧
      ({ State.reset with done := true } : State).done = true ∧
      (Due 0 (due 0) ∧ decode 0 = .error .illegalOp ∧ ∃ t, step (due 0) = .next t) :=
  ⟨⟨_, rfl⟩, by decide, by decide, by decide, by decide, by decide, due_due _, by decide, _, rfl⟩

end Sys2Proof.Tests
end

section
/-! PROOFS. The bus port, beside Laws/Bus.lean and Laws/Transactions.lean: where the classes of KEY and DIN lie, and
the rules of accepted transactions that the claims about single registers use. -/

namespace Sys2Proof.Machine

/-- DIN's addresses (R37, R63). -/
theorem classify_din_iff (p : Params) (a : Nat) :
    (∃ i, classify p a = .din i) ↔ dinBase ≤ a ∧ a < dinBase + p.dinSize := by
  constructor
  · rintro ⟨i, h⟩
    unfold classify at h
    split at h
    · cases h
    · split at h
      · cases h
      · split at h
        · assumption
        · split at h <;> cases h
  · rintro ⟨hlo, hhi⟩
    exact ⟨_, classify_din p hlo hhi⟩

/-- A byte classed as KEY lies at 0x040..0x04F (R33, R63). -/
theorem key_range_of_classify {p : Params} {a i : Nat} (h : classify p a = .byteReg .key i) :
    0x40 ≤ a ∧ a ≤ 0x4F := by
  unfold classify at h
  split at h
  · cases h
  · split at h
    · rename_i hr
      refine ⟨hr.1, ?_⟩
      by_contra hn
      simp only [byteRegAt, if_neg (show ¬ a < 0x50 by omega), AddrClass.byteReg.injEq] at h
      obtain ⟨hreg, -⟩ := h
      split at hreg
      · cases hreg
      · split at hreg <;> cases hreg
    · split at h
      · cases h
      · split at h <;> cases h

/-- A 4-byte transaction is legal only at an aligned address (R66). -/
theorem aligned_of_sizeOk_four {c : AddrClass} {a : Nat} (h : sizeOk c .four a = true) : a % 4 = 0 := by
  cases c
  case unmapped => cases h
  all_goals exact of_decide_eq_true h

/-- A 4-byte transaction is legal at every aligned address that is mapped (R66). -/
theorem sizeOk_four_of_aligned {c : AddrClass} {a : Nat} (hc : c ≠ .unmapped) (ha : a % 4 = 0) :
    sizeOk c .four a = true := by
  cases c
  case unmapped => exact absurd rfl hc
  all_goals exact decide_eq_true ha

/-! ### Transactions to control registers -/

/-- The control registers are word-aligned (R63). -/
theorem aligned_of_controlAt {a : Nat} {r : CtrlReg} (h : controlAt a = some r) : a % 4 = 0 := by
  unfold controlAt at h
  split at h <;> cases h <;> rfl

theorem classify_of_controlAt (p : Params) {a : Nat} {r : CtrlReg} (h : controlAt a = some r) :
    classify p a = .control r := (classify_control_iff p a r).2 h

/-- A word access to a control register is legal (R66). -/
theorem sizeOk_control (p : Params) {a : Nat} {r : CtrlReg} (h : controlAt a = some r) :
    sizeOk (classify p a) .four a = true := by
  rw [classify_of_controlAt p h]
  exact decide_eq_true (aligned_of_controlAt h)

/-- A word read of a control register while no command runs (R67). -/
theorem busTxn_readControl {s : State} {d : Word} {a : BitVec 14} {r : CtrlReg} (hb : busy s = false)
    (hr : controlAt a.toNat = some r) :
    (busTxn { write := false, addr := a, size := .four, wdata := d } s).answer =
      some { rdata := controlValue s r, resp := .okay } := by
  rw [busTxn_read rfl (sizeOk_control s.params hr) hb]
  simp only [readValue, classify_of_controlAt s.params hr]

/-- A word write to a control register while no command runs (R68). -/
theorem busTxn_writeControl {s : State} {v : Word} {a : BitVec 14} {r : CtrlReg} (hb : busy s = false)
    (hr : controlAt a.toNat = some r) :
    busTxn { write := true, addr := a, size := .four, wdata := v } s =
      answerWith { rdata := drawWord s, resp := .okay } (writeControl r v (nextDraw s)) := by
  rw [busTxn_write rfl (sizeOk_control s.params hr) hb]
  simp only [writeValue, classify_of_controlAt (nextDraw s).params hr]

/-! ### Transactions to bytes -/

/-- The addresses of the context registers and of the windows (R63). -/
def ByteMapped (p : Params) (a : Nat) : Prop :=
  (0x40 ≤ a ∧ a ≤ 0x7F) ∨ (0x1000 ≤ a ∧ a < 0x1000 + p.dinSize) ∨ (0x2000 ≤ a ∧ a < 0x2000 + p.dinSize + 16)

/-- A mapped byte is classed as a byte of a context register or of a window. -/
theorem ByteMapped.classify {p : Params} {a : Nat} (h : ByteMapped p a) :
    (∃ r, classify p a = .byteReg r (a % 16)) ∨ (∃ i, classify p a = .din i) ∨ (∃ i, classify p a = .dout i) := by
  rcases h with ⟨h1, h2⟩ | ⟨h1, h2⟩ | ⟨h1, h2⟩
  · exact .inl ⟨_, classify_context p h1 h2⟩
  · exact .inr (.inl ⟨_, classify_din p h1 h2⟩)
  · exact .inr (.inr ⟨_, classify_dout p h1 h2⟩)

theorem ByteMapped.ne_unmapped {p : Params} {a : Nat} (h : ByteMapped p a) : Machine.classify p a ≠ .unmapped := by
  rcases h.classify with ⟨_, e⟩ | ⟨_, e⟩ | ⟨_, e⟩ <;> rw [e] <;> exact nofun

theorem ByteMapped.ne_control {p : Params} {a : Nat} (h : ByteMapped p a) (r : CtrlReg) :
    Machine.classify p a ≠ .control r := by
  rcases h.classify with ⟨_, e⟩ | ⟨_, e⟩ | ⟨_, e⟩ <;> rw [e] <;> exact nofun

/-- Every mapped byte has a bus address (R61, R63). -/
theorem ByteMapped.lt {p : Params} {a : Nat} (h : ByteMapped p a) : a < 2 ^ 14 := by
  have := dinSize_le p
  unfold ByteMapped at h
  omega

/-- The four bytes of an aligned word are mapped together (R63). -/
theorem ByteMapped.add {p : Params} {a k : Nat} (h : ByteMapped p a) (ha : a % 4 = 0) (hk : k < 4) :
    ByteMapped p (a + k) := by
  have := dinSize_mod p
  unfold ByteMapped at h ⊢
  omega

theorem sizeOk_one {p : Params} {a : Nat} (h : ByteMapped p a) : sizeOk (Machine.classify p a) .one a = true := by
  rcases h.classify with ⟨_, e⟩ | ⟨_, e⟩ | ⟨_, e⟩ <;> rw [e] <;> rfl

theorem toNat_addr {a : Nat} (h : a < 2 ^ 14) : (BitVec.ofNat 14 a).toNat = a := Nat.mod_eq_of_lt h

/-- A byte read while no command runs (R67). -/
theorem byteRead_answer {s : State} {d : Word} {a : Nat} (hb : busy s = false) (h : ByteMapped s.params a) :
    (busTxn { write := false, addr := BitVec.ofNat 14 a, size := .one, wdata := d } s).answer =
      some { rdata := (readByte s a).setWidth 32, resp := .okay } :=
  busTxn_readByte hb h.lt h.ne_unmapped h.ne_control

/-- An aligned word read while no command runs: four bytes in big-endian lanes (R65). -/
theorem wordRead_answer {s : State} {d : Word} {a : Nat} (hb : busy s = false) (h : ByteMapped s.params a)
    (ha : a % 4 = 0) :
    (busTxn { write := false, addr := BitVec.ofNat 14 a, size := .four, wdata := d } s).answer =
      some { rdata := readByte s a ++ (readByte s (a + 1) ++ (readByte s (a + 2) ++ readByte s (a + 3))),
             resp := .okay } := by
  rw [busTxn_read rfl (by rw [toNat_addr h.lt]; exact sizeOk_four_of_aligned h.ne_unmapped ha) hb]
  simp only [toNat_addr h.lt]
  unfold readValue
  split
  · rename_i hc; exact absurd hc (h.ne_control _)
  · rfl
  · rename_i hf; exact absurd rfl hf

theorem writeValue_one {s : State} {a : Nat} (v : Word) (h : ByteMapped s.params a) :
    writeValue .one a v s = storeByte a (v.extractLsb' 0 8) s := by
  unfold writeValue
  split
  · rename_i hc; exact absurd hc (h.ne_control _)
  · rename_i hf _; cases hf
  · rfl

/-- A word write is four byte stores, the most significant byte at the lowest address (R65). -/
theorem writeValue_four {s : State} {a : Nat} (v : Word) (h : ByteMapped s.params a) :
    writeValue .four a v s =
      storeByte (a + 3) (v.extractLsb' 0 8) (storeByte (a + 2) (v.extractLsb' 8 8)
        (storeByte (a + 1) (v.extractLsb' 16 8) (storeByte a (v.extractLsb' 24 8) s))) := by
  unfold writeValue
  split
  · rename_i hc; exact absurd hc (h.ne_control _)
  · rfl
  · rename_i hf; exact absurd rfl hf

/-- A byte write while no command runs (R68). -/
theorem busTxn_writeByte {s : State} {x : Txn} {a : Nat} (hb : busy s = false) (h : ByteMapped s.params a)
    (hx : x.write = true) (hs : x.size = .one) (ha : x.addr.toNat = a) :
    busTxn x s = answerWith { rdata := drawWord s, resp := .okay }
      (storeByte a (x.wdata.extractLsb' 0 8) (nextDraw s)) := by
  rw [busTxn_write hx (by rw [hs, ha]; exact sizeOk_one h) hb, hs, ha, writeValue_one (s := nextDraw s) _ h]

/-- An aligned word write while no command runs (R68). -/
theorem busTxn_writeWord {s : State} {x : Txn} {a : Nat} (hb : busy s = false) (h : ByteMapped s.params a)
    (hx : x.write = true) (hs : x.size = .four) (ha : x.addr.toNat = a) (hal : a % 4 = 0) :
    busTxn x s = answerWith { rdata := drawWord s, resp := .okay }
      (storeByte (a + 3) (x.wdata.extractLsb' 0 8) (storeByte (a + 2) (x.wdata.extractLsb' 8 8)
        (storeByte (a + 1) (x.wdata.extractLsb' 16 8) (storeByte a (x.wdata.extractLsb' 24 8) (nextDraw s))))) := by
  rw [busTxn_write hx (by rw [hs, ha]; exact sizeOk_four_of_aligned h.ne_unmapped hal) hb, hs, ha,
    writeValue_four (s := nextDraw s) _ h]

/-! ### What a byte reads -/

/-- A context register's byte (R33 to R36, R67). -/
theorem readByte_context {s : State} {a : Nat} (h1 : 0x40 ≤ a) (h2 : a ≤ 0x7F) :
    readByte s a = contextByte s (byteRegAt a) (a % 16) := by
  simp only [readByte, classify_context s.params h1 h2]

/-- DIN's bytes are the memory's (R37). -/
theorem readByte_din {s : State} {a : Nat} (h1 : 0x1000 ≤ a) (h2 : a < 0x1000 + s.params.dinSize) :
    readByte s a = readMem s.mem a := by
  simp only [readByte, classify_din s.params h1 h2]

/-- DOUT's bytes are the memory's (R38). -/
theorem readByte_dout {s : State} {a : Nat} (h1 : 0x2000 ≤ a) (h2 : a < 0x2000 + s.params.dinSize + 16) :
    readByte s a = readMem s.mem a := by
  simp only [readByte, classify_dout s.params h1 h2]

/-- CV, BUF and DOUT ignore stores (R35, R36, R38, R68). -/
theorem storeByte_readOnly {s : State} {a : Nat} (b : Byte)
    (h : (0x60 ≤ a ∧ a ≤ 0x7F) ∨ (0x2000 ≤ a ∧ a < 0x2000 + s.params.dinSize + 16)) : storeByte a b s = s := by
  unfold storeByte
  rcases h with ⟨h1, h2⟩ | ⟨h1, h2⟩
  · have hreg : byteRegAt a = if a < 0x70 then .cv else .buf := by
      rw [byteRegAt, if_neg (by omega), if_neg (by omega)]
    rw [classify_context _ (by omega) h2, hreg]
    by_cases hcv : a < 0x70
    · rw [if_pos hcv]
    · rw [if_neg hcv]
  · rw [classify_dout _ h1 h2]

end Sys2Proof.Machine
end

section
/-! PROOFS. What a command can do, said once: the one inversion lemma `commandRun_of_exec` of `exec`. Every claim about
all commands below is a case analysis of `CommandRun`. -/

namespace Sys2Proof.Machine

/-! ### The completion of R16, field by field, for every error code -/

@[simp] theorem finish_phase (e : ErrCode) (out : List Byte) (p : Nat) (s : State) :
    (finish e out p s).phase = s.phase := (sameStream_finish e out p s).1
@[simp] theorem finish_rk (e : ErrCode) (out : List Byte) (p : Nat) (s : State) :
    (finish e out p s).rk = s.rk := (sameKeys_finish e out p s).2

/-- PAD_LEN after a completion never exceeds the pad length it is given (R16). -/
theorem finish_padLen_le (e : ErrCode) (out : List Byte) {p : Nat} (s : State) :
    (finish e out p s).padLen.toNat ≤ p := by
  cases e
  case ok => exact Nat.mod_le p _
  all_goals exact Nat.zero_le p

/-- PAD_LEN is not 0 only after a success with a pad length that is not 0 (R16). -/
theorem finish_padLen_ne_zero {e : ErrCode} {out : List Byte} {p : Nat} {s : State}
    (h : (finish e out p s).padLen ≠ 0) : (finish e out p s).err = .ok ∧ p ≠ 0 := by
  cases e
  case ok => exact ⟨rfl, fun hp => h (by subst hp; rfl)⟩
  all_goals exact absurd rfl h

/-! ### The padding functions' bounds -/

/-- Valid padding has at most 16 bytes (R121). -/
theorem checkAndStrip_le {blk : Bytes16} {q : Padding} {n : Nat} (h : checkAndStripPadding blk q = some n) :
    n ≤ 16 := by
  cases q with
  | noPadding => cases h; omega
  | pkcs => exact ((checkAndStrip_pkcs_iff blk n).1 h).2.1

theorem partialStep_length_le (e : Bytes16 → Bytes16) (cv : Bytes16) (buf : List Byte) :
    (partialStep e cv buf).length ≤ 16 := by
  simp only [partialStep, xorBytes_length, List.length_take, Vector.length_toList]
  omega

/-! ### What a command can do -/

/-- Everything a command's execution can be: a completion (R16) of the state the command prepared. Only a Final is
followed by the clear of R170. -/
inductive CommandRun (s : State) : Instr → State → Prop
  /-- A failing check: the result registers alone (R204). A failing Final stands under `final`. -/
  | fails (i : Instr) (e : ErrCode) : CommandRun s i (fail e s)
  /-- KEYSCHED in IDLE, whether the key expands or not (R190, R191). -/
  | keysched (e : ErrCode) (r : Option RoundKeys) (hp : s.phase = .idle) :
      CommandRun s .keysched (finish e [] 0 (setRk r s))
  /-- An Init with valid round keys (R141). -/
  | init (dir : Direction) (hk : s.rk.isSome = true) :
      CommandRun s (initInstr dir) (finish .ok [] 0 (initStream dir s))
  /-- An Update whose checks pass (R153). -/
  | update (dir : Direction) (n : Nat) (out : List Byte) (cv : Bytes16) (buf : List Byte)
      (h : updateCommand dir n s = .next (finish .ok out 0 (setStream cv buf s))) :
      CommandRun s (updateInstr dir n) (finish .ok out 0 (setStream cv buf s))
  /-- A Final, whatever its result (R170 to R174). -/
  | final (dir : Direction) (e : ErrCode) (out : List Byte) (p : Nat) (ho : out.length ≤ 16) (hp : p ≤ 16)
      (hpad : p ≠ 0 → s.pad = .pkcs) :
      CommandRun s (finalInstr dir) (clearStream (finish e out p s))
  /-- PAD_APPLY with valid operands (R122). -/
  | padApply (q : Padding) (n : Nat) (out : List Byte) (p : Nat) (ho : out.length ≤ 16) (hp : p ≤ 16) :
      CommandRun s (.padApply q n) (finish .ok out p s)
  /-- PAD_CHECK of valid padding (R125). -/
  | padCheck (q : Padding) (out : List Byte) (p : Nat) (ho : out.length ≤ 16) (hp : p ≤ 16) :
      CommandRun s (.padCheck q) (finish .ok out p s)
  /-- ZEROIZE (R193). -/
  | zeroize : CommandRun s .zeroize (finish .ok [] 0 (eraseAll s))

theorem commandRun_expandKey {s : State} (hp : s.phase = .idle) : CommandRun s .keysched (expandKey s) := by
  unfold expandKey
  split
  · exact .keysched .fatal none hp
  · exact .keysched .ok (some _) hp

theorem commandRun_init (dir : Direction) (s : State) : CommandRun s (initInstr dir) (initCommand dir s) := by
  unfold initCommand
  split
  · exact .fails _ _
  · rename_i hk
    split
    · exact .fails _ _
    · exact .init dir (by simpa only [rkv, Bool.not_eq_false] using hk)

theorem commandRun_update {dir : Direction} {n : Nat} {s t : State} (h : updateCommand dir n s = .next t) :
    CommandRun s (updateInstr dir n) t := by
  rcases updateCommand_cases h with ⟨_, rfl⟩ | ⟨_, _, rfl⟩ | ⟨_, _, k, _, rfl⟩
  · exact .fails _ _
  · exact .update dir n _ _ _ h
  · exact .update dir n _ _ _ h

/-- The result of a Final is a completion with at most one block of output (R171 to R174). -/
theorem finalBody_bounds {dir : Direction} {s r : State} (h : finalBody dir s = .next r) :
    ∃ e out p, r = finish e out p s ∧ out.length ≤ 16 ∧ p ≤ 16 ∧ (p ≠ 0 → s.pad = .pkcs) := by
  rcases finalBody_cases h with ⟨_, _, hr⟩ | ⟨_, _, k, _, hr⟩ | ⟨_, _, _, hr⟩ | ⟨hpad, _, _, k, padded, _, _, hr⟩ |
    ⟨_, _, _, hr⟩ | ⟨hpad, _, _, k, _, hr⟩
  · exact ⟨.ok, [], 0, hr, by simp, by omega, by simp⟩
  · exact ⟨.ok, _, 0, hr, partialStep_length_le _ _ _, by omega, by simp⟩
  · exact ⟨.pad, [], 0, hr, by simp, by omega, by simp⟩
  · exact ⟨.ok, _, _, hr, by simp, by omega, fun _ => hpad⟩
  · exact ⟨.len, [], 0, hr, by simp, by omega, by simp⟩
  · simp only [finalDecPkcs] at hr
    split at hr
    · exact ⟨.pad, [], 0, hr, by simp, by omega, by simp⟩
    · rename_i p hstrip
      exact ⟨.ok, _, p, hr, by simp, checkAndStrip_le hstrip, fun _ => hpad⟩

theorem commandRun_final {dir : Direction} {s t : State} (h : finalCommand dir s = .next t) :
    CommandRun s (finalInstr dir) t := by
  rcases finalCommand_cases h with ⟨_, rfl⟩ | ⟨_, r, hr, rfl⟩
  · exact .final dir _ [] 0 (by simp) (by omega) (by simp)
  · obtain ⟨e, out, p, rfl, ho, hp, hpad⟩ := finalBody_bounds hr
    exact .final dir e out p ho hp hpad

theorem commandRun_padApply (q : Padding) (n : Nat) (s : State) :
    CommandRun s (.padApply q n) (padApplyResult q n s) := by
  cases q with
  | noPadding =>
    simp only [padApplyResult]
    split
    · exact .padApply _ _ [] 0 (by simp) (by omega)
    · exact .fails _ _
  | pkcs =>
    by_cases hn : n < 16
    · simp only [padApplyResult, applyPadding_pkcs hn]
      exact .padApply _ _ _ _ (by simp) (by omega)
    · simp only [padApplyResult, applyPadding_pkcs_none (not_lt.1 hn)]
      exact .fails _ _

theorem commandRun_padCheck (q : Padding) (s : State) : CommandRun s (.padCheck q) (padCheckResult q s) := by
  unfold padCheckResult
  split
  · exact .fails _ _
  · rename_i n hstrip
    exact .padCheck q _ n (by simp) (checkAndStrip_le hstrip)

/-- Everything a command can do. -/
theorem commandRun_of_exec {i : Instr} {s t : State} (h : exec i s = .next t) : CommandRun s i t := by
  cases i with
  | keysched =>
    cases h
    split
    · rename_i hp; exact commandRun_expandKey hp
    · exact .fails _ _
  | encInit => cases h; exact commandRun_init .enc s
  | decInit => cases h; exact commandRun_init .dec s
  | encUpdate n => exact commandRun_update (dir := .enc) h
  | decUpdate n => exact commandRun_update (dir := .dec) h
  | encFinal => exact commandRun_final (dir := .enc) h
  | decFinal => exact commandRun_final (dir := .dec) h
  | padApply q n => cases h; exact commandRun_padApply q n s
  | padCheck q => cases h; exact commandRun_padCheck q s
  | zeroize => cases h; exact .zeroize

end Sys2Proof.Machine
end

section
/-! PROOFS. R41: the invariant holds at reset, every state operation keeps it, and so every step does. -/

namespace Sys2Proof.Machine

/-! ### The operations of a command -/

/-- The invariant holds after reset, for every value of the parameters (R41, R230). -/
theorem engineInv_resetOf (p : Params) : EngineInv (State.resetOf p) where
  idleIsClean := fun _ => ⟨rfl, rfl⟩
  streamHasKeys := fun h => absurd rfl h
  bufferBounded := .inl (Nat.zero_le _)
  memoryCanonical := ⟨rfl, fun _ h => by cases h⟩
  lengthsBounded := ⟨Nat.zero_le _, Nat.zero_le _⟩
  runningNotDone := fun h => by cases h

/-- The windows stay canonical when bytes are stored within DOUT (R38). -/
theorem memoryCanonical_writeDout {out : List Byte} {s : State} (h : MemoryCanonical s)
    (ho : out.length ≤ s.params.doutSize) : MemoryCanonical (writeDout out s) := by
  obtain ⟨hwf, hin⟩ := h
  refine ⟨memWf_writeMems hwf _ _, fun c hc => ?_⟩
  rcases mem_writeMems hc with hc | ⟨hlo, hhi⟩
  · exact hin c hc
  · exact inWindows_dout hlo hhi ho

/-- A completion keeps the invariant (R16). -/
theorem EngineInv.finish {e : ErrCode} {out : List Byte} {p : Nat} {s : State} (h : EngineInv s)
    (ho : out.length ≤ s.params.dinSize + 16) (hp : p ≤ 16) : EngineInv (finish e out p s) := by
  have hpad : (Machine.finish e out p s).padLen.toNat ≤ 16 := (finish_padLen_le e out s).trans hp
  cases e
  case ok =>
    exact ⟨h.idleIsClean, h.streamHasKeys, h.bufferBounded, memoryCanonical_writeDout h.memoryCanonical ho,
      ⟨(Nat.mod_le _ _).trans ho, hpad⟩, fun hb => by cases hb⟩
  all_goals
    exact ⟨h.idleIsClean, h.streamHasKeys, h.bufferBounded, h.memoryCanonical, ⟨Nat.zero_le _, hpad⟩,
      fun hb => by cases hb⟩

theorem EngineInv.fail {e : ErrCode} {s : State} (h : EngineInv s) : EngineInv (fail e s) :=
  h.finish (Nat.zero_le _) (Nat.zero_le _)

/-- The clear of R170 keeps the invariant. -/
theorem EngineInv.clearStream {s : State} (h : EngineInv s) : EngineInv (clearStream s) where
  idleIsClean := fun _ => ⟨rfl, rfl⟩
  streamHasKeys := fun hp => absurd rfl hp
  bufferBounded := .inl (Nat.zero_le _)
  memoryCanonical := h.memoryCanonical
  lengthsBounded := h.lengthsBounded
  runningNotDone := h.runningNotDone

/-- While no stream runs, RK may take any value. -/
theorem EngineInv.setRk {r : Option RoundKeys} {s : State} (h : EngineInv s) (hp : s.phase = .idle) :
    EngineInv (setRk r s) :=
  { h with streamHasKeys := fun hne => absurd hp hne }

/-- A stream that has round keys starts empty (R141). -/
theorem EngineInv.initStream {dir : Direction} {s : State} (h : EngineInv s) (hk : s.rk.isSome = true) :
    EngineInv (initStream dir s) where
  idleIsClean := fun hp => absurd hp (streamPhase_ne_idle dir)
  streamHasKeys := fun _ => hk
  bufferBounded := .inl (Nat.zero_le _)
  memoryCanonical := h.memoryCanonical
  lengthsBounded := h.lengthsBounded
  runningNotDone := h.runningNotDone

/-- ZEROIZE's writes keep the invariant (R193). -/
theorem EngineInv.eraseAll {s : State} (h : EngineInv s) : EngineInv (eraseAll s) where
  idleIsClean := fun _ => ⟨rfl, rfl⟩
  streamHasKeys := fun hp => absurd rfl hp
  bufferBounded := .inl (Nat.zero_le _)
  memoryCanonical :=
    ⟨memWf_zeroMems (memWf_zeroMems h.memoryCanonical.1 _ _) _ _,
      fun c hc => h.memoryCanonical.2 c (mem_zeroMems (mem_zeroMems hc))⟩
  lengthsBounded := h.lengthsBounded
  runningNotDone := h.runningNotDone

/-- A running stream may take any CV, and a buffer within R31's bound. -/
theorem EngineInv.setStream {cv : Bytes16} {buf : List Byte} {s : State} (h : EngineInv s) (hp : s.phase ≠ .idle)
    (hb : BufferBounded (setStream cv buf s)) : EngineInv (setStream cv buf s) :=
  { h with idleIsClean := fun hi => absurd hi hp, bufferBounded := hb }

/-! ### Updates -/

/-- What an Update leaves buffered is less than a block, or with hold-back one block (R155). -/
theorem sub_emitted_bounded (h : Bool) (n : Nat) : n - emitted h n ≤ 15 ∨ (n - emitted h n = 16 ∧ h = true) := by
  cases h
  · exact .inl (by simp only [emitted, Bool.false_eq_true, if_false]; omega)
  · simp only [emitted, if_true, and_true]; omega

/-- A buffer as an Update leaves it is within R31's bound. -/
theorem bufferBounded_setStream {dir : Direction} {s : State} {cv : Bytes16} {buf : List Byte} {n : Nat}
    (hp : s.phase = streamPhase dir) (hb : buf.length = n - emitted (holdsBack dir s) n) :
    BufferBounded (setStream cv buf s) := by
  rcases sub_emitted_bounded (holdsBack dir s) n with hlt | ⟨heq, hh⟩
  · exact .inl (hb.trans_le hlt)
  · obtain ⟨hparam, rfl, hpad⟩ := (holdsBack_eq_true_iff dir s).1 hh
    exact .inr ⟨hb.trans heq, hparam, hp, hpad⟩

/-- Every Update keeps the invariant: its output fits DOUT (R158), and its buffer the bound of R31. -/
theorem EngineInv.update {dir : Direction} {n : Nat} {s t : State} (h : EngineInv s)
    (ht : updateCommand dir n s = .next t) : EngineInv t := by
  by_cases hc : updateCheck dir n s = .ok
  · obtain ⟨hn, hp, hm⟩ := (updateCheck_ok_iff dir n s).1 hc
    obtain ⟨k, hk⟩ := h.roundKeys hp
    rw [updateCommand_eq h.buf_length_le hn hp hm hk] at ht
    cases ht
    have hlen : (s.buf ++ dinBytes s n).length = s.buf.length + n := by simp
    obtain ⟨hout, hbuf⟩ := takeBlocks_lengths (Config.blockEncrypt k) dir (holdsBack dir s) s.cv hlen.le
    rw [hlen] at hout hbuf
    refine (h.setStream (hp ▸ streamPhase_ne_idle dir)
      (bufferBounded_setStream (n := s.buf.length + n) hp ?_)).finish ?_ (Nat.zero_le _)
    · rw [hbuf, List.length_drop, hlen]
    · rw [hout]
      exact (emitted_le_dinSize h hp hn).trans (Nat.le_add_right _ _)
  · rw [updateCommand_fail rfl hc] at ht
    cases ht
    exact h.fail

/-! ### Commands -/

/-- Every command keeps the invariant. -/
theorem EngineInv.exec {i : Instr} {s t : State} (h : EngineInv s) (ht : exec i s = .next t) : EngineInv t := by
  have block_le {out : List Byte} (ho : out.length ≤ 16) : out.length ≤ s.params.dinSize + 16 := by omega
  cases commandRun_of_exec ht with
  | fails e => exact h.fail
  | keysched e r hp => exact (h.setRk hp).finish (Nat.zero_le _) (Nat.zero_le _)
  | init dir hk => exact (h.initStream hk).finish (Nat.zero_le _) (Nat.zero_le _)
  | update dir n out cv buf hrun => exact h.update hrun
  | final dir e out p ho hp hpad => exact (h.finish (block_le ho) hp).clearStream
  | padApply q n out p ho hp => exact h.finish (block_le ho) hp
  | padCheck q out p ho hp => exact h.finish (block_le ho) hp
  | zeroize => exact h.eraseAll.finish (Nat.zero_le _) (Nat.zero_le _)

/-! ### The bus and the outside world -/

/-- What the bus port, the latency and the host's list hold does not matter to the invariant. -/
theorem EngineInv.port {s : State} (h : EngineInv s) (w d : Nat) (l : List HostEvent) (a : Option BusAnswer) :
    EngineInv { s with wait := w, draws := d, host := l, answer := a } :=
  ⟨h.1, h.2, h.3, h.4, h.5, h.6⟩

/-- A byte store keeps the invariant: KEY and RK change in IDLE only, and DIN stays within its window (R68). -/
theorem EngineInv.storeByte {s : State} (h : EngineInv s) (a : Nat) (b : Byte) : EngineInv (storeByte a b s) := by
  rcases storeByte_cases a b s with e | ⟨i, _, hp, e⟩ | ⟨i, _, _, e⟩ | ⟨i, hc, e⟩ <;> rw [e]
  · exact h
  · exact { h with streamHasKeys := fun hne => absurd hp hne }
  · exact { h with }
  · refine { h with memoryCanonical := ⟨memWf_writeMem h.memoryCanonical.1 a b, fun c hm => ?_⟩ }
    rcases mem_writeMem hm with hm | rfl
    · exact h.memoryCanonical.2 c hm
    · obtain ⟨hlo, hhi⟩ := (classify_din_iff _ _).1 ⟨i, hc⟩
      exact inWindows_din hlo hhi

/-- Writing a control register keeps the invariant: CFG changes in IDLE only, where BUF is empty (R28, R41). -/
theorem EngineInv.writeControl {s : State} (h : EngineInv s) (r : CtrlReg) (v : Word) :
    EngineInv (writeControl r v s) := by
  rcases writeControl_cases r v s with e | ⟨_, e⟩ | ⟨_, e⟩ | ⟨_, e⟩ | ⟨_, hp, e⟩ <;> rw [e]
  · exact h
  · exact { h with }
  · exact { h with runningNotDone := fun _ => rfl }
  · exact { h with runningNotDone := fun _ => rfl }
  · have hbuf : s.buf.length ≤ 15 := by rw [(h.idleIsClean hp).1]; exact Nat.zero_le _
    exact { h with bufferBounded := .inl hbuf }

/-- Every transaction keeps the invariant. -/
theorem EngineInv.busTxn {s : State} (h : EngineInv s) (x : Txn) : EngineInv (busTxn x s) := by
  have hd : EngineInv (nextDraw s) := h.port _ _ _ _
  unfold Machine.busTxn
  split
  · rcases busWrite_cases x s with ⟨_, e⟩ | ⟨_, e⟩ <;> rw [e]
    · exact h.port _ _ _ _
    · exact (writeValue_induct _ _ _ hd (fun r _ => hd.writeControl r _) fun _ c b hu => hu.storeByte c b).port _ _ _ _
  · rcases busRead_cases x s with ⟨_, e⟩ | ⟨_, _, _, e⟩ | ⟨_, _, e⟩ <;> rw [e] <;> exact h.port _ _ _ _

/-- Every cycle of the outside world keeps the invariant, a reset too. -/
theorem EngineInv.hostCycle {s : State} (h : EngineInv s) : EngineInv (hostCycle s) := by
  rcases hostCycle_cases s with ⟨_, e⟩ | ⟨es, _, e⟩ | ⟨x, es, _, e⟩ | ⟨es, _, e⟩ <;> rw [e]
  · exact h
  · exact h.port _ _ _ _
  · exact (h.port _ _ es _).busTxn x
  · exact (engineInv_resetOf s.params).port _ _ _ _

/-- Every step keeps the invariant. -/
theorem EngineInv.step {s t : State} (h : EngineInv s) (ht : step s = .next t) : EngineInv t := by
  rcases step_cases ht with ⟨_, rfl⟩ | ⟨w, i, _, _, hx⟩ | ⟨w, r, _, _, rfl⟩ | ⟨_, _, _, rfl⟩ | ⟨_, _, rfl⟩
  · exact h.hostCycle
  · exact h.exec hx
  · exact h.fail
  · exact (h.port (s.wait - 1) _ _ _).hostCycle
  · exact h.hostCycle

/-- Settles O35: every clause of the invariant is met by R230's values. -/
theorem invariantAtReset : Obligations.InvariantAtReset := ⟨engineInv_resetOf _, engineInv_resetOf⟩

/-- Settles O36, by the operations a step is built from: each keeps the invariant. -/
theorem everyStepKeepsTheInvariant : Obligations.EveryStepKeepsTheInvariant := fun _ _ h ht => h.step ht

end Sys2Proof.Machine
end

section
/-! PROOFS. What changes PAD_LEN, the stream parameters, RK and PHASE: each claim from the one case analysis of a
command (`CommandRun`) and of a cycle of the outside world. -/

namespace Sys2Proof.Machine

/-! ### Commands -/

/-- A completion with pad length 0 reports no padding (R30). -/
theorem finish_padLen_zero (e : ErrCode) (out : List Byte) (s : State) : (finish e out 0 s).padLen = 0 := by
  cases e <;> rfl

/-- R30: PAD_LEN is within 16, and not 0 only after a success of a padding command. -/
theorem padLen_of_exec {i : Instr} {s t : State} (h : exec i s = .next t) :
    t.padLen.toNat ≤ 16 ∧
    (t.padLen ≠ 0 → t.err = .ok ∧
      ((∃ p n, i = .padApply p n) ∨ (∃ p, i = .padCheck p) ∨ ((i = .encFinal ∨ i = .decFinal) ∧ s.pad = .pkcs))) := by
  have without {u : State} {Q : Prop} (hz : u.padLen = 0) : u.padLen.toNat ≤ 16 ∧ (u.padLen ≠ 0 → Q) :=
    ⟨by rw [hz]; exact Nat.zero_le _, fun hne => absurd hz hne⟩
  cases commandRun_of_exec h with
  | fails e => exact without (finish_padLen_zero _ _ _)
  | keysched e r hp => exact without (finish_padLen_zero _ _ _)
  | init dir hk => exact without (finish_padLen_zero _ _ _)
  | update dir n out cv buf hrun => exact without (finish_padLen_zero _ _ _)
  | zeroize => exact without (finish_padLen_zero _ _ _)
  | final dir e out p ho hp hpad =>
    refine ⟨(finish_padLen_le e out s).trans hp, fun hne => ?_⟩
    obtain ⟨herr, hp0⟩ := finish_padLen_ne_zero hne
    exact ⟨herr, .inr (.inr ⟨by cases dir <;> simp [finalInstr], hpad hp0⟩)⟩
  | padApply q n out p ho hp =>
    exact ⟨(finish_padLen_le .ok out s).trans hp, fun hne => ⟨(finish_padLen_ne_zero hne).1, .inl ⟨q, n, rfl⟩⟩⟩
  | padCheck q out p ho hp =>
    exact ⟨(finish_padLen_le .ok out s).trans hp, fun hne => ⟨(finish_padLen_ne_zero hne).1, .inr (.inl ⟨q, rfl⟩)⟩⟩

/-- No command but ZEROIZE writes PARAM, CTRL, CFG, IV or KEY (R41). -/
theorem config_of_exec {i : Instr} {s t : State} (h : exec i s = .next t) (hz : i ≠ .zeroize) :
    SameConfig s t ∧ t.key = s.key := by
  cases commandRun_of_exec h with
  | zeroize => exact absurd rfl hz
  | final dir e out p ho hp hpad =>
    exact ⟨sameConfig_clearStream (sameConfig_finish e out p s), (sameKeys_finish e out p s).1⟩
  | fails e => exact ⟨sameConfig_finish .., (sameKeys_finish _ [] 0 s).1⟩
  | keysched e r hp => exact ⟨sameConfig_finish .., (sameKeys_finish e [] 0 (setRk r s)).1⟩
  | init dir hk => exact ⟨sameConfig_finish .., rfl⟩
  | update dir n out cv buf hrun => exact ⟨sameConfig_finish .., rfl⟩
  | padApply q n out p ho hp => exact ⟨sameConfig_finish .., rfl⟩
  | padCheck q out p ho hp => exact ⟨sameConfig_finish .., rfl⟩

/-- RK changes only by KEYSCHED in IDLE and by ZEROIZE (R32). -/
theorem rk_of_exec {i : Instr} {s t : State} (h : exec i s = .next t) :
    t.rk = s.rk ∨ (i = .keysched ∧ s.phase = .idle) ∨ i = .zeroize := by
  cases commandRun_of_exec h with
  | keysched e r hp => exact .inr (.inl ⟨rfl, hp⟩)
  | zeroize => exact .inr (.inr rfl)
  | fails e => exact .inl (finish_rk ..)
  | final dir e out p ho hp hpad => exact .inl (finish_rk e out p s)
  | init dir hk => exact .inl rfl
  | update dir n out cv buf hrun => exact .inl rfl
  | padApply q n out p ho hp => exact .inl rfl
  | padCheck q out p ho hp => exact .inl rfl

/-- PHASE changes only by Init, Final and ZEROIZE, each to its own phase (R26). -/
theorem phase_of_exec {i : Instr} {s t : State} (h : exec i s = .next t) :
    t.phase = s.phase ∨ (i = .encInit ∧ t.phase = .enc) ∨ (i = .decInit ∧ t.phase = .dec) ∨
      ((i = .encFinal ∨ i = .decFinal ∨ i = .zeroize) ∧ t.phase = .idle) := by
  cases commandRun_of_exec h with
  | init dir hk =>
    cases dir
    · exact .inr (.inl ⟨rfl, rfl⟩)
    · exact .inr (.inr (.inl ⟨rfl, rfl⟩))
  | final dir e out p ho hp hpad =>
    cases dir
    · exact .inr (.inr (.inr ⟨.inl rfl, rfl⟩))
    · exact .inr (.inr (.inr ⟨.inr (.inl rfl), rfl⟩))
  | zeroize => exact .inr (.inr (.inr ⟨.inr (.inr rfl), rfl⟩))
  | fails e => exact .inl (finish_phase ..)
  | keysched e r hp => exact .inl (finish_phase e [] 0 (setRk r s))
  | update dir n out cv buf hrun => exact .inl rfl
  | padApply q n out p ho hp => exact .inl rfl
  | padCheck q out p ho hp => exact .inl rfl

/-! ### Cycles of the outside world -/

/-- A cycle with rst_n low leaves an engine in IDLE without round keys (R230). -/
theorem hostCycle_reset {s : State} (h : resetPending s = true) :
    (hostCycle s).phase = .idle ∧ (hostCycle s).rk = none := by
  obtain ⟨es, hs⟩ := (resetPending_iff s).1 h
  simp [hostCycle, hs]

/-- A cycle without reset is no event for the engine, or one transaction. -/
theorem hostCycle_no_reset {s : State} (h : resetPending s = false) :
    (∃ es, hostCycle s = { s with host := es }) ∨
    (∃ x es, s.host = .txn x :: es ∧ hostCycle s = busTxn x { s with host := es }) := by
  rcases hostCycle_cases s with ⟨_, e⟩ | ⟨es, _, e⟩ | ⟨x, es, hs, e⟩ | ⟨es, hs, _⟩
  · exact .inl ⟨s.host, e⟩
  · exact .inl ⟨es, e⟩
  · exact .inr ⟨x, es, hs, e⟩
  · rw [(resetPending_iff s).2 ⟨es, hs⟩] at h
    cases h

/-- A cycle without reset keeps PHASE, CV and BUF, and in a stream CFG, IV, KEY and RK (R243). -/
theorem hostCycle_keeps {s : State} (h : resetPending s = false) :
    SameStream s (hostCycle s) ∧ (s.phase ≠ .idle → (hostCycle s).mode = s.mode ∧ (hostCycle s).pad = s.pad ∧
      (hostCycle s).iv = s.iv ∧ (hostCycle s).key = s.key ∧ (hostCycle s).rk = s.rk) := by
  rcases hostCycle_no_reset h with ⟨es, e⟩ | ⟨x, es, _, e⟩ <;> rw [e]
  · exact ⟨⟨rfl, rfl, rfl⟩, fun _ => ⟨rfl, rfl, rfl, rfl, rfl⟩⟩
  · exact busTxn_keeps x { s with host := es }

/-- What a write at `a` may do to RK: nothing, or set it to invalid where it writes a KEY byte in IDLE (R33). -/
def KeyWriteOnly (a : Nat) (s u : State) : Prop :=
  u.phase = s.phase ∧ (u.rk = s.rk ∨ (u.rk = none ∧ s.phase = .idle ∧ 0x40 ≤ a ∧ a ≤ 0x4F))

theorem keyWriteOnly_refl (a : Nat) (s : State) : KeyWriteOnly a s s := ⟨rfl, .inl rfl⟩

/-- A store in the word at `a`, aligned where it is not at `a` itself, invalidates RK only if `a` lies in KEY. -/
theorem keyWriteOnly_storeByte {a c : Nat} {b : Byte} {s u : State} (h : KeyWriteOnly a s u)
    (hc : c = a ∨ (a % 4 = 0 ∧ a ≤ c ∧ c < a + 4)) : KeyWriteOnly a s (storeByte c b u) := by
  obtain ⟨hphase, hrk⟩ := h
  rcases storeByte_cases c b u with e | ⟨i, hk, hp, e⟩ | ⟨_, _, _, e⟩ | ⟨_, _, e⟩ <;> rw [e]
  · exact ⟨hphase, hrk⟩
  · have hr := key_range_of_classify hk
    exact ⟨hphase, .inr ⟨rfl, hphase.symm.trans hp, by omega, by omega⟩⟩
  · exact ⟨hphase, hrk⟩
  · exact ⟨hphase, hrk⟩

/-- A legal write invalidates RK only if its address lies in KEY (R33, R65). -/
theorem keyWriteOnly_writeValue {size : Size} {a : Nat} {v : Word} {s : State}
    (hs : sizeOk (classify s.params a) size a = true) : KeyWriteOnly a s (writeValue size a v s) := by
  have h0 := keyWriteOnly_refl a s
  unfold writeValue
  split
  · rename_i r _
    rcases writeControl_cases r v s with e | ⟨_, e⟩ | ⟨_, e⟩ | ⟨_, e⟩ | ⟨_, _, e⟩ <;> rw [e] <;> exact h0
  · rename_i c _ hctrl
    have hal : a % 4 = 0 := aligned_of_sizeOk_four hs
    have lane {c : Nat} {b : Byte} {u : State} (h : KeyWriteOnly a s u) (h1 : a ≤ c) (h2 : c < a + 4) :
        KeyWriteOnly a s (storeByte c b u) := keyWriteOnly_storeByte h (.inr ⟨hal, h1, h2⟩)
    exact lane (lane (lane (lane h0 (by omega) (by omega)) (by omega) (by omega)) (by omega) (by omega))
      (by omega) (by omega)
  · exact keyWriteOnly_storeByte h0 (.inl rfl)

/-- A transaction changes RK only as an accepted write to a KEY byte in IDLE (R32, R33). -/
theorem rk_of_busTxn (x : Txn) (s : State) :
    (busTxn x s).rk = s.rk ∨ ((busTxn x s).rk = none ∧ s.phase = .idle ∧ busy s = false ∧ x.write = true ∧
      0x40 ≤ x.addr.toNat ∧ x.addr.toNat ≤ 0x4F) := by
  unfold busTxn
  split
  · rename_i hw
    rcases busWrite_cases x s with ⟨_, e⟩ | ⟨ha, e⟩ <;> rw [e]
    · exact .inl rfl
    · have hs : sizeOk (classify s.params x.addr.toNat) x.size x.addr.toNat = true := (Bool.and_eq_true_iff.1 ha).1
      obtain ⟨_, hrk⟩ := keyWriteOnly_writeValue (s := nextDraw s) (v := x.wdata) hs
      rcases hrk with hrk | ⟨hnone, hp, hlo, hhi⟩
      · exact .inl hrk
      · exact .inr ⟨hnone, hp, not_busy_of_accepted ha hw, hw, hlo, hhi⟩
  · rcases busRead_cases x s with ⟨_, e⟩ | ⟨_, _, _, e⟩ | ⟨_, _, e⟩ <;> rw [e] <;> exact .inl rfl

/-- A cycle without reset changes RK only by an accepted write to a KEY byte in IDLE (R32, R33). -/
theorem rk_of_hostCycle {s : State} (h : resetPending s = false) (hne : (hostCycle s).rk ≠ s.rk) :
    (hostCycle s).rk = none ∧ s.phase = .idle ∧ busy s = false ∧
      ∃ x es, s.host = .txn x :: es ∧ x.write = true ∧ 0x40 ≤ x.addr.toNat ∧ x.addr.toNat ≤ 0x4F := by
  rcases hostCycle_no_reset h with ⟨es, e⟩ | ⟨x, es, hs, e⟩ <;> rw [e] at hne ⊢
  · exact absurd rfl hne
  · rcases rk_of_busTxn x { s with host := es } with hsame | ⟨hnone, hp, hb, hw, hlo, hhi⟩
    · exact absurd hsame hne
    · exact ⟨hnone, hp, hb, x, es, hs, hw, hlo, hhi⟩

/-! ### The obligations -/

/-- Settles O33, by the cases of a command. -/
theorem padLenReportsPadding : Obligations.PadLenReportsPadding := fun _ _ _ h => padLen_of_exec h

/-- Settles O39: in a stream KEYSCHED fails and the bus is locked, so only ZEROIZE and a reset remain. -/
theorem streamParametersAreLocked : Obligations.StreamParametersAreLocked := by
  intro s t hp ht
  rcases step_cases ht with ⟨hr, rfl⟩ | ⟨w, i, hdue, hd, hx⟩ | ⟨w, r, _, _, rfl⟩ | ⟨hr, _, _, rfl⟩ | ⟨hr, _, rfl⟩
  · exact .inr ⟨(hostCycle_reset hr).1, .inl hr⟩
  · by_cases hz : i = .zeroize
    · subst hz
      cases hx
      exact .inr ⟨rfl, .inr ⟨w, hdue, hd⟩⟩
    · obtain ⟨⟨_, _, hmode, hpad, hiv⟩, hkey⟩ := config_of_exec hx hz
      rcases rk_of_exec hx with hrk | ⟨_, hidle⟩ | hz'
      · exact .inl ⟨hmode, hpad, hiv, hkey, hrk⟩
      · exact absurd hidle hp
      · exact absurd hz' hz
  · exact .inl ⟨rfl, rfl, rfl, rfl, rfl⟩
  · exact .inl ((hostCycle_keeps (s := countDown s) hr).2 hp)
  · exact .inl ((hostCycle_keeps hr).2 hp)

/-- Settles O40. -/
theorem roundKeysChangeOnlyByRule : Obligations.RoundKeysChangeOnlyByRule := by
  intro s t ht hne
  rcases step_cases ht with ⟨hr, rfl⟩ | ⟨w, i, hdue, hd, hx⟩ | ⟨w, r, _, _, rfl⟩ | ⟨hr, _, _, rfl⟩ | ⟨hr, _, rfl⟩
  · exact .inr (.inl ⟨(hostCycle_reset hr).2, hr⟩)
  · rcases rk_of_exec hx with hrk | ⟨rfl, _⟩ | rfl
    · exact absurd hrk hne
    · exact .inl ⟨w, hdue, .inl hd⟩
    · exact .inl ⟨w, hdue, .inr hd⟩
  · exact absurd rfl hne
  · exact .inr (.inr (rk_of_hostCycle (s := countDown s) hr hne))
  · exact .inr (.inr (rk_of_hostCycle hr hne))

/-- Settles O41. -/
theorem phaseChangesOnlyByRule : Obligations.PhaseChangesOnlyByRule := by
  intro s t ht hne
  rcases step_cases ht with ⟨hr, rfl⟩ | ⟨w, i, hdue, hd, hx⟩ | ⟨w, r, _, _, rfl⟩ | ⟨hr, _, _, rfl⟩ | ⟨hr, _, rfl⟩
  · exact .inl ⟨hr, (hostCycle_reset hr).1⟩
  · exact .inr ⟨w, i, hdue, hd, (phase_of_exec hx).resolve_left hne⟩
  · exact absurd rfl hne
  · exact absurd (hostCycle_keeps (s := countDown s) hr).1.1 hne
  · exact absurd (hostCycle_keeps hr).1.1 hne

end Sys2Proof.Machine
end

section
/-! PROOFS. The bus claims about single registers and windows: what each reads, what a write to it stores, and what it
leaves unchanged. -/

namespace Sys2Proof.Machine

/-! ### Control registers -/

/-- A control register's word, given as a number (R67). -/
theorem readControl_of_toNat {s : State} {d : Word} {a : BitVec 14} {r : CtrlReg} {v : Nat} (hb : busy s = false)
    (hr : controlAt a.toNat = some r) (hv : (controlValue s r).toNat = v) :
    (busTxn { write := false, addr := a, size := .four, wdata := d } s).answer =
      some { rdata := BitVec.ofNat 32 v, resp := .okay } := by
  rw [busTxn_readControl hb hr, ← hv, BitVec.ofNat_toNat, BitVec.setWidth_eq]

theorem toNat_eq_ite (b : Bool) : b.toNat = if b = true then 1 else 0 := by cases b <;> rfl

/-- Settles O43: each word is the number its fields make up. -/
theorem controlRegisterReads : Obligations.ControlRegisterReads := by
  intro s d hi hb reads phase err
  have hlen := hi.buf_length_le
  have hphase : (phaseCode s.phase).toNat = phase := by simp only [phase]; cases s.phase <;> rfl
  have herr : (errCode s.err).toNat = err := by simp only [err]; cases s.err <;> rfl
  have hpad : (paddingBit s.pad).toNat = if s.pad = .pkcs then 1 else 0 := by cases s.pad <;> rfl
  refine ⟨readControl_of_toNat (r := .id) hb rfl rfl, readControl_of_toNat (r := .param) hb rfl ?_,
    readControl_of_toNat (r := .ctrl) hb rfl ((ctrlWord_toNat s).trans (toNat_eq_ite _)),
    readControl_of_toNat (r := .status) hb rfl ?_, readControl_of_toNat (r := .cmd) hb rfl rfl,
    readControl_of_toNat (r := .cfg) hb rfl ?_, readControl_of_toNat (r := .outLen) hb rfl ?_,
    readControl_of_toNat (r := .padLen) hb rfl ?_, readControl_of_toNat (r := .bufLen) hb rfl ?_⟩
  · refine (paramWord_toNat s.params).trans ?_
    cases s.params.holdback <;> rfl
  · refine (statusWord_toNat s).trans ?_
    rw [hb, hphase, herr, toNat_eq_ite s.done, toNat_eq_ite (rkv s), rkv]
    split <;> split <;> simp
  · refine (cfgWord_toNat s).trans ?_
    rw [hpad]
    split <;> simp
  · exact BitVec.toNat_setWidth_of_le (by omega)
  · exact BitVec.toNat_setWidth_of_le (by omega)
  · simp only [controlValue, bufLen, BitVec.toNat_ofNat]
    omega

/-- ID, PARAM, OUT_LEN, PAD_LEN and BUF_LEN ignore writes (R68). -/
theorem writeControl_ignored {r : CtrlReg} (v : Word) (s : State)
    (h : r ∈ [CtrlReg.id, .param, .outLen, .padLen, .bufLen]) : writeControl r v s = s := by
  cases r
  case id | param | outLen | padLen | bufLen => rfl
  all_goals exact absurd h (by decide)

/-- Writing 1 to STATUS bit 1 clears DONE, and STATUS stores nothing else (R25). -/
theorem writeControl_status (v : Word) (s : State) :
    writeControl .status v s = { s with done := s.done && !v.getLsbD 1 } := by
  simp only [writeControl]
  split
  · rename_i hv; rw [hv, Bool.not_true, Bool.and_false]
  · rename_i hv; rw [Bool.eq_false_iff.2 hv, Bool.not_false, Bool.and_true]

/-- CFG stores MODE and PAD in IDLE (R28). -/
theorem writeControl_cfg {s : State} (v : Word) (hp : s.phase = .idle) :
    writeControl .cfg v s = { s with mode := v.extractLsb' 0 3, pad := paddingOfBit (v.getLsbD 4) } := if_pos hp

/-- CFG is locked while a stream runs (R243). -/
theorem writeControl_cfg_locked {s : State} (v : Word) (hp : s.phase ≠ .idle) : writeControl .cfg v s = s := if_neg hp

/-- Settles O47, register by register. -/
theorem controlRegisterWrites : Obligations.ControlRegisterWrites := by
  intro s v hb w
  have hw {a : BitVec 14} {r : CtrlReg} (hr : controlAt a.toNat = some r) :
      w a = answerWith { rdata := drawWord s, resp := .okay } (writeControl r v (nextDraw s)) :=
    busTxn_writeControl hb hr
  have okay {a : BitVec 14} (r : CtrlReg) (hr : controlAt a.toNat = some r) :
      ∃ d, (w a).answer = some { rdata := d, resp := .okay } := by
    rw [hw hr]
    exact ⟨_, rfl⟩
  have ignored {a : BitVec 14} (r : CtrlReg) (hr : controlAt a.toNat = some r)
      (hmem : r ∈ [CtrlReg.id, .param, .outLen, .padLen, .bufLen]) : SameEngine s (w a) := by
    rw [hw hr, writeControl_ignored v _ hmem]
    exact sameEngine_refl s
  refine ⟨?_, ?_, ?_, ?_, fun hp => ?_, fun hp => ?_⟩
  · simp only [List.forall_mem_cons]
    exact ⟨okay .id rfl, okay .param rfl, okay .ctrl rfl, okay .status rfl, okay .cfg rfl, okay .outLen rfl,
      okay .padLen rfl, okay .bufLen rfl, List.forall_mem_nil _⟩
  · simp only [List.forall_mem_cons]
    exact ⟨ignored .id rfl (by decide), ignored .param rfl (by decide), ignored .outLen rfl (by decide),
      ignored .padLen rfl (by decide), ignored .bufLen rfl (by decide), List.forall_mem_nil _⟩
  · rw [hw (r := .ctrl) rfl]
    exact ⟨rfl, sameEngine_refl s⟩
  · rw [hw (r := .status) rfl, writeControl_status]
    exact ⟨rfl, sameEngine_refl s⟩
  · rw [hw (r := .cfg) rfl, writeControl_cfg (s := nextDraw s) v hp]
    refine ⟨?_, ?_, sameEngine_refl s⟩
    · exact (BitVec.extractLsb'_toNat ..).trans (by simp)
    · simp only [answerWith]
      cases v.getLsbD 4 <;> simp [paddingOfBit]
  · rw [hw (r := .cfg) rfl, writeControl_cfg_locked (s := nextDraw s) v hp]
    exact sameEngine_refl s

/-- Settles O50. -/
theorem commandAcceptance : Obligations.CommandAcceptance := by
  intro s w hb t
  have ht : t = answerWith { rdata := drawWord s, resp := .okay } (acceptCommand w (nextDraw s)) :=
    busTxn_writeControl (r := .cmd) hb rfl
  rw [ht]
  exact ⟨⟨_, rfl⟩, rfl, rfl, rfl, sameEngine_refl s⟩

/-! ### Reads of bytes and words -/

/-- Where the four context registers lie (R33 to R36). -/
theorem byteRegAt_regions : ∀ i : Fin 16, byteRegAt (0x40 + i.val) = .key ∧ byteRegAt (0x50 + i.val) = .iv ∧
    byteRegAt (0x60 + i.val) = .cv ∧ byteRegAt (0x70 + i.val) = .buf := by decide

/-- Byte i of the context register at `base` (R33 to R36). -/
theorem readByte_register (s : State) {base : Nat} {r : ByteReg} (i : Fin 16)
    (hbase : base ∈ [0x40, 0x50, 0x60, 0x70]) (hr : byteRegAt (base + i.val) = r) :
    readByte s (base + i.val) = contextByte s r i.val := by
  have hi := i.isLt
  simp only [List.mem_cons, List.not_mem_nil, or_false] at hbase
  rw [readByte_context (by omega) (by omega), hr, show (base + i.val) % 16 = i.val by omega]

/-- BUF reads 0x00 at and beyond BUF_LEN (R36). -/
theorem bufByte_eq_ite (s : State) (i : Nat) : bufByte s i = if i < s.buf.length then s.buf.getD i 0 else 0 := by
  split
  · rfl
  · rename_i h
    exact List.getD_eq_default _ _ (not_lt.1 h)

/-- Four bytes in big-endian lanes, as a number (R65). -/
theorem lanes_eq_ofNat (b0 b1 b2 b3 : Byte) : b0 ++ (b1 ++ (b2 ++ b3)) =
    BitVec.ofNat 32 (2 ^ 24 * b0.toNat + 2 ^ 16 * b1.toNat + 2 ^ 8 * b2.toNat + b3.toNat) := by
  apply BitVec.eq_of_toNat_eq
  rw [toNat_append_eq, toNat_append_eq, toNat_append_eq, BitVec.toNat_ofNat]
  omega

/-- Settles O44: byte reads region by region, and a word read as its four byte reads. -/
theorem windowAndContextReads : Obligations.WindowAndContextReads := by
  intro s d hb byteAt
  have answer {a : Nat} (h : ByteMapped s.params a) : byteAt a (readByte s a) := byteRead_answer hb h
  refine ⟨fun i => ?_, fun i hi => ?_, fun i hi => ?_, fun a hal hr => ?_⟩
  · obtain ⟨hkey, hiv, hcv, hbuf⟩ := byteRegAt_regions i
    have register {base : Nat} {r : ByteReg} (hbase : base ∈ [0x40, 0x50, 0x60, 0x70])
        (hr : byteRegAt (base + i.val) = r) : byteAt (base + i.val) (contextByte s r i.val) := by
      rw [← readByte_register s i hbase hr]
      simp only [List.mem_cons, List.not_mem_nil, or_false] at hbase
      exact answer (.inl (by omega))
    have getD_eq (b : Bytes16) : b.toList.getD i.val 0 = b[i] := by simp
    refine ⟨register (by decide) hkey, ?_, ?_, ?_⟩
    · rw [← getD_eq]; exact register (by decide) hiv
    · rw [← getD_eq]; exact register (by decide) hcv
    · rw [← bufByte_eq_ite]; exact register (by decide) hbuf
  · rw [dinByte, ← readByte_din (s := s) (by simp [dinBase]) (by simpa [dinBase] using hi)]
    exact answer (.inr (.inl (by omega)))
  · rw [doutByte, ← readByte_dout (s := s) (by simp [doutBase]) (by simp only [doutBase]; omega)]
    exact answer (.inr (.inr (by omega)))
  · have hm : ByteMapped s.params a := by unfold ByteMapped; omega
    refine ⟨_, _, _, _, answer hm, answer (hm.add hal (by omega)), answer (hm.add hal (by omega)),
      answer (hm.add hal (by omega)), ?_⟩
    rw [wordRead_answer hb hm hal, lanes_eq_ofNat]

/-- What a read answers does not depend on KEY, and on RK only through RKV (R32, R33, R220). -/
theorem readValue_keys {s : State} {k : Bytes16} {r : Option RoundKeys} (h : r.isSome = s.rk.isSome) (size : Size)
    (a : Nat) : readValue { s with key := k, rk := r } size a = readValue s size a := by
  have hctrl (c : CtrlReg) : controlValue { s with key := k, rk := r } c = controlValue s c := by
    cases c
    case status => simp only [controlValue, statusWord, rkv, h]; rfl
    all_goals rfl
  have hbyte (a : Nat) : readByte { s with key := k, rk := r } a = readByte s a := by
    unfold readByte
    split
    · rename_i c i hc
      rw [hc]
      cases c <;> rfl
    all_goals (rename_i hc; rw [hc])
  simp only [readValue, hctrl, hbyte]

/-- What a write transaction is answered (R61, R66). -/
theorem busWrite_answer (x : Txn) (s : State) : (busWrite x s).answer =
    some { rdata := drawWord s, resp := if accepted s x = true then .okay else .slverr } := by
  rcases busWrite_cases x s with ⟨ha, e⟩ | ⟨ha, e⟩ <;> rw [e, ha] <;> rfl

/-- What a read transaction is answered (R61, R67, R75). -/
theorem busRead_answer (x : Txn) (s : State) : (busRead x s).answer =
    if accepted s x = false then some { rdata := 0, resp := .slverr }
    else if busy s = true ∧ readableWhileBusy (classify s.params x.addr.toNat) = false then
      some { rdata := drawWord s, resp := .okay }
    else some { rdata := readValue s x.size x.addr.toNat, resp := .okay } := by
  unfold busRead
  split
  · rfl
  · split <;> rfl

/-- Settles O52: an answer is legality, a free value, or what is read, and none of them sees KEY or RK. -/
theorem keysAreNotReadable : Obligations.KeysAreNotReadable := by
  intro s k r x h
  unfold busTxn
  split
  · rw [busWrite_answer, busWrite_answer]
    rfl
  · rw [busRead_answer, busRead_answer, readValue_keys h]
    rfl

/-! ### Writes of bytes and words -/

/-- Settles O49. -/
theorem readOnlyRegionsIgnoreWrites : Obligations.ReadOnlyRegionsIgnoreWrites := by
  intro s x hw hb hsize ha
  have hm : ByteMapped s.params x.addr.toNat := by unfold ByteMapped; omega
  rcases hsize with hs | ⟨hs, hal⟩
  · rw [busTxn_writeByte hb hm hw hs rfl, storeByte_readOnly (s := nextDraw s) _ ha]
    exact ⟨⟨_, rfl⟩, sameEngine_refl s⟩
  · have ignored {c : Nat} (h1 : x.addr.toNat ≤ c) (h2 : c < x.addr.toNat + 4) (b : Byte) :
        storeByte c b (nextDraw s) = nextDraw s := by
      have := dinSize_mod s.params
      refine storeByte_readOnly (s := nextDraw s) b ?_
      simp only [nextDraw_params]
      omega
    rw [busTxn_writeWord hb hm hw hs rfl hal, ignored (by omega) (by omega), ignored (by omega) (by omega),
      ignored (by omega) (by omega), ignored (by omega) (by omega)]
    exact ⟨⟨_, rfl⟩, sameEngine_refl s⟩

/-- One byte lane of a word, as a read answers it (R65). -/
theorem lane_setWidth (v : Word) (k : Nat) : (v.extractLsb' k 8).setWidth 32 = (v >>> k) &&& 0xFF := by
  apply BitVec.eq_of_toNat_eq
  have hmask : ∀ n : Nat, n &&& 255 = n % 256 := fun n => Nat.and_two_pow_sub_one_eq_mod n 8
  simp only [BitVec.toNat_setWidth, BitVec.extractLsb'_toNat, BitVec.toNat_and, BitVec.toNat_ushiftRight,
    BitVec.reduceToNat, hmask]
  omega

/-- The four lanes of a word, the byte of the lowest address first (R65). -/
def lanes (v : Word) : List Byte := [v.extractLsb' 24 8, v.extractLsb' 16 8, v.extractLsb' 8 8, v.extractLsb' 0 8]

/-- Lane k of a word, as a byte read answers it (R65). -/
theorem lanes_getElem_setWidth (v : Word) {k : Nat} (hk : k < (lanes v).length) :
    ((lanes v)[k]).setWidth 32 = (v >>> (24 - 8 * k)) &&& 0xFF := by
  have hk4 : k < 4 := hk
  rw [← lane_setWidth]
  obtain rfl | rfl | rfl | rfl : k = 0 ∨ k = 1 ∨ k = 2 ∨ k = 3 := by omega
  all_goals rfl

/-- The top lane has no bits above it. -/
theorem top_lane (v : Word) : (v >>> 24) &&& (0xFF : Word) = v >>> 24 := by
  rw [← lane_setWidth]
  apply BitVec.eq_of_toNat_eq
  have := v.isLt
  simp only [BitVec.toNat_setWidth, BitVec.extractLsb'_toNat, BitVec.toNat_ushiftRight, Nat.shiftRight_eq_div_pow]
  omega

/-- The window's bytes after a DIN write, as a byte read answers them (R37). -/
theorem byteRead_setMem {s : State} {d : Word} {a : Nat} {m : Memory} (ans : BusAnswer) (hb : busy s = false)
    (h1 : 0x1000 ≤ a) (h2 : a < 0x1000 + s.params.dinSize) :
    (busTxn { write := false, addr := BitVec.ofNat 14 a, size := .one, wdata := d }
      (answerWith ans (setMem m (nextDraw s)))).answer =
      some { rdata := (readMem m a).setWidth 32, resp := .okay } := by
  rw [byteRead_answer (s := answerWith ans (setMem m (nextDraw s))) hb (.inr (.inl ⟨h1, h2⟩)),
    readByte_din (s := answerWith ans (setMem m (nextDraw s))) h1 h2]
  rfl

/-- Settles O46: a write stores its lanes in order, and nothing else. -/
theorem dinWritesAreReadBack : Obligations.DinWritesAreReadBack := by
  intro s a v d hwf hb h1 h2 t1 t4 byteRead
  have hm : ByteMapped s.params a := .inr (.inl ⟨h1, h2⟩)
  refine ⟨?_, fun hal => ?_⟩
  · have e : t1 = answerWith { rdata := drawWord s, resp := .okay }
        (setMem (writeMem s.mem a (v.extractLsb' 0 8)) (nextDraw s)) :=
      (busTxn_writeByte hb hm rfl rfl (toNat_addr hm.lt)).trans
        (congrArg _ (storeByte_din (s := nextDraw s) h1 h2 _))
    rw [e]
    refine ⟨?_, fun b hne => readMem_writeMem_other hne, sameEngine_setMem ..⟩
    refine (byteRead_setMem _ hb h1 h2).trans ?_
    rw [readMem_writeMem_same hwf, lane_setWidth, BitVec.ushiftRight_zero]
  · have hdin := dinSize_mod s.params
    have e : t4 = answerWith { rdata := drawWord s, resp := .okay }
        (setMem (writeMems s.mem a (lanes v)) (nextDraw s)) :=
      (busTxn_writeWord hb hm rfl rfl (toNat_addr hm.lt) hal).trans
        (congrArg _ (storeBytes_din (s := nextDraw s) h1 (by simp only [nextDraw_params]; omega) _ _ _ _))
    have read (k : Nat) (hk : k < 4) :
        byteRead t4 (a + k) = some { rdata := (v >>> (24 - 8 * k)) &&& 0xFF, resp := .okay } := by
      rw [e, ← lanes_getElem_setWidth v hk, ← readMem_writeMems_inside hwf a (lanes v) hk]
      exact byteRead_setMem _ hb (by omega) (by omega)
    refine ⟨?_, read 1 (by omega), read 2 (by omega), ?_, ?_, ?_⟩
    · rw [← top_lane]; exact read 0 (by omega)
    · rw [← BitVec.ushiftRight_zero v]; exact read 3 (by omega)
    · rw [e]; exact fun b hout => readMem_writeMems_outside hout
    · rw [e]; exact sameEngine_setMem ..

/-- A legal write to KEY or IV stores nothing while a stream runs (R243). -/
theorem writeValue_locked {s : State} {size : Size} {a : Nat} (v : Word) (hp : s.phase ≠ .idle) (h1 : 0x40 ≤ a)
    (h2 : a < 0x60) (hs : sizeOk (classify s.params a) size a = true) : writeValue size a v s = s := by
  have hm : ByteMapped s.params a := .inl (by omega)
  cases size with
  | one => rw [writeValue_one v hm, storeByte_locked hp h1 h2]
  | two =>
    rcases hm.classify with ⟨_, e⟩ | ⟨_, e⟩ | ⟨_, e⟩ <;> rw [e] at hs <;> cases hs
  | four =>
    have hal := aligned_of_sizeOk_four hs
    rw [writeValue_four v hm, storeByte_locked hp h1 h2, storeByte_locked hp (by omega) (by omega),
      storeByte_locked hp (by omega) (by omega), storeByte_locked hp (by omega) (by omega)]

/-- No write to KEY or IV, legal or not, changes the engine while a stream runs (R243, R244). -/
theorem sameEngine_busTxn_locked {s : State} {x : Txn} (hp : s.phase ≠ .idle) (hw : x.write = true)
    (h1 : 0x40 ≤ x.addr.toNat) (h2 : x.addr.toNat < 0x60) : SameEngine s (busTxn x s) := by
  simp only [busTxn, hw, if_true]
  rcases busWrite_cases x s with ⟨_, e⟩ | ⟨ha, e⟩ <;> rw [e]
  · exact sameEngine_refl s
  · rw [writeValue_locked (s := nextDraw s) _ hp h1 h2 (Bool.and_eq_true_iff.1 ha).1]
    exact sameEngine_refl s

theorem extractLsb'_zero_eq_setWidth (v : Word) : v.extractLsb' 0 8 = v.setWidth 8 :=
  BitVec.eq_of_toNat_eq (by simp)

/-- One byte stored in a 16-byte value (R65). -/
theorem storeOne_getElem (r : Bytes16) (i : Fin 16) (v : Word) (j : Fin 16) :
    (r.setIfInBounds i.val (v.extractLsb' 0 8))[j] = if j = i then v.setWidth 8 else r[j] := by
  rw [setIfInBounds_getElem, extractLsb'_zero_eq_setWidth]
  simp only [Fin.ext_iff]

/-- Settles O48: in IDLE the stores of R33 and R34, by lanes; in a stream the lock of R243. -/
theorem keyAndIvWrites : Obligations.KeyAndIvWrites := by
  intro s i v hb w lane
  have hi := i.isLt
  have hkey : ByteMapped s.params (0x40 + i.val) := .inl (by omega)
  have hiv : ByteMapped s.params (0x50 + i.val) := .inl (by omega)
  have key_byte : w 0x40 .one = _ := busTxn_writeByte hb hkey rfl rfl (toNat_addr hkey.lt)
  have iv_byte : w 0x50 .one = _ := busTxn_writeByte hb hiv rfl rfl (toNat_addr hiv.lt)
  refine ⟨⟨_, congrArg State.answer key_byte⟩, ⟨_, congrArg State.answer iv_byte⟩, fun hp => ⟨?_, ?_, fun hal => ?_,
    fun hal => ?_⟩, fun hp size => ⟨?_, ?_⟩⟩
  · rw [storeByte_key (s := nextDraw s) hp hi] at key_byte
    rw [key_byte]
    exact ⟨rfl, storeOne_getElem s.key i v, sameEngine_setKey ..⟩
  · rw [storeByte_iv (s := nextDraw s) hp hi] at iv_byte
    rw [iv_byte]
    exact ⟨storeOne_getElem s.iv i v, sameEngine_setIv ..⟩
  · have key_word : w 0x40 .four = _ := busTxn_writeWord hb hkey rfl rfl (toNat_addr hkey.lt) (by omega)
    rw [storeBytes_key (s := nextDraw s) hp (by omega)] at key_word
    rw [key_word]
    exact ⟨rfl, storeFour_getElem s.key i v, sameEngine_setKey ..⟩
  · have iv_word : w 0x50 .four = _ := busTxn_writeWord hb hiv rfl rfl (toNat_addr hiv.lt) (by omega)
    rw [storeBytes_iv (s := nextDraw s) hp (by omega)] at iv_word
    rw [iv_word]
    exact ⟨storeFour_getElem s.iv i v, sameEngine_setIv ..⟩
  · exact sameEngine_busTxn_locked hp rfl (by rw [toNat_addr hkey.lt]; omega) (by rw [toNat_addr hkey.lt]; omega)
  · exact sameEngine_busTxn_locked hp rfl (by rw [toNat_addr hiv.lt]; omega) (by rw [toNat_addr hiv.lt]; omega)

end Sys2Proof.Machine
end

section
/-! PROOFS. Progress: in a state of the invariant every command completes and every step answers a next state; and the
cycles of the outside world before the engine's step, one event each, until a running command completes. -/

namespace Sys2Proof.Machine

/-! ### Every command answers -/

/-- With valid round keys the result of a Final needs no stop (R112). -/
theorem finalBody_next {s : State} {k : RoundKeys} (dir : Direction) (hk : s.rk = some k) :
    ∃ r, finalBody dir s = .next r := by
  have keyed (f : (Bytes16 → Bytes16) → State → State) : ∃ r, withKeystream f s = .next r := by
    simp only [withKeystream, hk]
    exact ⟨_, rfl⟩
  unfold finalBody
  split
  · split
    · exact ⟨_, rfl⟩
    · exact keyed _
  · split
    · split
      · exact ⟨_, rfl⟩
      · exact keyed _
    · split
      · exact ⟨_, rfl⟩
      · exact keyed _

/-- An Update answers a next state: where its checks pass a stream runs, which has round keys (R41). -/
theorem EngineInv.updateCommand_next {s : State} (h : EngineInv s) (dir : Direction) (n : Nat) :
    ∃ t, updateCommand dir n s = .next t := by
  by_cases hc : updateCheck dir n s = .ok
  · obtain ⟨hn, hp, hm⟩ := (updateCheck_ok_iff dir n s).1 hc
    obtain ⟨k, hk⟩ := h.roundKeys hp
    exact ⟨_, updateCommand_eq h.buf_length_le hn hp hm hk⟩
  · exact ⟨_, updateCommand_fail rfl hc⟩

/-- A Final answers a next state, for the same reason. -/
theorem EngineInv.finalCommand_next {s : State} (h : EngineInv s) (dir : Direction) :
    ∃ t, finalCommand dir s = .next t := by
  by_cases hc : finalCheck dir s = .ok
  · obtain ⟨k, hk⟩ := h.roundKeys ((finalCheck_ok_iff dir s).1 hc).1
    obtain ⟨r, hr⟩ := finalBody_next dir hk
    exact ⟨_, finalCommand_eq hc hr⟩
  · exact ⟨_, finalCommand_fail rfl hc⟩

/-- Only the keystream commands could stop, and in a state of the invariant they do not (R112, R200). -/
theorem EngineInv.exec_next {s : State} (h : EngineInv s) (i : Instr) : ∃ t, Machine.exec i s = .next t := by
  cases i with
  | encUpdate n => exact h.updateCommand_next .enc n
  | decUpdate n => exact h.updateCommand_next .dec n
  | encFinal => exact h.finalCommand_next .enc
  | decFinal => exact h.finalCommand_next .dec
  | keysched => exact ⟨_, rfl⟩
  | encInit => exact ⟨_, rfl⟩
  | decInit => exact ⟨_, rfl⟩
  | padApply p n => exact ⟨_, rfl⟩
  | padCheck p => exact ⟨_, rfl⟩
  | zeroize => exact ⟨_, rfl⟩

/-- A command that answers has completed: BUSY = 0 and DONE = 1, and no event of the outside world is taken (R16). -/
theorem exec_done {i : Instr} {s t : State} (h : exec i s = .next t) :
    busy t = false ∧ t.done = true ∧ t.host = s.host := by
  obtain ⟨e, out, p, u, ht, ⟨_, _, hhost, _⟩, _⟩ := exec_completes h
  obtain ⟨hbusy, hdone⟩ := finish_busy_done e out p u
  have hport : (finish e out p u).host = s.host := (samePort_finish e out p u).2.2.1.trans hhost
  rcases ht with rfl | ⟨_, rfl⟩
  · exact ⟨hbusy, hdone, hport⟩
  · exact ⟨hbusy, hdone, hport⟩

/-- The engine's step on any word completes, an illegal word's too (R74, R96). -/
theorem EngineInv.engineStep_done {s : State} (h : EngineInv s) (w : Word) :
    ∃ t, engineStep w s = .next t ∧ busy t = false ∧ t.done = true ∧ t.host = s.host := by
  unfold engineStep
  split
  · rename_i i _
    obtain ⟨t, ht⟩ := h.exec_next i
    exact ⟨t, ht, exec_done ht⟩
  · exact ⟨_, rfl, rfl, rfl, rfl⟩

/-- Settles O31. -/
theorem everyCommandCompletes : Obligations.EveryCommandCompletes := by
  intro i s h
  obtain ⟨t, ht⟩ := h.exec_next i
  obtain ⟨hbusy, hdone, _⟩ := exec_done ht
  exact ⟨t, ht, hbusy, hdone⟩

/-! ### Cycles in which no engine step is due -/

theorem hostCycle_nil {s : State} (h : s.host = []) : hostCycle s = s := by
  simp only [hostCycle, h]

theorem hostCycle_idle {s : State} {es : List HostEvent} (h : s.host = .idle :: es) :
    hostCycle s = { s with host := es } := by
  simp only [hostCycle, h]

theorem hostCycle_txn {s : State} {x : Txn} {es : List HostEvent} (h : s.host = .txn x :: es) :
    hostCycle s = busTxn x { s with host := es } := by
  simp only [hostCycle, h]

/-- The latency left after a cycle: a running command comes one cycle nearer (R14). -/
def waitAfter (s : State) : Nat := if busy s = true then s.wait - 1 else s.wait

/-- A step with no reset and no engine step due is a cycle of the outside world (R61, R74). -/
theorem step_not_due {s : State} (hr : resetPending s = false) (hw : busy s = true → s.wait ≠ 0) :
    step s = .next (hostCycle { s with wait := waitAfter s }) := by
  unfold step
  rw [if_neg (by simp [hr])]
  split
  · rename_i w hl h0
    exact absurd h0 (hw (by simp [busy, hl]))
  · rename_i w n hl _
    have hwait : waitAfter s = s.wait - 1 := if_pos (by simp [busy, hl])
    rw [hwait]
    rfl
  · rename_i hl
    have hwait : waitAfter s = s.wait := if_neg (by simp [busy, hl])
    rw [hwait]

/-- Settles O7. -/
theorem stepTakesOneHostEvent : Obligations.StepTakesOneHostEvent := by
  intro s es hr hw wait
  rw [step_not_due hr hw]
  refine ⟨fun hs => ?_, fun hs => ?_, fun t hs => ?_⟩
  · rw [hostCycle_nil (by exact hs)]
    rfl
  · rw [hostCycle_idle (by exact hs)]
    rfl
  · rw [hostCycle_txn (by exact hs)]
    rfl

/-- A step of a running command that is not due takes one event, and otherwise moves only the latency, the draws and
the port's answer (R72, R75). -/
theorem step_running {s : State} {w : Word} (hl : s.latch = some w) (hw : s.wait ≠ 0)
    (hr : resetPending s = false) :
    ∃ a d, step s = .next { s with wait := s.wait - 1, host := s.host.tail, answer := a, draws := d } := by
  have hb : busy s = true := by simp [busy, hl]
  have hwait : waitAfter s = s.wait - 1 := if_pos hb
  rw [step_not_due hr fun _ => hw, hwait]
  rcases hostCycle_cases { s with wait := s.wait - 1 } with ⟨hs, e⟩ | ⟨es, hs, e⟩ | ⟨x, es, hs, e⟩ | ⟨es, hs, _⟩
  · have hs : s.host = [] := hs
    exact ⟨s.answer, s.draws, by rw [e, hs, List.tail_nil, ← hs]⟩
  · have hs : s.host = .idle :: es := hs
    exact ⟨s.answer, s.draws, by rw [e, hs, List.tail_cons]⟩
  · have hs : s.host = .txn x :: es := hs
    obtain ⟨a, d, ex⟩ := busTxn_busy (x := x) (s := { s with wait := s.wait - 1, host := es }) hb
    exact ⟨some a, d, by rw [e, ex, hs, List.tail_cons]⟩
  · rw [(resetPending_iff s).2 ⟨es, hs⟩] at hr
    cases hr

/-- Settles O8. -/
theorem runningCommandInputsAreFixed : Obligations.RunningCommandInputsAreFixed := by
  intro s w hl hw hr
  obtain ⟨a, d, hstep⟩ := step_running hl hw hr
  exact ⟨_, hstep, sameEngine_refl s, rfl, rfl⟩

/-! ### Runs -/

/-- Settles O37: the engine's step completes, and a cycle of the outside world always answers. -/
theorem noStepStops : Obligations.NoStepStops := by
  intro s h
  unfold step
  split
  · exact ⟨_, rfl⟩
  · split
    · rename_i w _ _
      obtain ⟨t, ht, _⟩ := h.engineStep_done w
      exact ⟨t, ht⟩
    · exact ⟨_, rfl⟩
    · exact ⟨_, rfl⟩

/-- No reset is pending where none is among the next events. -/
theorem resetPending_of_take {s : State} {n : Nat} (h : ∀ e ∈ s.host.take (n + 1), e ≠ .reset) :
    resetPending s = false := by
  by_contra hr
  obtain ⟨es, hs⟩ := (resetPending_iff s).1 (by simpa using hr)
  exact h .reset (by simp [hs]) rfl

/-- A command with `n` cycles left completes in n + 1 steps, which take n events. -/
theorem run_completes {n : Nat} {s : State} {w : Word} (h : EngineInv s) (hl : s.latch = some w) (hn : s.wait = n)
    (hh : ∀ e ∈ s.host.take (n + 1), e ≠ .reset) :
    ∃ t, Sys2Proof.core.run (n + 1) s = .next t ∧ busy t = false ∧ t.done = true ∧ t.host = s.host.drop n := by
  induction n generalizing s with
  | zero =>
    obtain ⟨t, ht, hdone⟩ := h.engineStep_done w
    exact ⟨t, run_succ 0 ((step_due ⟨resetPending_of_take hh, hl, hn⟩).trans ht), hdone⟩
  | succ n ih =>
    obtain ⟨a, d, hstep⟩ := step_running hl (by omega) (resetPending_of_take hh)
    have htail : ∀ e ∈ s.host.tail.take (n + 1), e ≠ .reset := fun e he =>
      hh e (List.mem_of_mem_tail (by rw [List.tail_take_eq_take_tail]; exact he))
    obtain ⟨t, ht, hbusy, hdone, hhost⟩ := ih (h.step hstep) hl (by simp [hn]) htail
    exact ⟨t, (run_succ (n + 1) hstep).trans ht, hbusy, hdone, hhost.trans (List.drop_tail ..)⟩

/-- Settles O38, by induction on the cycles left. -/
theorem runningCommandCompletes : Obligations.RunningCommandCompletes :=
  fun _ _ h hl hh => run_completes h hl rfl hh

end Sys2Proof.Machine
end

section
/-! PROOFS. No command reads DOUT (R69, R159, R245): run on two windows with the same DIN, each command ends in the same
completion, so that the two results differ at most in the DOUT bytes it did not write. -/

namespace Sys2Proof.Machine

/-! ### Two states that agree but for DOUT -/

/-- Two canonical window contents with the same DIN. -/
structure SameDin (p : Params) (m m' : Memory) : Prop where
  wf : memWf m = true
  wf' : memWf m' = true
  din : ∀ j, j < p.dinSize → readMem m' (dinBase + j) = readMem m (dinBase + j)

/-- Writing the same bytes to both DOUTs keeps both DINs. -/
theorem SameDin.writeDout {p : Params} {m m' : Memory} (h : SameDin p m m') (out : List Byte) :
    SameDin p (writeMems m doutBase out) (writeMems m' doutBase out) where
  wf := memWf_writeMems h.wf _ _
  wf' := memWf_writeMems h.wf' _ _
  din := fun j hj => by
    have hbelow : dinBase + j < doutBase := lt_of_lt_of_le (Nat.add_lt_add_left hj _) (dinBase_add_dinSize_le p)
    rw [readMem_writeMems_outside (.inl hbelow), readMem_writeMems_outside (.inl hbelow), h.din j hj]

/-- Erasing both windows makes both DINs zero (R193). -/
theorem SameDin.erase {p : Params} {m m' : Memory} (h : SameDin p m m') :
    SameDin p (zeroMems (zeroMems m dinBase p.dinSize) doutBase p.doutSize)
      (zeroMems (zeroMems m' dinBase p.dinSize) doutBase p.doutSize) where
  wf := memWf_zeroMems (memWf_zeroMems h.wf _ _) _ _
  wf' := memWf_zeroMems (memWf_zeroMems h.wf' _ _) _ _
  din := fun j hj => by
    have hbelow : dinBase + j < doutBase := lt_of_lt_of_le (Nat.add_lt_add_left hj _) (dinBase_add_dinSize_le p)
    have erased (k : Memory) :
        readMem (zeroMems (zeroMems k dinBase p.dinSize) doutBase p.doutSize) (dinBase + j) = 0 := by
      rw [readMem_zeroMems_outside _ (.inl hbelow), readMem_zeroMems_inside _ (by omega) (by omega)]
    rw [erased, erased]

/-- The bytes of DIN a command reads are the same. -/
theorem SameDin.dinBytes {s : State} {m : Memory} (h : SameDin s.params s.mem m) {n : Nat}
    (hn : n ≤ s.params.dinSize) : dinBytes (setMem m s) n = dinBytes s n :=
  dinBytes_congr fun j hj => h.din j (lt_of_lt_of_le hj hn)

/-- The block of DIN a padding command reads is the same. -/
theorem SameDin.dinBlock {s : State} {m : Memory} (h : SameDin s.params s.mem m) :
    dinBlock (setMem m s) = dinBlock s := by
  apply Vector.ext
  intro j hj
  rw [dinBlock_getElem, dinBlock_getElem]
  exact h.din j (lt_of_lt_of_le hj (dinSize_ge s.params))

/-- Results of one command on two windows: the same state beside memory, the same output and the same DIN. -/
structure SameResultBesideDout (p : Params) (t u : State) : Prop where
  state : setMem t.mem u = t
  output : t.err = .ok → ∀ j, j < t.outLen.toNat → doutByte u j = doutByte t j
  din : SameDin p t.mem u.mem

/-- A completion with the same output gives results that agree (R16). -/
theorem SameDin.finish {p : Params} {s : State} {m : Memory} (h : SameDin p s.mem m) (e : ErrCode) (out : List Byte)
    (pl : Nat) : SameResultBesideDout p (finish e out pl s) (finish e out pl (setMem m s)) := by
  cases e
  case ok =>
    refine ⟨rfl, fun _ j hj => ?_, h.writeDout out⟩
    have hout : j < out.length := lt_of_lt_of_le hj (Nat.mod_le _ _)
    rw [doutByte_finish h.wf out pl hout, doutByte_finish (s := setMem m s) h.wf' out pl hout]
  all_goals exact ⟨rfl, fun he => (by cases he), h⟩

theorem SameDin.fail {p : Params} {s : State} {m : Memory} (h : SameDin p s.mem m) (e : ErrCode) :
    SameResultBesideDout p (fail e s) (fail e (setMem m s)) := h.finish e [] 0

/-- The clear of R170 does not see the windows. -/
theorem SameResultBesideDout.clearStream {p : Params} {t u : State} (h : SameResultBesideDout p t u) :
    SameResultBesideDout p (clearStream t) (clearStream u) where
  state := congrArg Machine.clearStream h.state
  output := h.output
  din := h.din

/-- Results chosen by a condition that both states decide alike. -/
theorem SameResultBesideDout.ite {p : Params} {c : Prop} [Decidable c] {t t' u u' : State}
    (h : SameResultBesideDout p t u) (h' : SameResultBesideDout p t' u') :
    SameResultBesideDout p (if c then t else t') (if c then u else u') := by
  split
  · exact h
  · exact h'

/-! ### Each command on two windows -/

theorem sameResult_expandKey {s : State} {m : Memory} (h : SameDin s.params s.mem m) :
    SameResultBesideDout s.params (expandKey s) (expandKey (setMem m s)) := by
  have hkey : (setMem m s).key = s.key := rfl
  unfold expandKey
  rw [hkey]
  split
  · exact SameDin.fail (s := setRk none s) h .fatal
  · rename_i k _
    exact SameDin.finish (s := setRk (some k) s) h .ok [] 0

theorem sameResult_init {s : State} {m : Memory} (h : SameDin s.params s.mem m) (dir : Direction) :
    SameResultBesideDout s.params (initCommand dir s) (initCommand dir (setMem m s)) :=
  .ite (h.fail .nokey) (.ite (h.fail .fatal) (SameDin.finish (s := initStream dir s) h .ok [] 0))

/-- An Update that only buffers (R153, step 2). -/
theorem updateCommand_buffers {dir : Direction} {n : Nat} {s : State} (hc : updateCheck dir n s = .ok)
    (ho : onlyBuffers (holdsBack dir s) (s.buf.length + n) = true) :
    updateCommand dir n s = .next (finish .ok [] 0 (setStream s.cv (s.buf ++ dinBytes s n) s)) := by
  simp only [updateCommand, hc, updateBody, ho, if_true]

/-- An Update that steps a block (R153, steps 3 to 5). -/
theorem updateCommand_steps {dir : Direction} {n : Nat} {s : State} {k : RoundKeys} (hc : updateCheck dir n s = .ok)
    (ho : onlyBuffers (holdsBack dir s) (s.buf.length + n) = false) (hk : s.rk = some k) :
    updateCommand dir n s = .next (updateBlocks (Config.blockEncrypt k) dir n s) := by
  simp only [updateCommand, hc, updateBody, ho, hk, Bool.false_eq_true, if_false]

/-- The blocks an Update steps depend on the windows through DIN[0..LEN) alone (R153). -/
theorem sameResult_updateBlocks {n : Nat} {s : State} {m : Memory} (h : SameDin s.params s.mem m)
    (hdin : dinBytes (setMem m s) n = dinBytes s n) (e : Bytes16 → Bytes16) (dir : Direction) :
    SameResultBesideDout s.params (updateBlocks e dir n s) (updateBlocks e dir n (setMem m s)) := by
  have hholds : holdsBack dir (setMem m s) = holdsBack dir s := rfl
  have hcv : (setMem m s).cv = s.cv := rfl
  have hbuf : (setMem m s).buf = s.buf := rfl
  simp only [updateBlocks, hdin, hholds, hcv, hbuf]
  generalize stepBlocks e dir (holdsBack dir s) s.cv s.buf (dinBytes s n) = r
  exact SameDin.finish (s := setStream r.cv r.buf s) h .ok r.out 0

/-- An Update reads DIN[0..LEN) and no other byte of the windows (R153, R159). -/
theorem sameResult_update {dir : Direction} {n : Nat} {s t : State} {m : Memory} (h : SameDin s.params s.mem m)
    (ht : updateCommand dir n s = .next t) :
    ∃ u, updateCommand dir n (setMem m s) = .next u ∧ SameResultBesideDout s.params t u := by
  have hdin (hc : updateCheck dir n s = .ok) : dinBytes (setMem m s) n = dinBytes s n :=
    h.dinBytes ((updateCheck_ok_iff dir n s).1 hc).1
  rcases updateCommand_cases ht with ⟨hc, rfl⟩ | ⟨hc, ho, rfl⟩ | ⟨hc, ho, k, hk, rfl⟩
  · exact ⟨_, updateCommand_fail (s := setMem m s) rfl hc, h.fail _⟩
  · refine ⟨_, updateCommand_buffers (s := setMem m s) hc ho, ?_⟩
    rw [hdin hc]
    exact SameDin.finish (s := setStream s.cv (s.buf ++ dinBytes s n) s) h .ok [] 0
  · refine ⟨_, updateCommand_steps (s := setMem m s) hc ho hk, ?_⟩
    exact sameResult_updateBlocks h (hdin hc) _ _

/-- The candidate plaintext of DEC_FINAL, and so its result, is a function of CV and BUF (R174). -/
theorem finalDecPkcs_completes (e : Bytes16 → Bytes16) (cv : Bytes16) (buf : List Byte) :
    ∃ c out p, ∀ s : State, s.cv = cv → s.buf = buf → finalDecPkcs e s = finish c out p s := by
  cases hstrip : checkAndStripPadding (blockXor (e cv) (block buf)) .pkcs with
  | none => exact ⟨.pad, [], 0, fun s hcv hbuf => by simp only [finalDecPkcs, hcv, hbuf, hstrip, fail]⟩
  | some p =>
    exact ⟨.ok, (blockXor (e cv) (block buf)).toList.take (16 - p), p, fun s hcv hbuf => by
      simp only [finalDecPkcs, hcv, hbuf, hstrip]⟩

/-- The result of a Final is a completion in which nothing depends on the windows (R172 to R174, R245). -/
theorem finalBody_setMem {dir : Direction} {s r : State} (hr : finalBody dir s = .next r) :
    ∃ e out p, r = finish e out p s ∧ ∀ m, finalBody dir (setMem m s) = .next (finish e out p (setMem m s)) := by
  have hpad (m : Memory) : (setMem m s).pad = s.pad := rfl
  have hbuf (m : Memory) : (setMem m s).buf = s.buf := rfl
  have keyed {k : RoundKeys} (hk : s.rk = some k) (f : (Bytes16 → Bytes16) → State → State) (m : Memory) :
      withKeystream f (setMem m s) = .next (f (Config.blockEncrypt k) (setMem m s)) := by
    have hk' : (setMem m s).rk = some k := hk
    simp only [withKeystream, hk']
  rcases finalBody_cases hr with ⟨hp, hb, h⟩ | ⟨hp, hb, k, hk, h⟩ | ⟨hp, hd, hb, h⟩ |
    ⟨hp, hd, _, k, padded, hk, happ, h⟩ | ⟨hp, hd, hb, h⟩ | ⟨hp, hd, hb, k, hk, h⟩
  · exact ⟨.ok, [], 0, h, fun m => by simp only [finalBody, hpad, hp, hbuf, hb, if_true]⟩
  · exact ⟨.ok, _, 0, h, fun m => by simp only [finalBody, hpad, hp, hbuf, hb, if_false, keyed hk]; rfl⟩
  · exact ⟨.pad, [], 0, h, fun m => by simp only [finalBody, hpad, hp, hd, hbuf, applyPadding_pkcs_none hb]; rfl⟩
  · exact ⟨.ok, _, _, h, fun m => by simp only [finalBody, hpad, hp, hd, hbuf, happ, keyed hk]; rfl⟩
  · exact ⟨.len, [], 0, h, fun m => by simp only [finalBody, hpad, hp, hd, hbuf, if_pos hb]; rfl⟩
  · obtain ⟨e, out, p, hdec⟩ := finalDecPkcs_completes (Config.blockEncrypt k) s.cv s.buf
    refine ⟨e, out, p, h.trans (hdec s rfl rfl), fun m => ?_⟩
    simp only [finalBody, hpad, hp, hd, hbuf, keyed hk, if_neg (not_not.2 hb), hdec (setMem m s) rfl rfl]

theorem sameResult_final {dir : Direction} {s t : State} {m : Memory} (h : SameDin s.params s.mem m)
    (ht : finalCommand dir s = .next t) :
    ∃ u, finalCommand dir (setMem m s) = .next u ∧ SameResultBesideDout s.params t u := by
  rcases finalCommand_cases ht with ⟨hc, rfl⟩ | ⟨hc, r, hr, rfl⟩
  · exact ⟨_, finalCommand_fail (s := setMem m s) rfl hc, (h.fail _).clearStream⟩
  · obtain ⟨e, out, p, rfl, hm⟩ := finalBody_setMem hr
    exact ⟨_, finalCommand_eq (s := setMem m s) hc (hm m), (h.finish e out p).clearStream⟩

/-- PAD_APPLY reads the first block of DIN and no other byte of the windows (R122). -/
theorem sameResult_padApply {s : State} {m : Memory} (h : SameDin s.params s.mem m) (q : Padding) (n : Nat) :
    SameResultBesideDout s.params (padApplyResult q n s) (padApplyResult q n (setMem m s)) := by
  cases q with
  | noPadding => exact .ite (h.finish .ok [] 0) (h.fail .pad)
  | pkcs =>
    simp only [padApplyResult, h.dinBlock]
    split
    · exact h.fail .pad
    · exact h.finish .ok _ _

/-- PAD_CHECK reads the first block of DIN and no other byte of the windows (R125). -/
theorem sameResult_padCheck {s : State} {m : Memory} (h : SameDin s.params s.mem m) (q : Padding) :
    SameResultBesideDout s.params (padCheckResult q s) (padCheckResult q (setMem m s)) := by
  simp only [padCheckResult, h.dinBlock]
  split
  · exact h.fail .pad
  · exact h.finish .ok _ _

/-- Every command, on any windows with the same DIN, ends in the same result beside DOUT. -/
theorem sameResult_exec {i : Instr} {s t : State} {m : Memory} (h : SameDin s.params s.mem m)
    (ht : exec i s = .next t) : ∃ u, exec i (setMem m s) = .next u ∧ SameResultBesideDout s.params t u := by
  cases i with
  | keysched => cases ht; exact ⟨_, rfl, .ite (sameResult_expandKey h) (h.fail .seq)⟩
  | encInit => cases ht; exact ⟨_, rfl, sameResult_init h .enc⟩
  | decInit => cases ht; exact ⟨_, rfl, sameResult_init h .dec⟩
  | encUpdate n => exact sameResult_update (dir := .enc) h ht
  | decUpdate n => exact sameResult_update (dir := .dec) h ht
  | encFinal => exact sameResult_final (dir := .enc) h ht
  | decFinal => exact sameResult_final (dir := .dec) h ht
  | padApply q n => cases ht; exact ⟨_, rfl, sameResult_padApply h q n⟩
  | padCheck q => cases ht; exact ⟨_, rfl, sameResult_padCheck h q⟩
  | zeroize => cases ht; exact ⟨_, rfl, SameDin.finish (s := eraseAll s) h.erase .ok [] 0⟩

/-- Settles O34, command by command. -/
theorem commandsDoNotReadDout : Obligations.CommandsDoNotReadDout := by
  intro i s t m hs hm hdin ht
  obtain ⟨u, hu, hsame⟩ := sameResult_exec ⟨hs, hm, hdin⟩ ht
  exact ⟨u, hu, hsame.state, hsame.output, hsame.din.din⟩

end Sys2Proof.Machine
end

section
/-! PROOFS. Legality on the bus (R66, R75): which transactions are refused, that a refused one and a read move only the
port, and what a running command leaves readable. -/

namespace Sys2Proof.Machine

/-! ### Which transactions are refused -/

/-- The sizes an address class does not admit (R63, R66). -/
theorem sizeOk_eq_false_iff (c : AddrClass) (size : Size) (a : Nat) : sizeOk c size a = false ↔
    size = .two ∨ (size = .four ∧ a % 4 ≠ 0) ∨ (size = .one ∧ ∃ r, c = .control r) ∨ c = .unmapped := by
  cases size <;> cases c <;> simp [sizeOk]

/-- The control addresses (R63). -/
theorem exists_classify_control_iff (p : Params) (a : Nat) : (∃ r, classify p a = .control r) ↔
    a ∈ [0x000, 0x004, 0x008, 0x00C, 0x010, 0x014, 0x018, 0x01C, 0x020] := by
  simp only [classify_control_iff, ← controlAt_isSome_iff, Option.isSome_iff_exists]

/-- A transaction is refused for its size at its address, or as a write while a command runs (R66, R75). -/
theorem accepted_eq_false_iff (s : State) (x : Txn) : accepted s x = false ↔
    sizeOk (classify s.params x.addr.toNat) x.size x.addr.toNat = false ∨ (x.write = true ∧ busy s = true) := by
  simp only [accepted, Bool.and_eq_false_iff, Bool.not_eq_false', Bool.and_eq_true]

/-! ### What refused transactions and reads leave unchanged -/

/-- A refused transaction answers SLVERR, a read with rdata 0, and at most draws (R61, R66). -/
theorem busTxn_refused {s : State} {x : Txn} (h : accepted s x = false) :
    ∃ v d, busTxn x s = { s with answer := some { rdata := v, resp := .slverr }, draws := d } ∧
      (x.write = false → v = 0) := by
  unfold busTxn
  split
  · rename_i hw
    exact ⟨drawWord s, s.draws + 1, if_pos h, fun hr => absurd (hw.symm.trans hr) (by decide)⟩
  · exact ⟨0, s.draws, if_pos h, fun _ => rfl⟩

/-- A transaction that is not refused is answered OKAY (R66). -/
theorem busTxn_accepted {s : State} {x : Txn} (h : accepted s x = true) :
    ∃ v, (busTxn x s).answer = some { rdata := v, resp := .okay } := by
  unfold busTxn
  split
  · exact ⟨drawWord s, by rw [busWrite_answer, if_pos h]⟩
  · rw [busRead_answer, if_neg (by simp [h])]
    split <;> exact ⟨_, rfl⟩

/-- Settles O42. -/
theorem illegalTransactionsHaveNoEffect : Obligations.IllegalTransactionsHaveNoEffect := by
  intro s x a control mapped illegal
  have hillegal : illegal ↔ accepted s x = false := by
    rw [accepted_eq_false_iff, sizeOk_eq_false_iff, exists_classify_control_iff, classify_unmapped_iff]
    simp only [or_assoc]
    rfl
  refine ⟨fun h => ?_, fun h => ?_⟩
  · obtain ⟨v, d, e, hv⟩ := busTxn_refused (hillegal.1 h)
    rw [e]
    exact ⟨⟨v, rfl, hv⟩, sameEngine_refl s, rfl, rfl, rfl⟩
  · exact busTxn_accepted (by simpa using mt hillegal.2 h)

/-- A read transaction answers, and at most draws (R67). -/
theorem busTxn_read_only {s : State} {x : Txn} (hx : x.write = false) :
    ∃ a d, busTxn x s = { s with answer := some a, draws := d } := by
  rw [busTxn, if_neg (by simp [hx])]
  rcases busRead_cases x s with ⟨_, e⟩ | ⟨_, _, _, e⟩ | ⟨_, _, e⟩
  · exact ⟨_, s.draws, e⟩
  · exact ⟨_, _, e⟩
  · exact ⟨_, s.draws, e⟩

/-- What a read is answered while no command runs (R61, R67). -/
def readAnswer (x : Txn) (s : State) : BusAnswer :=
  if accepted s x = false then { rdata := 0, resp := .slverr }
  else { rdata := readValue s x.size x.addr.toNat, resp := .okay }

/-- While no command runs a read answers and does nothing else (R67). -/
theorem busTxn_read_idle {s : State} {x : Txn} (hx : x.write = false) (hb : busy s = false) :
    busTxn x s = answerWith (readAnswer x s) s := by
  rw [busTxn, if_neg (by simp [hx]), readAnswer]
  rcases busRead_cases x s with ⟨ha, e⟩ | ⟨_, hbusy, _⟩ | ⟨ha, _, e⟩
  · rw [e, if_pos ha]
  · exact absurd (hbusy.symm.trans hb) (by decide)
  · rw [e, if_neg (by simp [ha])]

/-- What is read does not depend on the port's last answer. -/
theorem readAnswer_answerWith (x : Txn) (a : BusAnswer) (s : State) :
    readAnswer x (answerWith a s) = readAnswer x s := rfl

/-- Settles O45: a read that is repeated answers what it answered before. -/
theorem readsHaveNoSideEffect : Obligations.ReadsHaveNoSideEffect := by
  intro s x hx
  obtain ⟨a, d, e⟩ := busTxn_read_only (s := s) hx
  refine ⟨?_, ?_, ?_, fun hb => ?_⟩
  · rw [e]; exact sameEngine_refl s
  · rw [e]
  · rw [e]
  · have again : busTxn x (answerWith (readAnswer x s) s) = answerWith (readAnswer x s) s :=
      busTxn_read_idle (s := answerWith (readAnswer x s) s) hx hb
    rw [busTxn_read_idle hx hb, again]

/-! ### While a command runs -/

/-- ID, PARAM, CTRL and STATUS read their values at any time, while a command runs too (R67, R75). -/
theorem busTxn_readAlways {s : State} {x : Txn} {a : BitVec 14} {r : CtrlReg} (hx : x.write = false)
    (hs : x.size = .four) (ha : x.addr = a) (hr : controlAt a.toNat = some r)
    (hread : readableWhileBusy (.control r) = true) :
    (busTxn x s).answer = some { rdata := controlValue s r, resp := .okay } := by
  subst ha
  have hc := classify_of_controlAt s.params hr
  have haccepted : accepted s x = true := by
    simp only [accepted, hs, sizeOk_control s.params hr, hx, Bool.false_and, Bool.not_false, Bool.and_self]
  have hvalue : readValue s x.size x.addr.toNat = controlValue s r := by simp only [readValue, hc]
  rw [busTxn, if_neg (by simp [hx]), busRead_answer, if_neg (by simp [haccepted]), if_neg (by simp [hc, hread]),
    hvalue]

/-- Settles O51. -/
theorem busyRefusesWrites : Obligations.BusyRefusesWrites := by
  intro s x hb
  refine ⟨fun hw => ?_, fun hx hs => ⟨fun ha => ?_, fun ha => ?_, fun ha => ?_, fun ha => ⟨?_, ?_⟩⟩, fun _ h => ?_⟩
  · obtain ⟨v, d, e, _⟩ := busTxn_refused ((accepted_eq_false_iff s x).2 (.inr ⟨hw, hb⟩))
    rw [e]
    exact ⟨⟨v, rfl⟩, sameEngine_refl s⟩
  · exact busTxn_readAlways (r := .id) hx hs ha rfl rfl
  · exact busTxn_readAlways (r := .param) hx hs ha rfl rfl
  · exact busTxn_readAlways (r := .ctrl) hx hs ha rfl rfl
  · exact busTxn_readAlways (r := .status) hx hs ha rfl rfl
  · exact (statusWord_bit0 s).trans hb
  · exact busTxn_accepted h

end Sys2Proof.Machine
end

section
/-! PROOFS. The encoding (R90 to R96): a word decodes to a command exactly when its fields are the command's, which is
when it matches the command's row; and what the engine's step does with a due word. -/

namespace Sys2Proof

/-! ### Words by their fields -/

/-- The fields of `w` are OP = `op`, P = `p`, LEN = `n`, and its reserved fields are 0 (R91). -/
def HasFields (w : Word) (op : BitVec 4) (p : Bool) (n : Nat) : Prop :=
  fieldOp w = op ∧ fieldRsv0 w = 0 ∧ fieldP w = p ∧ fieldRsv1 w = 0 ∧ fieldLen w = n

theorem fieldLen_lt (w : Word) : fieldLen w < 65536 := (w.extractLsb' 16 16).isLt

/-- A word is the assembly of its fields (R91). -/
theorem HasFields.cmdWord_eq {w : Word} {op : BitVec 4} {p : Bool} {n : Nat} (h : HasFields w op p n) :
    cmdWord op p n = w := by
  obtain ⟨rfl, h0, rfl, h1, rfl⟩ := h
  have h0 : w.toNat / 16 % 16 = 0 := by rw [← fieldRsv0_toNat, h0]; rfl
  have h1 : w.toNat / 512 % 128 = 0 := by rw [← fieldRsv1_toNat, h1]; rfl
  have hp : (fieldP w).toNat = w.toNat / 256 % 2 := by
    rw [fieldP_eq]
    rcases Nat.mod_two_eq_zero_or_one (w.toNat / 256) with h | h <;> rw [h] <;> rfl
  apply BitVec.eq_of_toNat_eq
  rw [cmdWord_toNat _ _ (fieldLen_lt w), hp, fieldOp_toNat, fieldLen_eq]
  omega

/-! ### Commands by their fields -/

/-- OP of a command (R93). -/
def opcode : Instr → BitVec 4
  | .keysched => 1
  | .encInit => 2
  | .decInit => 3
  | .encUpdate _ => 4
  | .decUpdate _ => 5
  | .encFinal => 6
  | .decFinal => 7
  | .padApply _ _ => 8
  | .padCheck _ => 9
  | .zeroize => 10

/-- P of a command: 0 where it uses none (R93). -/
def padField : Instr → Bool
  | .padApply p _ => paddingBit p
  | .padCheck p => paddingBit p
  | _ => false

/-- LEN of a command: 0 where it uses none (R93). -/
def lenField : Instr → Nat
  | .encUpdate n => n
  | .decUpdate n => n
  | .padApply _ n => n
  | _ => 0

theorem encode_eq_cmdWord (i : Instr) : encode i = cmdWord (opcode i) (padField i) (lenField i) := by cases i <;> rfl

theorem wellFormed_iff (i : Instr) : wellFormed i = true ↔ lenField i < 65536 := by
  cases i <;> simp [wellFormed, lenField]

/-- The fields of `w` are those of the command `i`. -/
def HasFieldsOf (i : Instr) (w : Word) : Prop := HasFields w (opcode i) (padField i) (lenField i)

theorem hasFieldsOf_encode {i : Instr} (h : wellFormed i = true) : HasFieldsOf i (encode i) := by
  rw [encode_eq_cmdWord]
  exact cmdWord_fields _ _ ((wellFormed_iff i).1 h)

theorem HasFieldsOf.encode_eq {i : Instr} {w : Word} (h : HasFieldsOf i w) : encode i = w :=
  (encode_eq_cmdWord i).trans h.cmdWord_eq

theorem HasFieldsOf.wellFormed {i : Instr} {w : Word} (h : HasFieldsOf i w) : wellFormed i = true := by
  obtain ⟨_, _, _, _, hn⟩ := h
  exact (wellFormed_iff i).2 (hn ▸ fieldLen_lt w)

/-! ### The decoder -/

theorem decodeBare_eq_ok_iff (i j : Instr) (w : Word) :
    decodeBare i w = .ok j ↔ i = j ∧ fieldP w = false ∧ fieldLen w = 0 := by
  cases hp : fieldP w <;> by_cases hn : fieldLen w = 0 <;> simp [decodeBare, hp, hn]

theorem decodeLen_eq_ok_iff (mk : Nat → Instr) (j : Instr) (w : Word) :
    decodeLen mk w = .ok j ↔ mk (fieldLen w) = j ∧ fieldP w = false := by
  cases hp : fieldP w <;> simp [decodeLen, hp]

theorem decodePad_eq_ok_iff (mk : Padding → Instr) (j : Instr) (w : Word) :
    decodePad mk w = .ok j ↔ mk (paddingOfBit (fieldP w)) = j ∧ fieldLen w = 0 := by
  by_cases hn : fieldLen w = 0 <;> simp [decodePad, hn]

/-- What decodes has the fields of what it decodes to (R93). -/
theorem hasFieldsOf_of_decode {w : Word} {i : Instr} (h : decode w = .ok i) : HasFieldsOf i w := by
  unfold decode at h
  split at h
  next => cases h
  next hr =>
    obtain ⟨h0, h1⟩ : fieldRsv0 w = 0 ∧ fieldRsv1 w = 0 := by simpa using hr
    split at h
    case h_1 ho | h_2 ho | h_3 ho | h_6 ho | h_7 ho | h_10 ho =>
      obtain ⟨rfl, hp, hn⟩ := (decodeBare_eq_ok_iff _ _ _).1 h
      exact ⟨BitVec.eq_of_toNat_eq ho, h0, hp, h1, hn⟩
    case h_4 ho | h_5 ho =>
      obtain ⟨rfl, hp⟩ := (decodeLen_eq_ok_iff _ _ _).1 h
      exact ⟨BitVec.eq_of_toNat_eq ho, h0, hp, h1, rfl⟩
    case h_8 ho =>
      cases h
      exact ⟨BitVec.eq_of_toNat_eq ho, h0, (paddingBit_paddingOfBit _).symm, h1, rfl⟩
    case h_9 ho =>
      obtain ⟨rfl, hn⟩ := (decodePad_eq_ok_iff _ _ _).1 h
      exact ⟨BitVec.eq_of_toNat_eq ho, h0, (paddingBit_paddingOfBit _).symm, h1, hn⟩
    case h_11 => cases h

/-- A word with the fields of a command decodes to it (R93). -/
theorem decode_of_hasFieldsOf {w : Word} {i : Instr} (h : HasFieldsOf i w) : decode w = .ok i := by
  obtain ⟨ho, h0, hp, h1, hn⟩ := h
  cases i <;> simp [decode, decodeBare, decodeLen, decodePad, ho, h0, hp, h1, hn, opcode, padField, lenField]

/-- R93: a word decodes to a command exactly when its fields are the command's. -/
theorem decode_eq_ok_iff (w : Word) (i : Instr) : decode w = .ok i ↔ HasFieldsOf i w :=
  ⟨hasFieldsOf_of_decode, decode_of_hasFieldsOf⟩

/-- Settles O1: the encoding of a command has its fields, and these decide the decoder. -/
theorem decodeEncodeRoundTrip : Obligations.DecodeEncodeRoundTrip :=
  fun _ h => decode_of_hasFieldsOf (hasFieldsOf_encode h)

/-- Settles O2: a word that decodes has the command's fields, and a word is the assembly of its fields. -/
theorem decodedWordIsItsEncoding : Obligations.DecodedWordIsItsEncoding :=
  fun _ _ h => ⟨(hasFieldsOf_of_decode h).encode_eq, (hasFieldsOf_of_decode h).wellFormed⟩

/-! ### Rows -/

section Rows
open Laws

/-- The ten commands, in the order of R94, with the operands of `w` where they use them (R92). -/
def commandsOf (w : Word) : List Instr :=
  [.keysched, .encInit, .decInit, .encUpdate (fieldLen w), .decUpdate (fieldLen w), .encFinal, .decFinal,
    .padApply (paddingOfBit (fieldP w)) (fieldLen w), .padCheck (paddingOfBit (fieldP w)), .zeroize]

/-- The encoding of every command matches its row (R94). -/
theorem encode_and_rowMask (i : Instr) : encode i &&& rowMask i = rowMatch i :=
  match i with
  | .keysched => EncodeMatchesRow.keysched
  | .encInit => EncodeMatchesRow.encInit
  | .decInit => EncodeMatchesRow.decInit
  | .encUpdate n => EncodeMatchesRow.encUpdate n
  | .decUpdate n => EncodeMatchesRow.decUpdate n
  | .encFinal => EncodeMatchesRow.encFinal
  | .decFinal => EncodeMatchesRow.decFinal
  | .padApply p n => EncodeMatchesRow.padApply p n
  | .padCheck p => EncodeMatchesRow.padCheck p
  | .zeroize => EncodeMatchesRow.zeroize

theorem mem_commandsOf {w : Word} {i : Instr} (h : HasFieldsOf i w) : i ∈ commandsOf w := by
  obtain ⟨-, -, hp, -, hn⟩ := h
  cases i <;> simp_all [commandsOf, padField, lenField]

theorem rowMatch_eq_cmdWord (i : Instr) : rowMatch i = cmdWord (opcode i) false 0 := by
  cases i <;> (simp only [rowMatch, opcode]; decide)

/-- Every mask keeps OP and the reserved fields (R94). -/
theorem rowMask_fields (i : Instr) :
    fieldOp (rowMask i) = BitVec.allOnes 4 ∧ fieldRsv0 (rowMask i) = BitVec.allOnes 4 ∧
      fieldRsv1 (rowMask i) = BitVec.allOnes 7 := by
  cases i <;> (simp only [rowMask]; decide)

/-- A mask with ones in a field keeps it. -/
theorem extractLsb'_and_of_allOnes {w m : Word} {start len : Nat} (h : m.extractLsb' start len = BitVec.allOnes len) :
    (w &&& m).extractLsb' start len = w.extractLsb' start len := by
  rw [BitVec.extractLsb'_and, h, BitVec.and_allOnes]

theorem fieldLen_and (w m : Word) : fieldLen (w &&& m) = fieldLen w &&& fieldLen m := by
  simp only [fieldLen, BitVec.extractLsb'_and, BitVec.toNat_and]

theorem fieldLen_and_ones (w : Word) : fieldLen w &&& 65535 = fieldLen w :=
  Nat.and_two_pow_sub_one_of_lt_two_pow (n := 16) (fieldLen_lt w)

/-- A word that matches a command's row has the command's OP, reserved fields 0, and 0 in what the row's mask keeps of
P and LEN (R94). -/
theorem fields_of_row {w : Word} {i : Instr} (h : w &&& rowMask i = rowMatch i) :
    fieldOp w = opcode i ∧ fieldRsv0 w = 0 ∧ (fieldP w && fieldP (rowMask i)) = false ∧ fieldRsv1 w = 0 ∧
      fieldLen w &&& fieldLen (rowMask i) = 0 := by
  obtain ⟨mo, m0, m1⟩ := rowMask_fields i
  obtain ⟨ho, h0, hp, h1, hn⟩ := cmdWord_fields (opcode i) false (n := 0) (by omega)
  rw [← rowMatch_eq_cmdWord, ← h] at ho h0 hp h1 hn
  exact ⟨(extractLsb'_and_of_allOnes mo).symm.trans ho, (extractLsb'_and_of_allOnes m0).symm.trans h0,
    (BitVec.getLsbD_and ..).symm.trans hp, (extractLsb'_and_of_allOnes m1).symm.trans h1,
    (fieldLen_and _ _).symm.trans hn⟩

/-- What a row's mask leaves free of P and LEN are the command's operands (R92, R94). -/
theorem operands_of_row {w : Word} {i : Instr} (hi : i ∈ commandsOf w) (hp : (fieldP w && fieldP (rowMask i)) = false)
    (hn : fieldLen w &&& fieldLen (rowMask i) = 0) : fieldP w = padField i ∧ fieldLen w = lenField i := by
  have padZero {m : Word} (hm : rowMask i = m) (h1 : fieldP m = true) : fieldP w = false := by
    simpa [hm, h1] using hp
  have lenZero {m : Word} (hm : rowMask i = m) (h1 : fieldLen m = 65535) : fieldLen w = 0 := by
    rwa [hm, h1, fieldLen_and_ones] at hn
  have bare (hm : rowMask i = 0xFFFFFFFF) : fieldP w = false ∧ fieldLen w = 0 := ⟨padZero hm rfl, lenZero hm rfl⟩
  cases i with
  | keysched | encInit | decInit | encFinal | decFinal | zeroize => exact bare rfl
  | encUpdate n | decUpdate n =>
    obtain rfl : n = fieldLen w := by simpa [commandsOf] using hi
    exact ⟨padZero (m := 0x0000FFFF) rfl rfl, rfl⟩
  | padApply p n =>
    obtain ⟨rfl, rfl⟩ : p = paddingOfBit (fieldP w) ∧ n = fieldLen w := by simpa [commandsOf] using hi
    exact ⟨(paddingBit_paddingOfBit _).symm, rfl⟩
  | padCheck p =>
    obtain rfl : p = paddingOfBit (fieldP w) := by simpa [commandsOf] using hi
    exact ⟨(paddingBit_paddingOfBit _).symm, lenZero (m := 0xFFFFFEFF) rfl rfl⟩

/-- R94: a word decodes to a command exactly when it matches the command's row, its operands taken from the word. -/
theorem decode_eq_ok_iff_row (w : Word) (i : Instr) :
    decode w = .ok i ↔ w &&& rowMask i = rowMatch i ∧ i ∈ commandsOf w := by
  rw [decode_eq_ok_iff]
  refine ⟨fun h => ⟨?_, mem_commandsOf h⟩, fun ⟨hrow, hi⟩ => ?_⟩
  · rw [← h.encode_eq]
    exact encode_and_rowMask i
  · obtain ⟨ho, h0, hp, h1, hn⟩ := fields_of_row hrow
    obtain ⟨hp, hn⟩ := operands_of_row hi hp hn
    exact ⟨ho, h0, hp, h1, hn⟩

theorem toNat_shift_eq_fieldLen (w : Word) : (w >>> 16).toNat = fieldLen w := by
  rw [fieldLen_eq, BitVec.toNat_ushiftRight, Nat.shiftRight_eq_div_pow]

theorem ite_pkcs_eq_paddingOfBit (w : Word) :
    (if w.getLsbD 8 = true then Padding.pkcs else .noPadding) = paddingOfBit (fieldP w) := by
  rw [fieldP]
  cases w.getLsbD 8 <;> rfl

/-- Settles O3: `commandsOf` holds each command once, so membership says what its operands are. -/
theorem decodeIsMaskAndMatch : Obligations.DecodeIsMaskAndMatch := by
  intro w p n len pad
  simp only [len, pad, toNat_shift_eq_fieldLen, ite_pkcs_eq_paddingOfBit, decode_eq_ok_iff_row]
  simp [commandsOf, rowMask, rowMatch]

/-! ### Illegal words -/

theorem exists_error_iff (w : Word) : (∃ r, decode w = .error r) ↔ ∀ i, decode w ≠ .ok i := by
  cases decode w <;> simp

/-- R95: a word is illegal exactly when it matches no row of R94. -/
theorem exists_error_iff_no_row (w : Word) : (∃ r, decode w = .error r) ↔
    ∀ row ∈ (commandsOf w).map fun i => (rowMatch i, rowMask i), w &&& row.2 ≠ row.1 := by
  simp only [exists_error_iff, ne_eq, decode_eq_ok_iff_row, not_and', List.forall_mem_map]

end Rows

theorem decodeBare_error_iff (i : Instr) (w : Word) :
    (∃ r, decodeBare i w = .error r) ↔ w.toNat / 256 % 2 = 1 ∨ w.toNat / 65536 ≠ 0 := by
  by_cases hp : w.toNat / 256 % 2 = 1 <;> by_cases hn : w.toNat / 65536 = 0 <;>
    simp [decodeBare, fieldP_eq, fieldLen_eq, hp, hn]

theorem decodeLen_error_iff (mk : Nat → Instr) (w : Word) :
    (∃ r, decodeLen mk w = .error r) ↔ w.toNat / 256 % 2 = 1 := by
  by_cases hp : w.toNat / 256 % 2 = 1 <;> simp [decodeLen, fieldP_eq, hp]

theorem decodePad_error_iff (mk : Padding → Instr) (w : Word) :
    (∃ r, decodePad mk w = .error r) ↔ w.toNat / 65536 ≠ 0 := by
  by_cases hn : w.toNat / 65536 = 0 <;> simp [decodePad, fieldLen_eq, hn]

/-- R95: the four defects of an illegal word. -/
theorem exists_error_iff_defect (w : Word) : (∃ r, decode w = .error r) ↔
    ((w.toNat % 16 = 0 ∨ 11 ≤ w.toNat % 16) ∨ (w.toNat / 16 % 16 ≠ 0 ∨ w.toNat / 512 % 128 ≠ 0) ∨
      (w.toNat / 256 % 2 = 1 ∧ w.toNat % 16 ≠ 8 ∧ w.toNat % 16 ≠ 9) ∨
      (w.toNat / 65536 ≠ 0 ∧ w.toNat % 16 ≠ 4 ∧ w.toNat % 16 ≠ 5 ∧ w.toNat % 16 ≠ 8)) := by
  rw [decode_eq]
  split
  next hr => simp [hr]
  next hr =>
    split
    case h_1 ho | h_2 ho | h_3 ho | h_6 ho | h_7 ho | h_10 ho => rw [decodeBare_error_iff]; omega
    case h_4 ho | h_5 ho => rw [decodeLen_error_iff]; omega
    case h_8 ho => exact iff_of_false (by simp) (by omega)
    case h_9 ho => rw [decodePad_error_iff]; omega
    case h_11 =>
      simp only [imp_false] at *
      exact iff_of_true ⟨_, rfl⟩ (.inl (by omega))

/-- Settles O4: the listed rows are those of `commandsOf`, and the defects are read off the decoder's branches. -/
theorem illegalWordsAreRejected : Obligations.IllegalWordsAreRejected :=
  fun w => ⟨exists_error_iff_no_row w, exists_error_iff_defect w⟩

/-! ### Worked words -/

/-- Settles O5 by running the decoder and the encoder on the words of R99. -/
theorem workedEncodings : Obligations.WorkedEncodings :=
  ⟨rfl, rfl, rfl, rfl, rfl, rfl, rfl, rfl, rfl, rfl, ⟨.padOperand, rfl⟩, .lenOperand, rfl⟩

end Sys2Proof
end

section
/-! PROOFS. R96: the engine's step on a due word runs the command the word decodes to. -/

namespace Sys2Proof.Machine

theorem engineStep_ok {w : Word} {i : Instr} (h : decode w = .ok i) (s : State) : engineStep w s = exec i s := by
  simp only [engineStep, h]

theorem engineStep_error {w : Word} {r : DecodeReject} (h : decode w = .error r) (s : State) :
    engineStep w s = .next (rejectCommand r s) := by
  simp only [engineStep, h]

/-- Settles O6: a due step is `engineStep`, and a rejected word ends in a failure that changes the result only. -/
theorem stepRunsTheDecodedCommand : Obligations.StepRunsTheDecodedCommand :=
  fun s _ hdue => ⟨fun _ hd => (step_due hdue).trans (engineStep_ok hd s),
    fun _ hd => ⟨_, (step_due hdue).trans (engineStep_error hd s), failedWith_fail .illcmd s⟩⟩

end Sys2Proof.Machine
end

section
/-! PROOFS. The stream functions without the engine (R113, R114, R153, R172, R173): what a whole stream makes of its
input bytes under each padding, and that decryption undoes encryption, for every cipher. -/

namespace Sys2Proof.Machine

/-! ### Single steps -/

/-- From the same CV, the block step on a block it emitted gives the input block back (R113). -/
theorem stepOut_stepOut (e : Bytes16 → Bytes16) (cv blk : Bytes16) : stepOut e cv (stepOut e cv blk) = blk :=
  blockXor_cancel (e cv) blk

/-- The partial step is its own inverse (R114). -/
theorem partialStep_partialStep (e : Bytes16 → Bytes16) (cv : Bytes16) {buf : List Byte} (h : buf.length ≤ 16) :
    partialStep e cv (partialStep e cv buf) = buf := by
  have hlen := partialStep_length e cv h
  have hlen2 := partialStep_length e cv (hlen.le.trans h)
  refine List.ext_getElem (hlen2.trans hlen) fun i h2 hi => ?_
  have h1 : i < (partialStep e cv buf).length := hlen.symm ▸ hi
  rw [partialStep_getElem e cv h2 h1 (hi.trans_le h), partialStep_getElem e cv h1 hi (hi.trans_le h),
    ← BitVec.xor_assoc, BitVec.xor_self, BitVec.zero_xor]

theorem partialStep_nil (e : Bytes16 → Bytes16) (cv : Bytes16) : partialStep e cv [] = [] :=
  List.eq_nil_of_length_eq_zero (partialStep_length e cv (Nat.zero_le _))

/-! ### Runs of blocks -/

theorem takesBlock_add {h : Bool} {n : Nat} (ht : takesBlock h n = true) (m : Nat) : takesBlock h (n + m) = true := by
  cases h <;> simp only [takesBlock, if_true, Bool.false_eq_true, if_false, decide_eq_true_eq] at * <;> omega

/-- An input of at least one block is that block followed by the rest. -/
theorem exists_eq_block_append {l : List Byte} (h : 16 ≤ l.length) : ∃ (blk : Bytes16) (tl : List Byte),
    l = blk.toList ++ tl :=
  ⟨block (l.take 16), l.drop 16, by rw [toList_block (by simp [h]), List.take_append_drop]⟩

/-- One block step and then the rest of the input (R153). -/
theorem takeBlocks_block_append (e : Bytes16 → Bytes16) (dir : Direction) {h : Bool} (f : Nat) (cv blk : Bytes16)
    {tl : List Byte} (ht : takesBlock h (16 + tl.length) = true) :
    takeBlocks e dir h (f + 1) cv (blk.toList ++ tl) =
      let r := takeBlocks e dir h f (feedback dir blk (stepOut e cv blk)) tl
      { out := (stepOut e cv blk).toList ++ r.out, cv := r.cv, buf := r.buf } := by
  have hblk : block (blk.toList ++ tl) = blk := by rw [block_append_of_ge (by simp), block_toList]
  have hdrop : (blk.toList ++ tl).drop 16 = tl := List.drop_left' (by simp)
  rw [takeBlocks_succ _ _ _ _ _ _ (by simpa using ht), hblk, hdrop]

/-- Decrypting the blocks an encryption emitted, followed by a tail `r` that stays buffered, gives the encrypted bytes
back and ends at the same CV (R113). With hold-back the tail has at least one byte. -/
theorem takeBlocks_dec_enc (e : Bytes16 → Bytes16) {h : Bool} {f g : Nat} {cv : Bytes16} {l r : List Byte}
    (hf : l.length ≤ f) (hg : ((takeBlocks e .enc false f cv l).out ++ r).length ≤ g)
    (hstop : takesBlock h r.length = false) (htake : takesBlock h (16 + r.length) = true) :
    takeBlocks e .dec h g cv ((takeBlocks e .enc false f cv l).out ++ r) =
      { out := l.take (emitted false l.length), cv := (takeBlocks e .enc false f cv l).cv, buf := r } := by
  induction f generalizing g cv l with
  | zero =>
    have hl : l = [] := List.length_eq_zero_iff.1 (by omega)
    subst hl
    exact takeBlocks_stop _ _ _ _ _ _ hstop
  | succ f ih =>
    cases ht : takesBlock false l.length with
    | false =>
      rw [takeBlocks_stop _ _ _ _ _ _ ht, emitted_of_not_takes ht]
      exact takeBlocks_stop _ _ _ _ _ _ hstop
    | true =>
      obtain ⟨blk, tl, rfl⟩ := exists_eq_block_append (sixteen_le_of_takes ht)
      simp only [List.length_append, Vector.length_toList] at hf ht
      simp only [takeBlocks_block_append e .enc f cv blk ht, feedback, List.append_assoc, List.length_append,
        Vector.length_toList] at hg ⊢
      obtain ⟨g, rfl⟩ : ∃ g', g = g' + 1 := ⟨g - 1, by omega⟩
      have hmore : takesBlock h (16 + ((takeBlocks e .enc false f (stepOut e cv blk) tl).out ++ r).length) = true := by
        rw [List.length_append, Nat.add_left_comm, Nat.add_comm]
        exact takesBlock_add htake _
      rw [takeBlocks_block_append e .dec g cv _ hmore, stepOut_stepOut, emitted_of_takes ht, Nat.add_sub_cancel_left,
        List.take_add]
      simp only [feedback]
      rw [ih (by omega) (by rw [List.length_append]; omega), List.take_left' (by simp), List.drop_left' (by simp)]

/-! ### Whole streams under NoPadding -/

/-- What a whole stream emits under NoPadding: the blocks of R153, then the partial step of R172. -/
def plainStream (e : Bytes16 → Bytes16) (dir : Direction) (cv : Bytes16) (l : List Byte) : List Byte :=
  let r := takeBlocks e dir false l.length cv l
  r.out ++ partialStep e r.cv r.buf

/-- What stays buffered without hold-back (R155). -/
theorem takeBlocks_buf_length (e : Bytes16 → Bytes16) (dir : Direction) (cv : Bytes16) (l : List Byte) :
    (takeBlocks e dir false l.length cv l).buf.length = l.length % 16 := by
  obtain ⟨_, hbuf⟩ := takeBlocks_lengths e dir false cv (le_refl l.length)
  simp only [hbuf, List.length_drop, emitted, Bool.false_eq_true, if_false]
  omega

theorem plainStream_length (e : Bytes16 → Bytes16) (dir : Direction) (cv : Bytes16) (l : List Byte) :
    (plainStream e dir cv l).length = l.length := by
  obtain ⟨hout, _⟩ := takeBlocks_lengths e dir false cv (le_refl l.length)
  have hbuf := takeBlocks_buf_length e dir cv l
  have hlast := partialStep_length e (takeBlocks e dir false l.length cv l).cv (hbuf.le.trans (by omega))
  simp only [plainStream, List.length_append, hout, hlast, hbuf, emitted, Bool.false_eq_true, if_false]
  omega

/-- Under NoPadding decryption undoes encryption (R113, R114). -/
theorem plainStream_dec_enc (e : Bytes16 → Bytes16) (cv : Bytes16) (l : List Byte) :
    plainStream e .dec cv (plainStream e .enc cv l) = l := by
  have hbuf := takeBlocks_buf_length e .enc cv l
  obtain ⟨_, hdrop⟩ := takeBlocks_lengths e .enc false cv (le_refl l.length)
  set a := takeBlocks e .enc false l.length cv l with ha
  have hb16 : a.buf.length ≤ 16 := by omega
  have htail := partialStep_length e a.cv hb16
  have hrun : takeBlocks e .dec false (plainStream e .enc cv l).length cv (plainStream e .enc cv l) =
      { out := l.take (emitted false l.length), cv := a.cv, buf := partialStep e a.cv a.buf } :=
    takeBlocks_dec_enc e (le_refl _) (le_refl _)
      (by simp only [← ha, htail, hbuf, takesBlock, Bool.false_eq_true, if_false, decide_eq_false_iff_not]; omega)
      (by simp [takesBlock])
  rw [plainStream]
  simp only [hrun, partialStep_partialStep e a.cv hb16]
  rw [hdrop, List.take_append_drop]

/-! ### Whole streams under PKCS -/

/-- The last block of an encryption under PKCS: the buffered bytes, padded (R120, R173). -/
def pkcsBlock (buf : List Byte) : Bytes16 :=
  block ((block buf).toList.take buf.length ++
    List.replicate (16 - buf.length) (BitVec.ofNat 8 (16 - buf.length)))

theorem applyPadding_pkcsBlock {buf : List Byte} (h : buf.length < 16) :
    applyPadding (block buf) buf.length .pkcs = some (16 - buf.length, pkcsBlock buf) := applyPadding_pkcs h

theorem paddedWith_pkcsBlock {buf : List Byte} (h : buf.length < 16) : PaddedWith (pkcsBlock buf) (16 - buf.length) :=
  paddedWith_padded h

/-- Stripping the padding leaves the buffered bytes. -/
theorem take_pkcsBlock {buf : List Byte} (h : buf.length < 16) : (pkcsBlock buf).toList.take buf.length = buf := by
  refine List.ext_getElem (by simp; omega) fun i h1 h2 => ?_
  have hbyte : (pkcsBlock buf)[i] = (block buf)[i] := (padded_getElem h (h2.trans h)).trans (if_pos h2)
  rw [block_getElem, List.getD_eq_getElem _ _ h2] at hbyte
  simpa only [List.getElem_take, Vector.getElem_toList] using hbyte

/-- What a whole encryption emits under PKCS: the blocks of R153, then the padded block of R173. -/
def pkcsStream (e : Bytes16 → Bytes16) (cv : Bytes16) (l : List Byte) : List Byte :=
  let r := takeBlocks e .enc false l.length cv l
  r.out ++ (blockXor (e r.cv) (pkcsBlock r.buf)).toList

theorem pkcsStream_length (e : Bytes16 → Bytes16) (cv : Bytes16) (l : List Byte) :
    (pkcsStream e cv l).length = 16 * (l.length / 16 + 1) := by
  obtain ⟨hout, _⟩ := takeBlocks_lengths e .enc false cv (le_refl l.length)
  simp only [pkcsStream, List.length_append, hout, emitted, Vector.length_toList, Bool.false_eq_true, if_false]
  omega

/-- With hold-back the blocks of an encryption under PKCS come back, and its last block stays buffered (R153). -/
theorem takeBlocks_dec_pkcsStream (e : Bytes16 → Bytes16) (cv : Bytes16) (l : List Byte) :
    takeBlocks e .dec true (pkcsStream e cv l).length cv (pkcsStream e cv l) =
      let a := takeBlocks e .enc false l.length cv l
      { out := l.take (emitted false l.length), cv := a.cv, buf := (blockXor (e a.cv) (pkcsBlock a.buf)).toList } :=
  takeBlocks_dec_enc e (le_refl _) (le_refl _) (by simp [takesBlock]) (by simp [takesBlock])

end Sys2Proof.Machine
end

section
/-! PROOFS. What an Update emits (R16, R113, R153): its output as one byte list in DOUT, and the state it leaves. -/

namespace Sys2Proof.Machine

/-! ### What a command emits -/

/-- `t` is a successful completion with output `out` in DOUT and pad length `p` (R16). -/
structure Emits (t : State) (out : List Byte) (p : Nat) : Prop where
  result : ResultIs .ok out.length p t
  dout : ∀ (i : Nat) (h : i < out.length), doutByte t i = out[i]

theorem emits_finish {s : State} {out : List Byte} {p : Nat} (hm : memWf s.mem = true) (ho : out.length < 65536)
    (hp : p < 32) : Emits (finish .ok out p s) out p :=
  ⟨resultIs_finish rfl s ho hp, fun _ h => doutByte_finish hm out p h⟩

theorem Emits.outLen_eq {t : State} {out : List Byte} {p : Nat} (h : Emits t out p) : t.outLen.toNat = out.length := by
  obtain ⟨_, hlen, _⟩ := h.result
  exact hlen

theorem Emits.padLen_eq {t : State} {out : List Byte} {p : Nat} (h : Emits t out p) : t.padLen.toNat = p := by
  obtain ⟨_, _, hpad, _⟩ := h.result
  exact hpad

theorem Emits.err_eq {t : State} {out : List Byte} {p : Nat} (h : Emits t out p) : t.err = .ok := by
  obtain ⟨herr, _⟩ := h.result
  exact herr

/-- Byte i of the output of two commands, one after the other. -/
def joinedOut (u f : State) (i : Nat) : Byte :=
  if i < u.outLen.toNat then doutByte u i else doutByte f (i - u.outLen.toNat)

/-- The outputs of two commands joined are the two byte lists joined. -/
theorem Emits.joinedOut_eq {u f : State} {out last : List Byte} {p q : Nat} (hu : Emits u out p) (hf : Emits f last q)
    {i : Nat} (h : i < (out ++ last).length) : joinedOut u f i = (out ++ last)[i] := by
  rw [joinedOut, hu.outLen_eq, List.getElem_append]
  split
  · exact hu.dout i _
  · exact hf.dout _ _

/-! ### An Update in a running stream -/

/-- What an Update of `n` bytes makes of the stream of `s` (R153): one run over BUF and DIN[0..n). -/
def streamed (e : Bytes16 → Bytes16) (dir : Direction) (n : Nat) (s : State) : Streamed :=
  takeBlocks e dir (holdsBack dir s) (s.buf.length + n) s.cv (s.buf ++ dinBytes s n)

theorem streamed_out_length (e : Bytes16 → Bytes16) (dir : Direction) (n : Nat) (s : State) :
    (streamed e dir n s).out.length = emitted (holdsBack dir s) (s.buf.length + n) := by
  have hlen : (s.buf ++ dinBytes s n).length = s.buf.length + n := by simp
  obtain ⟨hout, _⟩ := takeBlocks_lengths e dir (holdsBack dir s) s.cv hlen.le
  exact hout.trans (congrArg _ hlen)

/-- The Update of a fresh stream runs over DIN[0..n) alone. -/
theorem streamed_of_buf_nil (e : Bytes16 → Bytes16) (dir : Direction) (n : Nat) {s : State} (h : s.buf = []) :
    streamed e dir n s = takeBlocks e dir (holdsBack dir s) (dinBytes s n).length s.cv (dinBytes s n) := by
  simp only [streamed, h, List.nil_append, List.length_nil, Nat.zero_add, dinBytes_length]

/-- An Update whose checks pass, in a state of the invariant: it completes with the output of `streamed`, keeps the
invariant, and changes no more of the stream than CV and BUF. -/
theorem EngineInv.update_emits {s : State} {dir : Direction} {n : Nat} {k : RoundKeys} (h : EngineInv s)
    (hk : s.rk = some k) (hn : n ≤ s.params.dinSize) (hp : s.phase = streamPhase dir) (hm : s.mode = 0) :
    let r := streamed (Config.blockEncrypt k) dir n s
    ∃ t, Machine.exec (updateInstr dir n) s = .next t ∧ EngineInv t ∧ Emits t r.out 0 ∧ SameConfig s t ∧
      SameKeys s t ∧ SameStream (Machine.setStream r.cv r.buf s) t := by
  intro r
  have ht := updateCommand_eq h.buf_length_le hn hp hm hk
  have hle := emitted_le_dinSize h hp hn
  rw [← streamed_out_length (Config.blockEncrypt k)] at hle
  have hout : r.out.length < 65536 := hle.trans_lt ((dinSize_le s.params).trans_lt (by omega))
  have hexec : Machine.exec (updateInstr dir n) s = updateCommand dir n s := by cases dir <;> rfl
  exact ⟨_, hexec.trans ht, h.update ht,
    emits_finish h.memoryCanonical.1 hout (by omega), sameConfig_finish _ _ _ _,
    sameKeys_finish _ _ _ _, sameStream_finish _ _ _ _⟩

/-- Settles O17: the Update is one run of `takeBlocks`, along which R113's block relation holds. -/
theorem updateIsTheCfbTransform : Obligations.UpdateIsTheCfbTransform := by
  intro dir n s k h hk hn hp hm
  obtain ⟨t, ht, _, hout, _, _, _, hcv, _⟩ := h.update_emits hk hn hp hm
  have hlen : (s.buf ++ dinBytes s n).length = s.buf.length + n := by simp
  obtain ⟨c, hc0, hc, hblocks⟩ := takeBlocks_cfb (Config.blockEncrypt k) dir (holdsBack dir s) s.cv hlen.le
  have hemit := hout.outLen_eq.trans (streamed_out_length _ dir n s)
  rw [hlen, ← hemit] at hc hblocks
  refine ⟨t, c, ht, hout.err_eq, hc0, hcv.trans hc, fun b j hb => ?_⟩
  have hi : 16 * b + j.val < (streamed (Config.blockEncrypt k) dir n s).out.length := by
    rw [← hout.outLen_eq]
    omega
  have hbyte : doutByte t (16 * b + j.val) =
      (streamed (Config.blockEncrypt k) dir n s).out.getD (16 * b + j.val) 0 :=
    (hout.dout _ hi).trans (List.getD_eq_getElem _ _ hi).symm
  simp only [hbyte]
  exact hblocks b j hb

end Sys2Proof.Machine
end

section
/-! PROOFS. Streams on the engine (R172 to R174, R179): one Update and Final emit what the pure stream functions say, so
an engine that decrypts another's output gives its input back. -/

namespace Sys2Proof.Machine

/-! ### The result of a Final -/

/-- A result that needs the keystream has it (R112). -/
theorem withKeystream_of_rk {s : State} {k : RoundKeys} (hk : s.rk = some k)
    (f : (Bytes16 → Bytes16) → State → State) : withKeystream f s = .next (f (Config.blockEncrypt k) s) := by
  simp only [withKeystream, hk]

/-- Under NoPadding the result is the partial step, of no byte where none is buffered (R172). -/
theorem finalBody_noPadding {s : State} {k : RoundKeys} (dir : Direction) (hk : s.rk = some k)
    (hpad : s.pad = .noPadding) :
    finalBody dir s = .next (finish .ok (partialStep (Config.blockEncrypt k) s.cv s.buf) 0 s) := by
  simp only [finalBody, hpad]
  split
  · next hbuf => rw [hbuf, partialStep_nil]
  · exact withKeystream_of_rk hk _

/-- ENC_FINAL under PKCS steps the padded block (R173). -/
theorem finalBody_encPkcs {s : State} {k : RoundKeys} (hk : s.rk = some k) (hpad : s.pad = .pkcs)
    (hbuf : s.buf.length < 16) :
    finalBody .enc s = .next (finish .ok (blockXor (Config.blockEncrypt k s.cv) (pkcsBlock s.buf)).toList
      (16 - s.buf.length) s) := by
  simp only [finalBody, hpad, applyPadding_pkcsBlock hbuf]
  exact withKeystream_of_rk hk _

/-- DEC_FINAL under PKCS of a block that decrypts to `pt` strips its padding (R174). -/
theorem finalBody_decPkcs {s : State} {k : RoundKeys} {pt : Bytes16} {p : Nat} (hk : s.rk = some k)
    (hpad : s.pad = .pkcs) (hbuf : s.buf = (blockXor (Config.blockEncrypt k s.cv) pt).toList) (hpt : PaddedWith pt p) :
    finalBody .dec s = .next (finish .ok (pt.toList.take (16 - p)) p s) := by
  have hlen : ¬ s.buf.length ≠ 16 := by simp [hbuf]
  have hplain : blockXor (Config.blockEncrypt k s.cv) (block s.buf) = pt := by
    rw [hbuf, block_toList, blockXor_cancel]
  simp only [finalBody, hpad, if_neg hlen]
  rw [withKeystream_of_rk hk]
  simp only [finalDecPkcs, hplain, (checkAndStrip_pkcs_iff pt p).2 hpt]

/-- A Final whose checks pass emits its result; the clear of R170 leaves DOUT and the result registers alone. -/
theorem final_emits {s : State} {dir : Direction} {out : List Byte} {p : Nat} (hmem : memWf s.mem = true)
    (hp : s.phase = streamPhase dir) (hm : s.mode = 0) (hbody : finalBody dir s = .next (finish .ok out p s))
    (hout : out.length ≤ 16) (hpad : p ≤ 16) : ∃ f, exec (finalInstr dir) s = .next f ∧ Emits f out p := by
  have hexec : exec (finalInstr dir) s = finalCommand dir s := by cases dir <;> rfl
  have hemits : Emits (finish .ok out p s) out p := emits_finish hmem (by omega) (by omega)
  exact ⟨_, hexec.trans (finalCommand_eq ((finalCheck_ok_iff dir s).2 ⟨hp, hm⟩) hbody),
    resultIs_clearStream hemits.result, hemits.dout⟩

/-! ### A stream of one Update and Final -/

/-- The commands that take `s` to `u` and `u` to `f` emit `out`, and the second reports pad length `p`. -/
structure StreamEmits (dir : Direction) (n : Nat) (s u f : State) (out : List Byte) (p : Nat) : Prop where
  update : exec (updateInstr dir n) s = .next u
  final : exec (finalInstr dir) u = .next f
  err : f.err = .ok
  padLen : f.padLen.toNat = p
  length : u.outLen.toNat + f.outLen.toNat = out.length
  bytes : ∀ (i : Nat) (h : i < out.length), joinedOut u f i = out[i]

/-- A fresh stream whose Update may run: the state of the invariant after an Init with round keys `k`. -/
structure Fresh (dir : Direction) (n : Nat) (k : RoundKeys) (s : State) : Prop where
  inv : EngineInv s
  rk : s.rk = some k
  phase : s.phase = streamPhase dir
  mode : s.mode = 0
  buf : s.buf = []
  fits : n ≤ s.params.dinSize

/-- A stream emits what its Update steps, and then the result of its Final. -/
theorem Fresh.emits {dir : Direction} {n : Nat} {k : RoundKeys} {s : State} (h : Fresh dir n k s) {r : Streamed}
    (hr : streamed (Config.blockEncrypt k) dir n s = r) {last : List Byte} {p : Nat} (hlast : last.length ≤ 16)
    (hp : p ≤ 16)
    (hbody : ∀ u : State, u.rk = some k → u.pad = s.pad → u.cv = r.cv → u.buf = r.buf →
      finalBody dir u = .next (finish .ok last p u)) :
    ∃ u f, StreamEmits dir n s u f (r.out ++ last) p := by
  subst hr
  obtain ⟨u, hu, hinv, hemits, ⟨_, _, hmode, hpad, _⟩, ⟨_, hrk⟩, hphase, hcv, hbuf⟩ :=
    h.inv.update_emits h.rk h.fits h.phase h.mode
  obtain ⟨f, hf, hfinal⟩ := final_emits hinv.memoryCanonical.1 (hphase.trans h.phase) (hmode.trans h.mode)
    (hbody u (hrk.trans h.rk) hpad hcv hbuf) hlast hp
  refine ⟨u, f, hu, hf, hfinal.err_eq, hfinal.padLen_eq, ?_, fun i hi => hemits.joinedOut_eq hfinal hi⟩
  rw [hemits.outLen_eq, hfinal.outLen_eq, List.length_append]

/-- DIN holds `out` where its bytes are the joined output of a stream that emitted `out`. -/
theorem StreamEmits.dinBytes_eq {dir : Direction} {n : Nat} {s u f d : State} {out : List Byte} {p : Nat}
    (h : StreamEmits dir n s u f out p) (hd : ∀ i, i < out.length → dinByte d i = joinedOut u f i) :
    dinBytes d out.length = out :=
  List.ext_getElem (dinBytes_length _ _) fun i h1 h2 =>
    (dinBytes_getElem _ _ _ h1).trans ((hd i h2).trans (h.bytes i h2))

/-- A stream that emits DIN[0..m) of `d` emits byte i of DIN at i. -/
theorem StreamEmits.joinedOut_eq_dinByte {dir : Direction} {n m : Nat} {s u f d : State} {p : Nat}
    (h : StreamEmits dir n s u f (dinBytes d m) p) {i : Nat} (hi : i < m) : joinedOut u f i = dinByte d i := by
  have hi' : i < (dinBytes d m).length := (dinBytes_length d m).symm ▸ hi
  exact (h.bytes i hi').trans (dinBytes_getElem d m i hi')

/-- Under NoPadding a stream in either direction emits `plainStream` of its input. -/
theorem Fresh.emits_plainStream {dir : Direction} {n : Nat} {k : RoundKeys} {s : State} (h : Fresh dir n k s)
    (hpad : s.pad = .noPadding) :
    ∃ u f, StreamEmits dir n s u f (plainStream (Config.blockEncrypt k) dir s.cv (dinBytes s n)) 0 := by
  have hhold : holdsBack dir s = false := by simp [holdsBack, hpad]
  refine h.emits ((streamed_of_buf_nil _ dir n h.buf).trans (by rw [hhold])) (partialStep_length_le _ _ _)
    (Nat.zero_le _) fun u hrk hu hcv hbuf => ?_
  rw [finalBody_noPadding dir hrk (hu.trans hpad), hcv, hbuf]

/-- Settles O26: both streams emit `plainStream`, and decryption undoes encryption there. -/
theorem noPaddingRoundTrip : Obligations.NoPaddingRoundTrip := by
  intro n s h hp hm hpad hbuf hn
  obtain ⟨k, hk⟩ := h.roundKeys (dir := .enc) hp
  obtain ⟨u, f, henc⟩ := Fresh.emits_plainStream (dir := .enc) ⟨h, hk, hp, hm, hbuf, hn⟩ hpad
  have hlen := (plainStream_length (Config.blockEncrypt k) .enc s.cv (dinBytes s n)).trans (dinBytes_length s n)
  refine ⟨u, f, henc.update, henc.final, henc.length.trans hlen,
    fun d hd hdp hdm hdpad hdbuf hdk hdcv hdn hin => ?_⟩
  have hdin := henc.dinBytes_eq (hlen.symm ▸ hin)
  rw [hlen] at hdin
  obtain ⟨v, g, hdec⟩ := Fresh.emits_plainStream (dir := .dec) ⟨hd, hdk.trans hk, hdp, hdm, hdbuf, hdn⟩ hdpad
  rw [hdin, hdcv, plainStream_dec_enc] at hdec
  exact ⟨v, g, hdec.update, hdec.final, hdec.length.trans (dinBytes_length s n),
    fun i hi => hdec.joinedOut_eq_dinByte hi⟩

/-- Under PKCS an encryption emits `pkcsStream` of its input, padded to a whole block. -/
theorem Fresh.emits_pkcsStream {n : Nat} {k : RoundKeys} {s : State} (h : Fresh .enc n k s) (hpad : s.pad = .pkcs) :
    ∃ u f, StreamEmits .enc n s u f (pkcsStream (Config.blockEncrypt k) s.cv (dinBytes s n)) (16 - n % 16) := by
  have hhold : holdsBack .enc s = false := by simp [holdsBack]
  have hlen := takeBlocks_buf_length (Config.blockEncrypt k) .enc s.cv (dinBytes s n)
  refine h.emits ((streamed_of_buf_nil _ .enc n h.buf).trans (by rw [hhold])) (by simp) (Nat.sub_le _ _)
    fun u hrk hu hcv hbuf => ?_
  rw [finalBody_encPkcs hrk (hu.trans hpad) (by rw [hbuf]; omega), hcv, hbuf, hlen, dinBytes_length]

/-- Under PKCS with hold-back a decryption of `pkcsStream` of `l` emits `l`, and reports the padding it stripped. -/
theorem Fresh.emits_of_pkcsStream {m : Nat} {k : RoundKeys} {d : State} {l : List Byte} (h : Fresh .dec m k d)
    (hpad : d.pad = .pkcs) (hhold : d.params.holdback = true)
    (hdin : dinBytes d m = pkcsStream (Config.blockEncrypt k) d.cv l) :
    ∃ v g, StreamEmits .dec m d v g l (16 - l.length % 16) := by
  have hholds := (holdsBack_eq_true_iff .dec d).2 ⟨hhold, rfl, hpad⟩
  have hrun : streamed (Config.blockEncrypt k) .dec m d = _ :=
    (streamed_of_buf_nil _ .dec m h.buf).trans (by rw [hholds, hdin, takeBlocks_dec_pkcsStream])
  have hlen := takeBlocks_buf_length (Config.blockEncrypt k) .enc d.cv l
  obtain ⟨_, hdrop⟩ := takeBlocks_lengths (Config.blockEncrypt k) .enc false d.cv (le_refl l.length)
  set a := takeBlocks (Config.blockEncrypt k) .enc false l.length d.cv l
  have hlt : a.buf.length < 16 := by omega
  have hstream := h.emits (last := a.buf) (p := 16 - a.buf.length) hrun hlt.le (Nat.sub_le _ _)
    fun v hrk hv hcv hbuf => by
      rw [finalBody_decPkcs hrk (hv.trans hpad) (hbuf.trans (by rw [hcv])) (paddedWith_pkcsBlock hlt),
        show 16 - (16 - a.buf.length) = a.buf.length by omega, take_pkcsBlock hlt]
  rwa [hlen, hdrop, List.take_append_drop] at hstream

/-- Settles O27: the encryption emits `pkcsStream`, which the decryption with hold-back strips to the input. -/
theorem pkcsRoundTripWithHoldback : Obligations.PkcsRoundTripWithHoldback := by
  intro n s h hp hm hpad hbuf hn
  obtain ⟨k, hk⟩ := h.roundKeys (dir := .enc) hp
  obtain ⟨u, f, henc⟩ := Fresh.emits_pkcsStream ⟨h, hk, hp, hm, hbuf, hn⟩ hpad
  have hlen := pkcsStream_length (Config.blockEncrypt k) s.cv (dinBytes s n)
  rw [dinBytes_length] at hlen
  refine ⟨u, f, henc.update, henc.final, henc.length.trans hlen,
    fun d hd hhold hdp hdm hdpad hdbuf hdk hdcv hdn hin => ?_⟩
  have hdin := henc.dinBytes_eq (hlen.symm ▸ hin)
  rw [hlen, ← hdcv] at hdin
  obtain ⟨v, g, hdec⟩ := Fresh.emits_of_pkcsStream ⟨hd, hdk.trans hk, hdp, hdm, hdbuf, hdn⟩ hdpad hhold hdin
  rw [dinBytes_length] at hdec
  exact ⟨v, g, hdec.update, hdec.final, hdec.err, hdec.padLen, hdec.length.trans (dinBytes_length s n),
    fun i hi => hdec.joinedOut_eq_dinByte hi⟩

end Sys2Proof.Machine
end

section
/-! PROOFS. The padding commands (R120 to R126): what each leaves, one equation per outcome, and from these the claims
about PAD_APPLY, about PAD_CHECK, and about the one after the other. -/

namespace Sys2Proof.Machine

/-- A completion keeps PARAM, CTRL, CFG, IV, the keys, the stream and the port (R16). -/
theorem sameBesideMemory_finish (e : ErrCode) (out : List Byte) (p : Nat) (s : State) :
    SameConfig s (finish e out p s) ∧ SameKeys s (finish e out p s) ∧ SameStream s (finish e out p s) ∧
      SamePort s (finish e out p s) :=
  ⟨sameConfig_finish .., sameKeys_finish .., sameStream_finish .., samePort_finish ..⟩

/-! ### PAD_APPLY -/

/-- DIN[0..n) padded to a block under PKCS (R120). -/
def paddedDin (n : Nat) (s : State) : Bytes16 :=
  block ((dinBlock s).toList.take n ++ List.replicate (16 - n) (BitVec.ofNat 8 (16 - n)))

/-- PAD_APPLY under NoPadding accepts only the empty block, and emits nothing (R123). -/
theorem exec_padApply_noPadding_zero (s : State) :
    exec (.padApply .noPadding 0) s = .next (finish .ok [] 0 s) := rfl

theorem exec_padApply_noPadding_fail {n : Nat} (h : n ≠ 0) (s : State) :
    exec (.padApply .noPadding n) s = .next (fail .pad s) := congrArg _ (if_neg h)

/-- PAD_APPLY under PKCS emits the padded block (R122). -/
theorem exec_padApply_pkcs {n : Nat} (h : n < 16) (s : State) :
    exec (.padApply .pkcs n) s = .next (finish .ok (paddedDin n s).toList (16 - n) s) := by
  simp only [exec, execPadApply, padApplyResult, applyPadding_pkcs h, paddedDin]

/-- A full block has no room for padding (R120). -/
theorem exec_padApply_pkcs_fail {n : Nat} (h : 16 ≤ n) (s : State) :
    exec (.padApply .pkcs n) s = .next (fail .pad s) := by
  simp only [exec, execPadApply, padApplyResult, applyPadding_pkcs_none h]

/-- DOUT after PAD_APPLY under PKCS: the used bytes, then the pad length in every place left (R120). -/
theorem doutByte_finish_paddedDin {s : State} (hm : memWf s.mem = true) {n i : Nat} (hn : n < 16) (hi : i < 16)
    (p : Nat) : doutByte (finish .ok (paddedDin n s).toList p s) i =
      if i < n then dinByte s i else BitVec.ofNat 8 (16 - n) := by
  rw [doutByte_finish hm _ _ (by simpa using hi), Vector.getElem_toList, paddedDin, padded_getElem hn hi,
    dinBlock_getElem]

/-- Settles O28: one completion for each padding type and each range of LEN. -/
theorem PadCommands.padApplyResult : Obligations.PadApplyResult := by
  intro s n hm same
  refine ⟨fun h0 => ?_, fun h0 => ?_, fun hn => ?_, fun hn => ?_⟩
  · subst h0
    exact ⟨_, exec_padApply_noPadding_zero s, resultIs_finish List.length_nil s (by omega) (by omega),
      sameBesideMemory_finish .., fun _ => rfl⟩
  · exact ⟨_, exec_padApply_noPadding_fail h0 s, failedWith_fail .pad s⟩
  · have hlt : n < 16 := by omega
    have hlen : (paddedDin n s).toList.length = 16 := Vector.length_toList
    refine ⟨_, exec_padApply_pkcs hlt s, resultIs_finish hlen s (by omega) (by omega), fun i hi => ?_,
      fun i hni hi => ?_, sameBesideMemory_finish .., sameMemoryBut_finish hlen _ s⟩
    · rw [doutByte_finish_paddedDin hm hlt (by omega), if_pos hi]
    · rw [doutByte_finish_paddedDin hm hlt hi, if_neg (by omega)]
  · exact ⟨_, exec_padApply_pkcs_fail hn s, failedWith_fail .pad s⟩

/-! ### PAD_CHECK -/

/-- PAD_CHECK of valid padding emits the block without it (R125). -/
theorem exec_padCheck_of_some {q : Padding} {p : Nat} {s : State}
    (h : checkAndStripPadding (dinBlock s) q = some p) :
    exec (.padCheck q) s = .next (finish .ok ((dinBlock s).toList.take (16 - p)) p s) := by
  simp only [exec, execPadCheck, padCheckResult, h]

theorem exec_padCheck_of_none {q : Padding} {s : State} (h : checkAndStripPadding (dinBlock s) q = none) :
    exec (.padCheck q) s = .next (fail .pad s) := by
  simp only [exec, execPadCheck, padCheckResult, h]

/-- Valid padding of DIN[0..16), byte by byte (R121). -/
theorem paddedWith_dinBlock_iff (s : State) (p : Nat) : PaddedWith (dinBlock s) p ↔
    0 < p ∧ p ≤ 16 ∧ ∀ i, 16 - p ≤ i → i < 16 → (dinByte s i).toNat = p := by
  simp only [PaddedWith, Fin.getElem_fin, dinBlock_getElem]
  exact and_congr_right' (and_congr_right' ⟨fun h i hp hi => h ⟨i, hi⟩ hp, fun h i hp => h i.val hp i.isLt⟩)

/-- DOUT after a successful PAD_CHECK: the bytes of DIN before the padding (R125). -/
theorem doutByte_finish_take_dinBlock {s : State} (hm : memWf s.mem = true) {n i : Nat} (hn : n ≤ 16) (hi : i < n)
    (p : Nat) : doutByte (finish .ok ((dinBlock s).toList.take n) p s) i = dinByte s i := by
  rw [doutByte_finish hm _ _ (by simp; omega), List.getElem_take, Vector.getElem_toList, dinBlock_getElem]

/-- Settles O29: the validator's answer decides between stripping and E_PAD. -/
theorem PadCommands.padCheckResult : Obligations.PadCheckResult := by
  intro s hm strips valid
  have strips_of_some {q : Padding} {p : Nat} (h : checkAndStripPadding (dinBlock s) q = some p) : strips q p := by
    have hp := checkAndStrip_le h
    have hlen : ((dinBlock s).toList.take (16 - p)).length = 16 - p := by simp
    obtain ⟨hconfig, hkeys, hstream, hport⟩ :=
      sameBesideMemory_finish .ok ((dinBlock s).toList.take (16 - p)) p s
    exact ⟨_, exec_padCheck_of_some h, resultIs_finish hlen s (by omega) (by omega),
      fun i hi => doutByte_finish_take_dinBlock hm (by omega) hi p, hconfig, hkeys, hstream, hport,
      sameMemoryBut_finish hlen p s⟩
  refine ⟨strips_of_some rfl, fun p hp => strips_of_some ?_, fun hnone => ?_⟩
  · exact (checkAndStrip_pkcs_iff _ p).2 ((paddedWith_dinBlock_iff s p).2 hp)
  · have hcheck := (checkAndStrip_pkcs_none_iff (dinBlock s)).2 fun p hp =>
      hnone p ((paddedWith_dinBlock_iff s p).1 hp)
    exact ⟨_, exec_padCheck_of_none hcheck, failedWith_fail .pad s⟩

/-! ### PAD_CHECK after PAD_APPLY -/

/-- Settles O30: by O28 the block ends in 16 - n bytes of that value, which O29 strips again. -/
theorem PadCommands.padCheckUndoesPadApply : Obligations.PadCheckUndoesPadApply := by
  intro s u n hn hms hmu
  obtain ⟨-, -, happly, -⟩ := PadCommands.padApplyResult s n hms
  obtain ⟨-, hcheck, -⟩ := PadCommands.padCheckResult u hmu
  obtain ⟨t, ht, -, hused, hpad, -⟩ := happly hn
  refine ⟨t, ht, fun hin => ?_⟩
  have hused_length : 16 - (16 - n) = n := by omega
  have htail : ∀ i, 16 - (16 - n) ≤ i → i < 16 → (dinByte u i).toNat = 16 - n := fun i hi hi16 => by
    rw [hin i hi16, hpad i (by omega) hi16, BitVec.toNat_ofNat]
    omega
  obtain ⟨v, hv, hresult, hbytes, -⟩ := hcheck (16 - n) ⟨by omega, by omega, htail⟩
  rw [hused_length] at hresult hbytes
  exact ⟨v, hv, hresult, fun i hi => (hbytes i hi).trans ((hin i (by omega)).trans (hused i hi))⟩

end Sys2Proof.Machine
end

section
/-! PROOFS. The Init commands (R140 to R143): one equation per outcome of R140's checks, what R141's body leaves, and
from these the claims about ENC_INIT and DEC_INIT. -/

namespace Sys2Proof.Machine

/-! ### The outcomes of R140's checks -/

/-- Either Init is the command of R140 and R141 in its direction (R142, R143). -/
theorem exec_initInstr (dir : Direction) (s : State) : exec (initInstr dir) s = .next (initCommand dir s) := by
  cases dir <;> rfl

/-- The first check: without round keys MODE is not looked at (R140). -/
theorem initCommand_nokey {dir : Direction} {s : State} (hk : s.rk = none) : initCommand dir s = fail .nokey s :=
  if_pos (by rw [rkv, hk, Option.isSome_none])

/-- Valid round keys pass the first check (R140). -/
theorem initCommand_of_keys {dir : Direction} {s : State} (hk : s.rk.isSome = true) :
    initCommand dir s = if 4 ≤ s.mode.toNat then fail .fatal s else finish .ok [] 0 (initStream dir s) :=
  if_neg (by rw [rkv, hk]; decide)

/-- Init never reads the phase the engine is in: it succeeds from any (R140, R141). -/
theorem initCommand_starts {dir : Direction} {s : State} (hk : s.rk.isSome = true) (hm : s.mode.toNat ≤ 3) :
    initCommand dir s = finish .ok [] 0 (initStream dir s) := by
  rw [initCommand_of_keys hk, if_neg (by omega)]

theorem initCommand_fatal {dir : Direction} {s : State} (hk : s.rk.isSome = true) (hm : 4 ≤ s.mode.toNat) :
    initCommand dir s = fail .fatal s := by
  rw [initCommand_of_keys hk, if_pos hm]

/-! ### What R141's body leaves -/

@[simp] theorem initStream_buf (dir : Direction) (s : State) : (initStream dir s).buf = [] := rfl

@[simp] theorem initStream_phase (dir : Direction) (s : State) : (initStream dir s).phase = streamPhase dir := rfl

/-- Every mode but ECB chains, so CV takes the IV (R141). -/
theorem initStream_cv_of_chaining {dir : Direction} {s : State} (h : s.mode ≠ 1) : (initStream dir s).cv = s.iv :=
  if_pos fun h1 => h (BitVec.eq_of_toNat_eq h1)

/-- ECB does not chain, so CV keeps its value (R141). -/
theorem initStream_cv_of_ecb {dir : Direction} {s : State} (h : s.mode = 1) : (initStream dir s).cv = s.cv :=
  if_neg (by rw [h]; decide)

/-- The body writes PHASE, CV and BUF alone (R141). -/
theorem initStream_frame (dir : Direction) (s : State) :
    SameConfig s (initStream dir s) ∧ SameKeys s (initStream dir s) ∧ SamePort s (initStream dir s) ∧
      SameMemory s (initStream dir s) :=
  ⟨⟨rfl, rfl, rfl, rfl, rfl⟩, ⟨rfl, rfl⟩, ⟨rfl, rfl, rfl, rfl⟩, fun _ => rfl⟩

/-- A completion without output keeps those pieces of the state too (R16). -/
theorem frame_finish_nil {s u : State} (h : SameConfig s u ∧ SameKeys s u ∧ SamePort s u ∧ SameMemory s u) :
    SameConfig s (finish .ok [] 0 u) ∧ SameKeys s (finish .ok [] 0 u) ∧ SamePort s (finish .ok [] 0 u) ∧
      SameMemory s (finish .ok [] 0 u) := h

/-! ### The claims -/

/-- Settles O12: R140's checks pass, so R141's body and a completion without output are all that happens. -/
theorem initStartsAStream : Obligations.InitStartsAStream := by
  intro dir s hk hm
  obtain ⟨hphase, hcv, hbuf⟩ := sameStream_finish .ok [] 0 (initStream dir s)
  have hecb (h1 : s.mode = 1) : (finish .ok [] 0 (initStream dir s)).cv = s.cv := hcv.trans (initStream_cv_of_ecb h1)
  refine ⟨finish .ok [] 0 (initStream dir s), ?_, resultIs_finish List.length_nil _ (by omega) (by omega), hbuf, hphase,
    fun h1 => hcv.trans (initStream_cv_of_chaining h1), hecb, fun h1 hclean hidle => ?_,
    frame_finish_nil (initStream_frame dir s)⟩
  · rw [exec_initInstr, initCommand_starts hk hm]
  · obtain ⟨-, hzero⟩ := hclean hidle
    exact (hecb h1).trans hzero

/-- Settles O13: each failing check ends the command in `fail`, which changes the result registers alone. -/
theorem initChecksInOrder : Obligations.InitChecksInOrder := by
  refine fun dir s => ⟨fun hk => ⟨fail .nokey s, ?_, failedWith_fail .nokey s⟩,
    fun hk hm => ⟨fail .fatal s, ?_, failedWith_fail .fatal s⟩⟩
  · rw [exec_initInstr, initCommand_nokey hk]
  · rw [exec_initInstr, initCommand_fatal hk hm]

end Sys2Proof.Machine
end

section
/-! PROOFS. The Updates (R150 to R158): the outcome of R152's checks, the state an Update leaves as one term over the
pure stream functions, and from these the claims about ENC_UPDATE and DEC_UPDATE. -/

namespace Sys2Proof.Machine

/-- Either Update is the command of R152 and R153 in its direction (R156, R157). -/
theorem exec_updateInstr (dir : Direction) (n : Nat) (s : State) :
    exec (updateInstr dir n) s = updateCommand dir n s := by
  cases dir <;> rfl

/-! ### The outcomes of R152's checks -/

/-- The first check: LEN is looked at before phase and mode. -/
theorem updateCheck_arg {dir : Direction} {n : Nat} {s : State} (h : s.params.dinSize < n) :
    updateCheck dir n s = .arg := if_pos h

/-- The second check: the wrong phase hides the mode. -/
theorem updateCheck_seq {dir : Direction} {n : Nat} {s : State} (hn : n ≤ s.params.dinSize)
    (hp : s.phase ≠ streamPhase dir) : updateCheck dir n s = .seq := by
  rw [updateCheck, if_neg (by omega), if_pos hp]

/-- The third check is R115's verdict on MODE, whatever LEN is. -/
theorem updateCheck_mode {dir : Direction} {n : Nat} {s : State} (hn : n ≤ s.params.dinSize)
    (hp : s.phase = streamPhase dir) : updateCheck dir n s = modeCheck s.mode := by
  rw [updateCheck, if_neg (by omega), if_neg (not_not_intro hp)]

/-- An Update whose checks give `code` fails with it and changes nothing else (R151). -/
theorem update_fails {dir : Direction} {n : Nat} {s : State} {code : ErrCode} (hc : updateCheck dir n s = code)
    (hne : code ≠ .ok) : ∃ t, exec (updateInstr dir n) s = .next t ∧ FailedWith code s t :=
  ⟨fail code s, (exec_updateInstr dir n s).trans (updateCommand_fail hc hne), failedWith_fail code s⟩

/-- Settles O14: `updateCheck` names the first failing check, and that failure changes the result registers alone. -/
theorem updateChecksInOrder : Obligations.UpdateChecksInOrder := by
  intro dir n s _
  refine ⟨fun hn => update_fails (updateCheck_arg hn) (by decide),
    fun hn hp => update_fails (updateCheck_seq hn hp) (by decide), fun hn hp h1 h3 => ?_, fun hn hp h4 => ?_⟩
  · exact update_fails ((updateCheck_mode hn hp).trans (modeCheck_reserved h1 h3)) (by decide)
  · exact update_fails ((updateCheck_mode hn hp).trans (modeCheck_unrecognized h4)) (by decide)

/-! ### An Update that only buffers -/

/-- R153's test: less than a block in total, or with hold-back exactly one. -/
theorem onlyBuffers_holdsBack_iff (dir : Direction) (s : State) (total : Nat) :
    onlyBuffers (holdsBack dir s) total = true ↔
      total < 16 ∨ (s.params.holdback = true ∧ dir = .dec ∧ s.pad = .pkcs ∧ total = 16) := by
  simp only [onlyBuffers, Bool.or_eq_true, Bool.and_eq_true, decide_eq_true_eq, holdsBack_eq_true_iff, and_assoc]

/-- Settles O15: R153 ends after its step 2, a completion without output, before the keystream is asked for. -/
theorem updateBuffersShortInput : Obligations.UpdateBuffersShortInput := by
  intro dir n s hn hp hm hshort
  have hcheck := (updateCheck_ok_iff dir n s).2 ⟨hn, hp, hm⟩
  have honly := (onlyBuffers_holdsBack_iff dir s (s.buf.length + n)).2 hshort
  have hexec := (exec_updateInstr dir n s).trans (updateCommand_buffers hcheck honly)
  obtain ⟨hphase, hcv, hbuf⟩ := sameStream_finish .ok [] 0 (setStream s.cv (s.buf ++ dinBytes s n) s)
  have hframe : SameConfig s _ ∧ SameKeys s _ ∧ SamePort s _ ∧ SameMemory s _ :=
    frame_finish_nil (u := setStream s.cv (s.buf ++ dinBytes s n) s)
      ⟨⟨rfl, rfl, rfl, rfl, rfl⟩, ⟨rfl, rfl⟩, ⟨rfl, rfl, rfl, rfl⟩, fun _ => rfl⟩
  exact ⟨_, hexec, resultIs_finish List.length_nil _ (by omega) (by omega), hbuf, hcv, hphase, hframe⟩

/-! ### The state an Update leaves -/

/-- What a successful Update leaves (R16, R153): the output of `streamed` in DOUT, and its CV and BUF. -/
def updated (k : RoundKeys) (dir : Direction) (n : Nat) (s : State) : State :=
  let r := streamed (Config.blockEncrypt k) dir n s
  finish .ok r.out 0 (setStream r.cv r.buf s)

/-- An Update whose checks pass leaves `updated`, whether it steps a block or only buffers. -/
theorem exec_update_eq {dir : Direction} {n : Nat} {s : State} {k : RoundKeys} (hb : s.buf.length ≤ 16)
    (hn : n ≤ s.params.dinSize) (hp : s.phase = streamPhase dir) (hm : s.mode = 0) (hk : s.rk = some k) :
    exec (updateInstr dir n) s = .next (updated k dir n s) :=
  (exec_updateInstr dir n s).trans (updateCommand_eq hb hn hp hm hk)

/-- In a state of the invariant the round keys are there (R41). -/
theorem EngineInv.exec_update {s : State} {dir : Direction} {n : Nat} (h : EngineInv s) (hn : n ≤ s.params.dinSize)
    (hp : s.phase = streamPhase dir) (hm : s.mode = 0) :
    ∃ k, Machine.exec (updateInstr dir n) s = .next (updated k dir n s) := by
  obtain ⟨k, hk⟩ := h.roundKeys hp
  exact ⟨k, exec_update_eq h.buf_length_le hn hp hm hk⟩

section Updated
variable (k : RoundKeys) (dir : Direction) (n : Nat) (s : State)

@[simp] theorem updated_cv : (updated k dir n s).cv = (streamed (Config.blockEncrypt k) dir n s).cv := rfl

@[simp] theorem updated_buf : (updated k dir n s).buf = (streamed (Config.blockEncrypt k) dir n s).buf := rfl

@[simp] theorem updated_phase : (updated k dir n s).phase = s.phase := rfl

/-- An Update keeps PARAM, CTRL, CFG, IV, the keys and the port, and every window byte outside its output. -/
theorem updated_frame : SameConfig s (updated k dir n s) ∧ SameKeys s (updated k dir n s) ∧
    SamePort s (updated k dir n s) ∧
    SameMemoryBut (emitted (holdsBack dir s) (s.buf.length + n)) s (updated k dir n s) :=
  ⟨sameConfig_finish .., sameKeys_finish .., samePort_finish ..,
    sameMemoryBut_finish (streamed_out_length (Config.blockEncrypt k) dir n s) 0 _⟩

/-- The output of an Update stands in DOUT, and its length in OUT_LEN, which never overflows. -/
theorem updated_emits {s : State} (hw : memWf s.mem = true) (hb : s.buf.length ≤ 16) (hn : n ≤ s.params.dinSize) :
    Emits (updated k dir n s) (streamed (Config.blockEncrypt k) dir n s).out 0 := by
  have hlen := streamed_out_length (Config.blockEncrypt k) dir n s
  have hle := emitted_le (holdsBack dir s) (s.buf.length + n)
  have hdin := dinSize_le s.params
  exact emits_finish hw (by omega) (by omega)

/-- OUT_LEN after an Update (R155). -/
theorem EngineInv.result_updated {s : State} (h : EngineInv s) (hn : n ≤ s.params.dinSize) :
    ResultIs .ok (emitted (holdsBack dir s) (s.buf.length + n)) 0 (updated k dir n s) := by
  have hwf : memWf s.mem = true := h.memoryCanonical.1
  rw [← streamed_out_length (Config.blockEncrypt k)]
  exact (updated_emits k dir n hwf h.buf_length_le hn).result

end Updated

/-! ### The closed form -/

/-- BUF after an Update is what follows the emitted bytes (R155). -/
theorem streamed_buf (e : Bytes16 → Bytes16) (dir : Direction) (n : Nat) (s : State) :
    (streamed e dir n s).buf = (s.buf ++ dinBytes s n).drop (emitted (holdsBack dir s) (s.buf.length + n)) := by
  have hlen : (s.buf ++ dinBytes s n).length = s.buf.length + n := by simp
  obtain ⟨-, hbuf⟩ := takeBlocks_lengths e dir (holdsBack dir s) s.cv hlen.le
  rw [streamed, hbuf, hlen]

theorem streamed_buf_length (e : Bytes16 → Bytes16) (dir : Direction) (n : Nat) (s : State) :
    (streamed e dir n s).buf.length = s.buf.length + n - emitted (holdsBack dir s) (s.buf.length + n) := by
  simp [streamed_buf]

/-- Without a whole block stepped, CV stays (R155). -/
theorem streamed_cv_of_emitted_zero (e : Bytes16 → Bytes16) {dir : Direction} {n : Nat} {s : State}
    (h : emitted (holdsBack dir s) (s.buf.length + n) = 0) : (streamed e dir n s).cv = s.cv := by
  have hlen : (s.buf ++ dinBytes s n).length = s.buf.length + n := by simp
  obtain ⟨c, hc0, hcv, -⟩ := takeBlocks_cfb e dir (holdsBack dir s) s.cv hlen.le
  rw [hlen, h] at hcv
  exact hcv.trans hc0

theorem emitted_false (n : Nat) : emitted false n = 16 * (n / 16) := rfl

theorem emitted_true (n : Nat) : emitted true n = 16 * ((n - 1) / 16) := rfl

/-- Settles O16: the Update emits `emitted` bytes of the total, the whole blocks that hold-back lets through. -/
theorem updateClosedForm : Obligations.UpdateClosedForm := by
  intro dir n s h hn hp hm total held
  obtain ⟨k, hexec⟩ := h.exec_update hn hp hm
  have hheld : holdsBack dir s = true ↔ held := holdsBack_eq_true_iff dir s
  have hlen : (updated k dir n s).buf.length = total - emitted (holdsBack dir s) total :=
    streamed_buf_length _ dir n s
  refine ⟨updated k dir n s, emitted (holdsBack dir s) total, hexec, h.result_updated k dir n hn, fun hno => ?_,
    fun hyes htotal => ?_, fun hyes htotal => ?_, streamed_buf _ dir n s,
    fun h0 => streamed_cv_of_emitted_zero _ h0, updated_phase k dir n s, updated_frame k dir n s⟩
  · rw [Bool.eq_false_iff.2 (mt hheld.1 hno), emitted_false] at *
    omega
  · rw [hheld.2 hyes, emitted_true] at *
    omega
  · rw [hheld.2 hyes, emitted_true] at *
    omega

/-- Settles O18: a failing Update reports no byte, and a successful one at most `emitted_le_dinSize`. -/
theorem updateOutputBound : Obligations.UpdateOutputBound := by
  intro dir n s t h ht
  have hbound : t.params = s.params ∧ t.outLen.toNat ≤ s.params.dinSize := by
    by_cases hc : updateCheck dir n s = .ok
    · obtain ⟨hn, hp, hm⟩ := (updateCheck_ok_iff dir n s).1 hc
      obtain ⟨k, hexec⟩ := h.exec_update hn hp hm
      obtain rfl : t = updated k dir n s := Host.Outcome.next.inj (ht.symm.trans hexec)
      obtain ⟨-, hout, -⟩ := h.result_updated k dir n hn
      exact ⟨rfl, hout.trans_le (emitted_le_dinSize h hp hn)⟩
    · obtain ⟨u, hexec, ⟨-, hout, -⟩, ⟨hparams, -⟩, -⟩ := update_fails rfl hc
      obtain rfl : t = u := Host.Outcome.next.inj (ht.symm.trans hexec)
      exact ⟨hparams, hout.trans_le (Nat.zero_le _)⟩
  obtain ⟨hparams, hle⟩ := hbound
  refine ⟨hle, ?_⟩
  rw [hparams]
  exact hle.trans (Nat.le_add_right _ _)

/-! ### Two Updates after one another -/

/-- One run over n + m bytes is a run over the first n, and then, from the CV and BUF it leaves, one over the other m
(R150, R154). -/
theorem streamed_add (e : Bytes16 → Bytes16) {dir : Direction} {n m : Nat} {s u : State}
    (hhold : holdsBack dir u = holdsBack dir s) (hcv : u.cv = (streamed e dir n s).cv)
    (hbuf : u.buf = (streamed e dir n s).buf) (hdin : ∀ j, j < m → dinByte u j = dinByte s (n + j)) :
    streamed e dir (n + m) s =
      { streamed e dir m u with out := (streamed e dir n s).out ++ (streamed e dir m u).out } := by
  have hrest : (List.range m).map (fun j => dinByte s (n + j)) = dinBytes u m :=
    List.map_congr_left fun j hj => (hdin j (List.mem_range.1 hj)).symm
  have hjoin := takeBlocks_append e dir (holdsBack dir s) (f := s.buf.length + (n + m)) (g := s.buf.length + n)
    (f2 := u.buf.length + m) s.cv (l := s.buf ++ dinBytes s n) (r := dinBytes u m) (by simp; omega) (by simp)
    (by rw [dinBytes_length, hbuf, streamed])
  rw [List.append_assoc, ← hrest, ← dinBytes_append, hrest] at hjoin
  rw [streamed, hjoin]
  simp only [streamed, hhold, hcv, hbuf]

/-- A command that emits the joined output of two others reports both lengths and holds the bytes of both. -/
theorem Emits.split {t t1 t2 : State} {out1 out2 : List Byte} {p p1 p2 : Nat} (h : Emits t (out1 ++ out2) p)
    (h1 : Emits t1 out1 p1) (h2 : Emits t2 out2 p2) :
    t.outLen.toNat = t1.outLen.toNat + t2.outLen.toNat ∧
      (∀ j, j < t1.outLen.toNat → doutByte t j = doutByte t1 j) ∧
      (∀ j, j < t2.outLen.toNat → doutByte t (t1.outLen.toNat + j) = doutByte t2 j) := by
  rw [h.outLen_eq, h1.outLen_eq, h2.outLen_eq, List.length_append]
  refine ⟨rfl, fun j hj => ?_, fun j hj => ?_⟩
  · rw [h.dout j (by rw [List.length_append]; omega), h1.dout j hj, List.getElem_append_left hj]
  · rw [h.dout _ (by rw [List.length_append]; omega), h2.dout j hj, List.getElem_append_right (by omega)]
    simp only [Nat.add_sub_cancel_left]

/-- Settles O19: by `streamed_add` the run of the one Update is the runs of the two. The second starts from the state
the first leaves, whose windows are given anew. -/
theorem updateSplitsAnywhere : Obligations.UpdateSplitsAnywhere := by
  intro dir n m s h hnm hp hm
  have hn : n ≤ s.params.dinSize := by omega
  obtain ⟨k, hk⟩ := h.roundKeys hp
  have hwf : memWf s.mem = true := h.memoryCanonical.1
  have hexec {l : Nat} (hl : l ≤ s.params.dinSize) := exec_update_eq h.buf_length_le hl hp hm hk
  have hemits {l : Nat} (hl : l ≤ s.params.dinSize) := updated_emits k dir l hwf h.buf_length_le hl
  have hinv : EngineInv (updated k dir n s) := h.exec (hexec hn)
  refine ⟨_, _, hexec hnm, hexec hn, fun mem' hmem' hdin => ?_⟩
  let u := setMem mem' (updated k dir n s)
  have hadd : streamed (Config.blockEncrypt k) dir (n + m) s = _ := streamed_add (u := u) _ rfl rfl rfl hdin
  have hm' : m ≤ u.params.dinSize := (Nat.le_add_left m n).trans hnm
  have hboth := hemits hnm
  rw [hadd] at hboth
  refine ⟨updated k dir m u, exec_update_eq hinv.buf_length_le hm' hp hm hk, ?_, ?_,
    hboth.split (hemits hn) (updated_emits k dir m hmem' hinv.buf_length_le hm')⟩
  · rw [updated_cv, updated_cv, hadd]
  · rw [updated_buf, updated_buf, hadd]

end Sys2Proof.Machine
end

section
/-! PROOFS. The Finals (R170 to R176): the two outcomes of a Final, a failure or one emitted output, each with the clear
and the frame around it, and from these the claims about ENC_FINAL and DEC_FINAL. -/

namespace Sys2Proof.Machine

/-- Either Final is the command of R170 and R171 in its direction (R177, R178). -/
theorem exec_finalInstr (dir : Direction) (s : State) : exec (finalInstr dir) s = finalCommand dir s := by
  cases dir <;> rfl

/-! ### What every Final leaves -/

/-- A Final that answers is one completion with at most a block of output, and the clear (R170). -/
theorem final_completes_in_block {dir : Direction} {s t : State} (h : exec (finalInstr dir) s = .next t) :
    ∃ e out p, t = clearStream (finish e out p s) ∧ out.length ≤ 16 := by
  rw [exec_finalInstr] at h
  rcases finalCommand_cases h with ⟨_, rfl⟩ | ⟨_, r, hr, rfl⟩
  · exact ⟨_, [], 0, rfl, Nat.zero_le _⟩
  · obtain ⟨e, out, p, rfl, hout, -⟩ := finalBody_bounds hr
    exact ⟨e, out, p, rfl, hout⟩

/-- A completion writes no byte outside DOUT[0..OUT_LEN), whatever its result (R16). -/
theorem sameMemoryBut_outLen_finish (e : ErrCode) {out : List Byte} (h : out.length < 65536) (p : Nat) (s : State) :
    SameMemoryBut (finish e out p s).outLen.toNat s (finish e out p s) := by
  cases e
  case ok =>
    have hlen : (finish .ok out p s).outLen.toNat = out.length := by
      simp only [finish_ok, completeWith_outLen, BitVec.toNat_ofNat]
      omega
    exact sameMemoryBut_finish hlen.symm p s
  all_goals exact fun _ _ => rfl

/-- A completion with an error writes no window byte (R16). -/
theorem sameMemory_finish_of_err_ne_ok {e : ErrCode} {out : List Byte} {p : Nat} {s : State}
    (h : (finish e out p s).err ≠ .ok) : SameMemory s (finish e out p s) := by
  cases e
  case ok => exact absurd rfl h
  all_goals exact fun _ => rfl

/-- Settles O20: a Final is a completion and the clear, and a rejected word is a completion alone. -/
theorem finalAlwaysClears : Obligations.FinalAlwaysClears := by
  refine ⟨fun dir s t h => ?_, fun s w r hdue _ hr => ?_⟩
  · obtain ⟨e, out, p, rfl, hout⟩ := final_completes_in_block h
    exact ⟨cleared_clearStream _, rfl, sameConfig_clearStream (sameConfig_finish ..),
      sameKeys_clearStream (sameKeys_finish ..), samePort_clearStream (samePort_finish ..),
      sameMemoryBut_clearStream (sameMemoryBut_outLen_finish e (by omega) p s), sameMemory_finish_of_err_ne_ok⟩
  · exact ⟨_, (step_due hdue).trans (engineStep_error hr s), sameStream_finish ..⟩

/-! ### The two outcomes -/

/-- A Final whose checks fail (R171) fails with their code and clears. -/
theorem final_fails_of_check {dir : Direction} {s : State} {code : ErrCode} (hc : finalCheck dir s = code)
    (hne : code ≠ .ok) : ∃ t, exec (finalInstr dir) s = .next t ∧ FailedAndCleared code s t :=
  ⟨_, (exec_finalInstr dir s).trans (finalCommand_fail hc hne), failedAndCleared_fail code s⟩

/-- A Final whose checks pass but whose result is a failure (R174) fails with that code and clears. -/
theorem final_fails_of_body {dir : Direction} {s : State} {code : ErrCode} (hp : s.phase = streamPhase dir)
    (hm : s.mode = 0) (hbody : finalBody dir s = .next (fail code s)) :
    ∃ t, exec (finalInstr dir) s = .next t ∧ FailedAndCleared code s t :=
  ⟨_, (exec_finalInstr dir s).trans (finalCommand_eq ((finalCheck_ok_iff dir s).2 ⟨hp, hm⟩) hbody),
    failedAndCleared_fail code s⟩

/-- A Final that succeeds with the `n` bytes of `out` puts them in DOUT, reports both lengths, clears, and keeps all
else (R16, R170). -/
theorem final_succeeds {dir : Direction} {s : State} {out : List Byte} {n p : Nat} {byte : Fin 16 → Byte}
    (hmem : memWf s.mem = true) (hp : s.phase = streamPhase dir) (hm : s.mode = 0)
    (hbody : finalBody dir s = .next (finish .ok out p s)) (hlen : out.length = n) (hn : n ≤ 16) (hpad : p ≤ 16)
    (hbyte : ∀ (i : Fin 16) (h : i.val < out.length), out[i.val] = byte i) :
    ∃ t, exec (finalInstr dir) s = .next t ∧ ResultIs .ok n p t ∧ Cleared t ∧
      (∀ i : Fin 16, i.val < n → doutByte t i.val = byte i) ∧
      SameConfig s t ∧ SameKeys s t ∧ SamePort s t ∧ SameMemoryBut n s t := by
  have hexec := finalCommand_eq ((finalCheck_ok_iff dir s).2 ⟨hp, hm⟩) hbody
  have hresult : ResultIs .ok n p (finish .ok out p s) := resultIs_finish hlen s (by omega) (by omega)
  refine ⟨_, (exec_finalInstr dir s).trans hexec, resultIs_clearStream hresult, cleared_clearStream _, fun i hi => ?_,
    sameConfig_clearStream (sameConfig_finish ..), sameKeys_clearStream (sameKeys_finish ..),
    samePort_clearStream (samePort_finish ..), sameMemoryBut_clearStream (sameMemoryBut_finish hlen p s)⟩
  have hi' : i.val < out.length := hlen.symm ▸ hi
  rw [doutByte_clearStream, doutByte_finish hmem out p hi', hbyte i hi']

/-! ### The failing checks -/

/-- The first check: the wrong phase hides the mode (R171). -/
theorem finalCheck_seq {dir : Direction} {s : State} (hp : s.phase ≠ streamPhase dir) : finalCheck dir s = .seq :=
  if_pos hp

/-- The second check is R115's verdict on MODE. -/
theorem finalCheck_mode {dir : Direction} {s : State} (hp : s.phase = streamPhase dir) :
    finalCheck dir s = modeCheck s.mode := if_neg (not_not_intro hp)

/-- Settles O21: `finalCheck` names the first failing check. -/
theorem finalChecksInOrder : Obligations.FinalChecksInOrder := by
  refine fun dir s => ⟨fun hp => final_fails_of_check (finalCheck_seq hp) (by decide), fun hp h1 h3 => ?_,
    fun hp h4 => ?_⟩
  · exact final_fails_of_check ((finalCheck_mode hp).trans (modeCheck_reserved h1 h3)) (by decide)
  · exact final_fails_of_check ((finalCheck_mode hp).trans (modeCheck_unrecognized h4)) (by decide)

/-! ### NoPadding, and encryption under PKCS -/

/-- Only a hold-back stream, decrypting under PKCS, buffers a whole block (R31, R41). -/
theorem EngineInv.buf_length_le_fifteen {s : State} (h : EngineInv s)
    (hno : ¬ (s.params.holdback = true ∧ s.phase = .dec ∧ s.pad = .pkcs)) : s.buf.length ≤ 15 :=
  h.bufferBounded.resolve_right fun ⟨_, hheld⟩ => hno hheld

/-- Settles O22: the result is the partial step of the buffered bytes. -/
theorem finalNoPadding : Obligations.FinalNoPadding := by
  intro dir s k h hk hp hm hpad
  have hle : s.buf.length ≤ 15 := h.buf_length_le_fifteen fun ⟨_, _, hpkcs⟩ =>
    absurd (hpad.symm.trans hpkcs) (by decide)
  have hlen := partialStep_length (Config.blockEncrypt k) s.cv (buf := s.buf) (by omega)
  refine ⟨hle, final_succeeds h.memoryCanonical.1 hp hm (finalBody_noPadding dir hk hpad) hlen (by omega)
    (Nat.zero_le _) fun i hi => ?_⟩
  have hi' : i.val < s.buf.length := hlen ▸ hi
  rw [partialStep_getElem _ _ hi hi' i.isLt, List.getD_eq_getElem _ _ hi', Fin.getElem_fin]

/-- Byte i of the padded block: a buffered byte, or the pad length (R120, R173). -/
theorem pkcsBlock_getElem {buf : List Byte} (h : buf.length < 16) {i : Nat} (hi : i < 16) :
    (pkcsBlock buf)[i] = if i < buf.length then buf.getD i 0 else BitVec.ofNat 8 (16 - buf.length) := by
  rw [pkcsBlock, padded_getElem h hi, block_getElem]

/-- Settles O23: with at most 15 bytes buffered padding always fits, and the padded block is stepped. -/
theorem encFinalPkcsEmitsOneBlock : Obligations.EncFinalPkcsEmitsOneBlock := by
  intro s k h hk hp hm hpad
  have hle : s.buf.length ≤ 15 := h.buf_length_le_fifteen fun ⟨_, hdec, _⟩ =>
    absurd (hp.symm.trans hdec) (by decide)
  have hlt : s.buf.length < 16 := by omega
  obtain ⟨t, ht, hresult, hclear, hbytes, hframe⟩ := final_succeeds (dir := .enc)
    (byte := fun i => (Config.blockEncrypt k s.cv)[i] ^^^
      (if i.val < s.buf.length then s.buf.getD i.val 0 else BitVec.ofNat 8 (16 - s.buf.length)))
    h.memoryCanonical.1 hp hm (finalBody_encPkcs hk hpad hlt) Vector.length_toList (le_refl 16) (Nat.sub_le _ _)
    fun i hi => by rw [Vector.getElem_toList, blockXor_getElem, pkcsBlock_getElem hlt i.isLt, Fin.getElem_fin]
  have hpos : 1 ≤ t.padLen.toNat := by
    obtain ⟨-, -, hpadLen, -⟩ := hresult
    omega
  exact ⟨t, ht, hresult, hpos, hclear, fun i => hbytes i i.isLt, hframe⟩

/-! ### Decryption under PKCS -/

/-- DEC_FINAL under PKCS needs exactly one buffered block (R174). -/
theorem finalBody_decPkcs_len {s : State} (hpad : s.pad = .pkcs) (hbuf : s.buf.length ≠ 16) :
    finalBody .dec s = .next (fail .len s) := by
  simp only [finalBody, hpad, if_pos hbuf]

/-- DEC_FINAL under PKCS of a block that decrypts to `pt` without valid padding (R174). -/
theorem finalBody_decPkcs_pad {s : State} {k : RoundKeys} {pt : Bytes16} (hk : s.rk = some k) (hpad : s.pad = .pkcs)
    (hbuf : s.buf = (blockXor (Config.blockEncrypt k s.cv) pt).toList) (hpt : ∀ p, ¬ PaddedWith pt p) :
    finalBody .dec s = .next (fail .pad s) := by
  have hlen : ¬ s.buf.length ≠ 16 := by simp [hbuf]
  have hplain : blockXor (Config.blockEncrypt k s.cv) (block s.buf) = pt := by
    rw [hbuf, block_toList, blockXor_cancel]
  simp only [finalBody, hpad, if_neg hlen]
  rw [withKeystream_of_rk hk]
  simp only [finalDecPkcs, hplain, (checkAndStrip_pkcs_none_iff pt).2 hpt]

/-- Settles O24: the buffer's length, and then the validator's answer on the candidate plaintext, decide the result. -/
theorem decFinalPkcsStripsOrFails : Obligations.DecFinalPkcsStripsOrFails := by
  intro s hp hm hpad
  refine ⟨fun hlen => final_fails_of_body (dir := .dec) hp hm (finalBody_decPkcs_len hpad hlen),
    fun k pt hmem hk hbuf => ⟨fun p hpt => ?_, fun hnone =>
      final_fails_of_body (dir := .dec) hp hm (finalBody_decPkcs_pad hk hpad hbuf hnone)⟩⟩
  have hp16 : p ≤ 16 := by
    obtain ⟨-, hle, -⟩ := hpt
    exact hle
  exact final_succeeds (dir := .dec) hmem hp hm (finalBody_decPkcs hk hpad hbuf hpt) (by simp) (Nat.sub_le _ _) hp16
    fun i hi => by rw [List.getElem_take, Vector.getElem_toList, Fin.getElem_fin]

/-- Settles O25: without hold-back a running stream never buffers the whole block O24 asks for. -/
theorem pkcsDecFinalNeedsHoldback : Obligations.PkcsDecFinalNeedsHoldback := by
  intro s h hhold hp hm hpad
  obtain ⟨hlen, -⟩ := decFinalPkcsStripsOrFails s hp hm hpad
  have hle : s.buf.length ≤ 15 := h.buf_length_le_fifteen fun ⟨hheld, _⟩ =>
    absurd (hhold.symm.trans hheld) (by decide)
  exact hlen (by omega)

end Sys2Proof.Machine
end

section
/-! PROOFS. The key commands (R190 to R193): KEYSCHED as one completion of the state with the schedule's result in RK,
the bytes ZEROIZE leaves in memory, and from these the claims about both commands. -/

namespace Sys2Proof.Machine

/-! ### KEYSCHED -/

theorem exec_keysched_idle {s : State} (hp : s.phase = .idle) : exec .keysched s = .next (expandKey s) :=
  congrArg Host.Outcome.next (if_pos hp)

theorem exec_keysched_stream {s : State} (hp : s.phase ≠ .idle) : exec .keysched s = .next (fail .seq s) :=
  congrArg Host.Outcome.next (if_neg hp)

/-- Whether the schedule succeeds or fails, RK takes its result; only the error code tells the two apart (R190, R191). -/
theorem expandKey_eq (s : State) : expandKey s =
    finish (if (Config.keySchedule s.key).isSome = true then .ok else .fatal) [] 0
      (setRk (Config.keySchedule s.key) s) := by
  unfold expandKey
  cases Config.keySchedule s.key with
  | none => rfl
  | some k => rfl

/-- Settles O10: in IDLE the completion of `expandKey_eq` emits nothing, so it is a `fail` whatever its code is, and moves
only the result registers of a state that differs in RK alone; in a stream `fail` does. -/
theorem keyschedExpandsTheKey : Obligations.KeyschedExpandsTheKey := by
  refine ⟨rfl, fun s => ⟨fun hp => ⟨expandKey s, exec_keysched_idle hp, ?_⟩,
    fun hp => ⟨fail .seq s, exec_keysched_stream hp, failedWith_fail .seq s⟩⟩⟩
  rw [expandKey_eq]
  obtain ⟨hresult, hconfig, ⟨hkey, hrk⟩, hstream, hport, hmem⟩ :=
    failedWith_fail (if (Config.keySchedule s.key).isSome = true then .ok else .fatal)
      (setRk (Config.keySchedule s.key) s)
  exact ⟨hrk, hresult, hkey, hconfig, hstream, hport, hmem⟩

/-! ### ZEROIZE -/

/-- ZEROIZE zeroes both windows and no other byte (R193). -/
theorem readMem_eraseAll (s : State) (a : Nat) :
    readMem (eraseAll s).mem a = if inWindows s.params a = true then 0 else readMem s.mem a := by
  simp only [eraseAll_mem, inWindows, Bool.or_eq_true, Bool.and_eq_true, decide_eq_true_eq]
  by_cases hdout : doutBase ≤ a ∧ a < doutBase + s.params.doutSize
  · obtain ⟨hlo, hhi⟩ := hdout
    rw [if_pos (.inr ⟨hlo, hhi⟩), readMem_zeroMems_inside _ hlo hhi]
  rw [readMem_zeroMems_outside _ (by omega)]
  by_cases hdin : dinBase ≤ a ∧ a < dinBase + s.params.dinSize
  · obtain ⟨hlo, hhi⟩ := hdin
    rw [if_pos (.inl ⟨hlo, hhi⟩), readMem_zeroMems_inside _ hlo hhi]
  · rw [if_neg (not_or.2 ⟨hdin, hdout⟩), readMem_zeroMems_outside _ (by omega)]

/-- ZEROIZE is the completion of `eraseAll` without output (R193). -/
theorem exec_zeroize (s : State) : exec .zeroize s = .next (completeWith .ok 0 0 (eraseAll s)) :=
  congrArg Host.Outcome.next (finish_ok_nil 0 (eraseAll s))

/-- Settles O11: the completion leaves the fields and the memory of `eraseAll`, whose bytes `readMem_eraseAll` gives. -/
theorem zeroizeErasesEverything : Obligations.ZeroizeErasesEverything := by
  refine ⟨rfl, fun s => ⟨_, exec_zeroize s, resultIs_completeWith .ok (eraseAll s) (by omega) (by omega), rfl, rfl,
    rfl, ⟨rfl, rfl, rfl⟩, fun i hi => ?din, fun i hi => ?dout, rfl, rfl, rfl, rfl, ⟨rfl, rfl, rfl, rfl⟩,
    fun a hout => ?outside⟩⟩
  case din =>
    exact (readMem_eraseAll s _).trans (if_pos (inWindows_din (by omega) (Nat.add_lt_add_left hi _)))
  case dout =>
    exact (readMem_eraseAll s _).trans (if_pos (inWindows_dout (by omega) (Nat.add_lt_add_left hi _) le_rfl))
  case outside =>
    exact (readMem_eraseAll s a).trans (if_neg (Bool.eq_false_iff.1 hout))

end Sys2Proof.Machine
end

section
/-! PROOFS. The engine in the place of exceptions (R200 to R211): what a command that ends with an error leaves, by the
three ways to end with one, and the completion interrupt as a view of IE and DONE. -/

namespace Sys2Proof.Machine

/-! ### Commands that end with an error -/

@[simp] theorem fail_err (e : ErrCode) (s : State) : (fail e s).err = e := by rw [fail_eq]; rfl

/-- OUT_LEN and PAD_LEN as registers, where a result reports the lengths 0 (R29, R30). -/
theorem ResultIs.lengths_zero {e : ErrCode} {t : State} (h : ResultIs e 0 0 t) : t.outLen = 0 ∧ t.padLen = 0 := by
  obtain ⟨-, hout, hpad, -⟩ := h
  exact ⟨BitVec.eq_of_toNat_eq hout, BitVec.eq_of_toNat_eq hpad⟩

/-- A command other than KEYSCHED and the Finals that ends with an error is a failing check: every other case of
`CommandRun` left to it succeeds. -/
theorem exec_failedWith {i : Instr} {s t : State} (h : exec i s = .next t) (he : t.err ≠ .ok) (hk : i ≠ .keysched)
    (hf : ∀ dir, i ≠ finalInstr dir) : FailedWith t.err s t := by
  cases commandRun_of_exec h with
  | fails => rw [fail_err]; exact failedWith_fail _ s
  | keysched e r hp => exact absurd rfl hk
  | final dir e out p ho hp hpad => exact absurd rfl (hf dir)
  | init dir hkeys => exact absurd rfl he
  | update dir n out cv buf hrun => exact absurd rfl he
  | padApply q n out p ho hp => exact absurd rfl he
  | padCheck q out p ho hp => exact absurd rfl he
  | zeroize => exact absurd rfl he

/-- KEYSCHED ends with an error in a stream, where it changes nothing else, or on a key that does not expand, where RK
becomes invalid (R190, R191). -/
theorem exec_keysched_failed {s t : State} (h : exec .keysched s = .next t) (he : t.err ≠ .ok) :
    FailedWith .seq s t ∨ FailedWith .fatal (setRk none s) t := by
  by_cases hp : s.phase = .idle
  · rw [exec_keysched_idle hp] at h
    cases h
    cases hs : Config.keySchedule s.key with
    | none => rw [expandKey_eq, hs]; exact .inr (failedWith_fail .fatal _)
    | some k => rw [expandKey_eq, hs] at he; exact absurd rfl he
  · rw [exec_keysched_stream hp] at h
    cases h
    exact .inl (failedWith_fail .seq s)

/-- A Final that ends with an error clears the stream and changes nothing else (R175). -/
theorem exec_final_failed {dir : Direction} {s t : State} (h : exec (finalInstr dir) s = .next t)
    (he : t.err ≠ .ok) : FailedAndCleared t.err s t := by
  obtain ⟨e, out, p, rfl, -⟩ := final_completes_in_block h
  cases e
  case ok => exact absurd rfl he
  all_goals exact failedAndCleared_fail _ s

/-- The three ways a command ends with an error: alone, with the clear of a Final, or with RK invalidated (R204). -/
theorem exec_failed {i : Instr} {s t : State} (h : exec i s = .next t) (he : t.err ≠ .ok) :
    (FailedWith t.err s t ∧ ¬ (i = .encFinal ∨ i = .decFinal) ∧ ¬ (i = .keysched ∧ t.err = .fatal)) ∨
    ((i = .encFinal ∨ i = .decFinal) ∧ FailedAndCleared t.err s t) ∨
    (i = .keysched ∧ FailedWith .fatal (setRk none s) t) := by
  by_cases hk : i = .keysched
  · subst hk
    rcases exec_keysched_failed h he with hseq | hfatal
    · have ⟨⟨herr, _⟩, _⟩ := hseq
      rw [herr]
      exact .inl ⟨hseq, by simp, by simp⟩
    · exact .inr (.inr ⟨rfl, hfatal⟩)
  by_cases hf : i = .encFinal ∨ i = .decFinal
  · rcases hf with rfl | rfl
    · exact .inr (.inl ⟨.inl rfl, exec_final_failed (dir := .enc) h he⟩)
    · exact .inr (.inl ⟨.inr rfl, exec_final_failed (dir := .dec) h he⟩)
  obtain ⟨henc, hdec⟩ := not_or.1 hf
  have hdir : ∀ dir, i ≠ finalInstr dir
    | .enc => henc
    | .dec => hdec
  exact .inl ⟨exec_failedWith h he hk hdir, hf, fun ⟨hkeysched, _⟩ => hk hkeysched⟩

/-- Settles O32: the frame of each of the three ways of `exec_failed`, and R96 for a rejected word. -/
theorem failedCommandKeepsState : Obligations.FailedCommandKeepsState := by
  refine ⟨fun i s t h he => ?_, fun s w r hdue hr => (stepRunsTheDecodedCommand s w hdue).2 r hr⟩
  rcases exec_failed h he with ⟨⟨hres, hcfg, ⟨hkey, hrk⟩, hstream, hport, hmem⟩, hfinal, hfatal⟩ |
    ⟨hfinal, hres, hcfg, ⟨hkey, hrk⟩, hclear, hport, hmem⟩ |
    ⟨rfl, hres, hcfg, ⟨hkey, hrk⟩, hstream, hport, hmem⟩
  · obtain ⟨hout, hpad⟩ := hres.lengths_zero
    exact ⟨hout, hpad, hmem, hcfg, hkey, hport, fun _ _ => hstream, fun hi => absurd hi hfinal, fun _ => hrk,
      fun hi => absurd hi hfatal⟩
  · obtain ⟨hout, hpad⟩ := hres.lengths_zero
    exact ⟨hout, hpad, hmem, hcfg, hkey, hport, fun henc hdec => absurd hfinal (not_or.2 ⟨henc, hdec⟩),
      fun _ => hclear, fun _ => hrk, fun ⟨hi, _⟩ => by subst hi; simp at hfinal⟩
  · obtain ⟨hout, hpad⟩ := hres.lengths_zero
    exact ⟨hout, hpad, hmem, hcfg, hkey, hport, fun _ _ => hstream, fun hi => by simp at hi,
      fun hne => absurd ⟨rfl, hres.1⟩ hne, fun _ => hrk⟩

/-! ### The completion interrupt -/

theorem irq_of_done {s : State} (h : s.done = true) : irq s = s.ie := by rw [irq, h, Bool.and_true]

theorem irq_of_not_done {s : State} (h : s.done = false) : irq s = false := by rw [irq, h, Bool.and_false]

/-- CTRL stores IE (R24). -/
theorem writeControl_ctrl (v : Word) (s : State) : writeControl .ctrl v s = { s with ie := v.getLsbD 0 } := rfl

/-- A due illegal word completes with DONE = 1, as a command does (R96). -/
theorem step_illegal_done {s t : State} {w : Word} {r : DecodeReject} (hdue : Due w s) (hr : decode w = .error r)
    (h : step s = .next t) : t.done = true := by
  rw [step_due hdue, engineStep_error hr, rejectCommand_eq] at h
  cases h
  rfl

/-- Settles O53: the completions by their DONE bit, and the three writes by what each stores (R210, R211). -/
theorem interruptFollowsDone : Obligations.InterruptFollowsDone := by
  refine ⟨fun _ => rfl, fun i s t h => ?exec, fun s t w r hdue hr h => ?illegal, statusWord_bit1, ?bus⟩
  case exec =>
    obtain ⟨-, hdone, -⟩ := exec_done h
    exact ⟨hdone, irq_of_done hdone⟩
  case illegal =>
    have hdone := step_illegal_done hdue hr h
    exact ⟨hdone, irq_of_done hdone⟩
  case bus =>
    intro s v hb w
    have hw {a : BitVec 14} (r : CtrlReg) (hr : controlAt a.toNat = some r) :
        w a = answerWith { rdata := drawWord s, resp := .okay } (writeControl r v (nextDraw s)) :=
      busTxn_writeControl hb hr
    have hctrl : irq (w 0x008) = (v.getLsbD 0 && s.done) := by rw [hw .ctrl rfl, writeControl_ctrl]; rfl
    refine ⟨fun hv => ?status, ?cmd, fun hv hd => ?unmask, fun hv => ?mask⟩
    case status =>
      have hdone : (w 0x00C).done = false := by
        rw [hw .status rfl, writeControl_status, hv]
        exact Bool.and_false _
      exact ⟨hdone, irq_of_not_done hdone⟩
    case cmd =>
      have hdone : (w 0x010).done = false := by rw [hw .cmd rfl]; rfl
      exact ⟨hdone, irq_of_not_done hdone⟩
    case unmask => rw [hctrl, hv, hd]; rfl
    case mask =>
      refine ⟨?_, by rw [hctrl, hv]; rfl⟩
      rw [hw .ctrl rfl, writeControl_ctrl]
      rfl

end Sys2Proof.Machine
end

section
/-! PROOFS. Reset (R230, R231): the step of a cycle with rst_n low, and R230's table for the state it leaves. -/

namespace Sys2Proof.Machine

/-- PARAM as one number: DIN_SIZE, and bit 16 where PKCS decryption holds back (R23). -/
theorem paramWord_eq_ofNat (p : Params) :
    paramWord p = BitVec.ofNat 32 (p.dinSize + if p.holdback = true then 65536 else 0) := by
  have hbit : (if p.holdback = true then 65536 else 0) = 65536 * p.holdback.toNat := by cases p.holdback <;> rfl
  rw [hbit, ← paramWord_toNat, BitVec.ofNat_toNat, BitVec.setWidth_eq]

/-- Every byte of the reset value of KEY, IV and CV is 0x00 (R230). -/
theorem zero16_getElem (i : Fin 16) : zero16[i] = 0 := Vector.getElem_replicate i.isLt

/-- While rst_n is low a step is the reset alone, whatever was running or due (R230, R231). -/
theorem step_reset {s : State} {es : List HostEvent} (h : s.host = .reset :: es) :
    step s = .next (resetEngine { s with host := es }) := by
  rw [step, if_pos ((resetPending_iff s).2 ⟨es, h⟩)]
  simp only [hostCycle, h]

/-- Settles O9: the reset state is what resetting it leaves, so R230's table is read once, off `resetEngine`. -/
theorem resetSetsEveryField : Obligations.ResetSetsEveryField := by
  unfold Obligations.ResetSetsEveryField
  intro IsReset
  have isReset_resetEngine (s : State) : IsReset (resetEngine s) := by
    refine ⟨?id, ?param, ?ctrl, ?busy, ?done, ?phase, ?rkv, ?err, ?mode, ?pad, ?outLen, ?padLen, ?bufLen, ?bytes,
      ?buf, ?din, ?dout, ?rk, ?latch, ?irq⟩
    case param => exact paramWord_eq_ofNat s.params
    case bytes => exact fun i => ⟨zero16_getElem i, zero16_getElem i, zero16_getElem i, rfl⟩
    case din | dout => exact fun _ => rfl
    case irq => exact irq_of_not_done (resetEngine_done s)
    all_goals rfl
  have reset_eq : State.reset = resetEngine State.reset := rfl
  refine ⟨reset_eq ▸ isReset_resetEngine State.reset, fun s es hs => ?step⟩
  exact ⟨resetEngine { s with host := es }, step_reset hs, isReset_resetEngine _, rfl, rfl⟩

end Sys2Proof.Machine
end
